-- ==== Sys2Proof/Word.lean ====
section
/-! DEFINITION. The words of the hardware: bytes, values, and the three families.

Every quantity is unsigned (spec/00_scope.md R7, spec/40_datapath.md R93). -/

namespace Sys2Proof

/-- A byte, 8 bits, bit 7 the most significant (R6). -/
abbrev Byte := BitVec 8

/-- The value operand and result, `VALUE_W = 64` bits (R5). -/
abbrev Value := BitVec 64

/-- The three families: narrow, medium, wide (R1, R2). -/
inductive Family where
  /-- 1-bit tag, lengths 1 and 2 -/
  | narrow
  /-- 2-bit tag, lengths 1, 2, 3, 4 -/
  | medium
  /-- 2-bit tag, lengths 1, 2, 4, 8 -/
  | wide
  deriving DecidableEq, Repr

end Sys2Proof
end

