-- ==== Sys2Proof/Config.lean ====
section
/-! DEFINITION. What an implementation fixes (R5: ADDR_W and TE_W, both OPEN model arguments) and the free values.

The parameters are data that a State carries (`State.cfg`), so every statement about all states is about all of them;
a free value is an opaque constant, of which nothing can be proved (log 1, 3, 13). -/

namespace Sys2Proof

/-- A range of addresses: `size` of them from `base` on. -/
structure Region where
  base : Nat
  size : Nat
  deriving DecidableEq, Repr

/-- The open parameters of one block (R5), and what its platform fixes of the address space (R40). -/
structure Config where
  /-- `ADDR_W`, width of a buffer address and of a buffer length (D7) -/
  addrW : Nat
  /-- `TE_W`, width of a transport error code (D12) -/
  teW : Nat
  /-- the addresses not backed by ordinary memory that can be read and written without side effects; which they are "is
  the platform's" (R40, R208, U12; log 19) -/
  notOrdinary : List Region
  deriving DecidableEq, Repr

/-- The parameters `State.reset` is written with (DESIGN CHOICE, log 1: the spec leaves all of them open). -/
def Config.default : Config := { addrW := 32, teW := 8, notOrdinary := [] }

/-- U19, D34: what a byte of buffer memory that no agent has written holds, by address: an unconstrained value that
stays the same until the byte is written (log 3). -/
opaque Config.initByte (addr : Nat) : Byte

/-- What BASE or LEN holds after the host writes a number the register cannot hold, by a fresh index (log 13). -/
opaque Config.freeAddr (index : Nat) : Nat

end Sys2Proof
end

