-- ==== Sys2Proof/Machine/Operands.lean ====
section
/-! DEFINITION. The shared datapath of spec/40_datapath.md: tag extraction, tag-to-length lookup, class selection, pack
and unpack.  Total functions on mathematical non-negative integers (R7), narrowed to bytes and values at the end.  And
the test whether a buffer lies in ordinary memory (R208). -/

namespace Sys2Proof.Machine

/-- R80: the tag width in bits. -/
def K : Family → Nat
  | .narrow => 1
  | .medium => 2
  | .wide => 2

/-- R81: the total length in bytes of an encoding with tag `t`. -/
def LEN : Family → Nat → Nat
  | .narrow, t => 2 ^ t
  | .medium, t => t + 1
  | .wide, t => 2 ^ t

/-- R82: the payload width in bits. -/
def PBITS (f : Family) (t : Nat) : Nat := 8 * LEN f t - K f

/-- R83: the largest tag. -/
def tmax (f : Family) : Nat := 2 ^ K f - 1

/-- R83: the exclusive upper bound of the values a family can encode. -/
def BOUND (f : Family) : Nat := 2 ^ PBITS f (tmax f)

/-- R84: the tag of a first byte. -/
def tagOf (f : Family) (b0 : Byte) : Nat := b0.toNat >>> (8 - K f)

/-- R89: the length a first byte declares. -/
def lengthOf (f : Family) (b0 : Byte) : Nat := LEN f (tagOf f b0)

/-- R89: the number of bytes that follow the first. -/
def remainingOf (f : Family) (b0 : Byte) : Nat := lengthOf f b0 - 1

/-- R85: the smallest tag whose payload width holds `v`, or `none` when no tag does. -/
def classOf (f : Family) (v : Nat) : Option Nat :=
  (List.range (2 ^ K f)).find? fun t => decide (v < 2 ^ PBITS f t)

/-- R6, R30: the `n` low bytes of a word, most significant byte first. -/
def bytesBE : Nat → Nat → List Byte
  | 0, _ => []
  | n + 1, w => BitVec.ofNat 8 (w >>> (8 * n)) :: bytesBE n w

/-- R6, R88: the word whose bytes are given, most significant byte first. -/
def joinBE (bs : List Byte) : Nat := bs.foldl (fun w b => (w <<< 8) ||| b.toNat) 0

/-- R87: the encoding of `v` with tag `t`: the word `(t << (8L-k)) | v` cut into `L` bytes. -/
def pack (f : Family) (t v : Nat) : List Byte :=
  bytesBE (LEN f t) ((t <<< (8 * LEN f t - K f)) ||| v)

/-- R88: the value of a whole encoding: its bytes joined, the top `k` bits dropped. -/
def unpack (f : Family) (bs : List Byte) : Nat :=
  joinBE bs % 2 ^ (8 * bs.length - K f)

/-- R90: the bytes a value turns into; `none` is TooLarge. -/
def encodeBytes (f : Family) (v : Nat) : Option (List Byte) :=
  match classOf f v with
  | none => none
  | some t => some (pack f t v)

/-- spec/45_laws.md: the minimal encoded length of a value; `none` when it has no encoding. -/
def minlen (f : Family) (v : Nat) : Option Nat :=
  match classOf f v with
  | none => none
  | some t => some (LEN f t)

/-- What `decode_bytes` answers (R91), with the empty list (which R91 does not take) told apart. -/
inductive DecodeResult where
  /-- no byte at all -/
  | empty
  /-- fewer than `len` bytes, the length the tag declares -/
  | truncated (len : Nat)
  /-- the value and the length -/
  | value (v len : Nat)
  deriving DecidableEq, Repr

/-- R91: the value and length a byte sequence turns into, or failure; bytes past the length are not looked at. -/
def decodeBytes (f : Family) : List Byte → DecodeResult
  | [] => .empty
  | b0 :: bs =>
    if bs.length + 1 < lengthOf f b0 then .truncated (lengthOf f b0)
    else .value (unpack f ((b0 :: bs).take (lengthOf f b0))) (lengthOf f b0)

/-- R60: the family a command word's FAM field names; 3 names none. -/
def familyOf (cmd : BitVec 4) : Option Family :=
  match cmd.getLsbD 1, cmd.getLsbD 0 with
  | false, false => some .narrow
  | false, true => some .medium
  | true, false => some .wide
  | true, true => none

/-- R60: DIR and MED of a command word: 00 Encode, 01 Write, 10 Decode, 11 Read. -/
def dirOf (cmd : BitVec 4) : Bool := cmd.getLsbD 3

/-- R60: the MED field: buffer memory or stream. -/
def medOf (cmd : BitVec 4) : Bool := cmd.getLsbD 2

/-- The address lies in the region. -/
def regionHas (r : Region) (a : Nat) : Bool := decide (r.base ≤ a ∧ a < r.base + r.size)

/-- R40, R208: the address is backed by ordinary memory. -/
def isOrdinary (c : Config) (a : Nat) : Bool := c.notOrdinary.all fun r => !regionHas r a

/-- R208: every address `base .. base+len-1` is backed by ordinary memory; no region has an address in common with them. -/
def isOrdinaryRange (c : Config) (base len : Nat) : Bool :=
  c.notOrdinary.all fun r => decide (min (r.base + r.size) (base + len) ≤ max r.base base)

/-- R60, R61: the command word of RD.f. -/
def readCode : Family → BitVec 4
  | .narrow => 0xC
  | .medium => 0xD
  | .wide => 0xE

/-- R60, R61: the command word of WR.f. -/
def writeCode : Family → BitVec 4
  | .narrow => 0x4
  | .medium => 0x5
  | .wide => 0x6

/-- R60, R61: the command word of ENC.f. -/
def encodeCode : Family → BitVec 4
  | .narrow => 0x0
  | .medium => 0x1
  | .wide => 0x2

/-- R60, R61: the command word of DEC.f. -/
def decodeCode : Family → BitVec 4
  | .narrow => 0x8
  | .medium => 0x9
  | .wide => 0xA

end Sys2Proof.Machine
end

