-- ==== Sys2Proof/Machine/Script.lean ====
section
/-! DEFINITION. The data the environment puts into the machine: stream answers (R41, R43), the host's register writes
(R17) and script lines (R64, R66), the record of port operations (R31, R32, R41, R43), and whose turn it is. -/

namespace Sys2Proof.Machine

/-- Why the input stream stopped short (R41). -/
inductive StopReason where
  /-- `EOI`: end of input -/
  | eoi
  /-- `Err(e)`: a transport failure with code `e` -/
  | err (e : Nat)
  deriving DecidableEq, Repr

/-- One answer of the input stream to one request (R41). -/
inductive ReadAnswer where
  /-- `Full(b[0..n-1])` -/
  | full (bs : List Byte)
  /-- `Short(b[0..m-1], why)` -/
  | short (bs : List Byte) (why : StopReason)
  deriving DecidableEq, Repr

/-- One answer of the output stream to one request (R43). -/
inductive WriteAnswer where
  /-- `All` -/
  | all
  /-- `Partial(m, e)`: the first `m` bytes were accepted, then a transport failure with code `e` -/
  | partOnly (m e : Nat)
  deriving DecidableEq, Repr

/-- One operation of the block at a port: a byte access of buffer memory (R31, R32) or a stream request (R41, R43). -/
inductive PortOp where
  | memRead (addr : Nat)
  | memWrite (addr : Nat) (b : Byte)
  | streamRead (n : Nat)
  | streamWrite (bs : List Byte)
  deriving DecidableEq, Repr

/-- The nine host-visible registers (R10). -/
inductive Reg where
  | cmd | val | base | len | rval | rcnt | rerr | rte | status
  deriving DecidableEq, Repr

/-- The registers the host cannot write (R10, R17). -/
inductive ReadOnlyReg where
  | rval | rcnt | rerr | rte | status
  deriving DecidableEq, Repr

/-- A host write to a register other than CMD (R17).  BASE and LEN take the number the host computed, which may not fit
the register (log 13); a write to a read-only register carries whatever was written. -/
inductive RegWrite where
  | val (v : Value)
  | base (v : Int)
  | len (v : Int)
  | readOnly (r : ReadOnlyReg) (v : Nat)
  deriving DecidableEq, Repr

/-- A host action still to be made. -/
inductive PendingOp where
  /-- write `w` to CMD, which starts a command when the block is idle (R17) -/
  | command (w : BitVec 4)
  /-- write another register -/
  | write (w : RegWrite)
  /-- connect a source that holds exactly `bs` and have RD.f read from it (R202, R213; log 15) -/
  | source (f : Family) (bs : List Byte)
  deriving DecidableEq, Repr

/-- One script line or directive (R64, R66), or a raw host action of the kind 95_test_vectors.md P4 uses. -/
inductive Directive where
  /-- `ENC.f base, len, value` -/
  | enc (f : Family) (base len : Nat) (v : Value)
  /-- `ENC.f +, value` -/
  | encNext (f : Family) (v : Value)
  /-- `DEC.f base, len` -/
  | dec (f : Family) (base len : Nat)
  /-- `DEC.f +` -/
  | decNext (f : Family)
  /-- `WR.f value` -/
  | wr (f : Family) (v : Value)
  /-- `RD.f` -/
  | rd (f : Family)
  /-- `ADV` -/
  | adv
  /-- `JOK name` -/
  | jok (label : Nat)
  /-- `JERR name` -/
  | jerr (label : Nat)
  /-- `LOG` -/
  | log
  /-- `HALT` -/
  | halt
  /-- a raw register write, not followed by a wait (P4 line 11) -/
  | raw (op : PendingOp)
  /-- a plain host store of one byte to buffer memory (P4 line 8) -/
  | store (addr : Nat) (b : Byte)
  /-- the host connects a new source to the input stream port (R213) -/
  | connectSource
  deriving DecidableEq, Repr

/-- A script line with the label that names it, if any (`name:`, R66); a label is a number standing for its name. -/
structure Line where
  label : Option Nat
  act : Directive
  deriving DecidableEq, Repr

/-- The tuple `LOG` appends (R66). -/
structure LogEntry where
  rerr : BitVec 4
  rcnt : BitVec 4
  rval : Value
  rte : Nat
  deriving DecidableEq, Repr

/-- Whose turn it is (R9, R139).  A reset turn carries what is the platform's (U13, log 18): how many of the bytes of a
Write in flight the output stream had accepted, and which bytes a Read's outstanding request still consumed. -/
inductive Turn where
  | host
  | inStream
  | outStream
  | reset (accepted : Nat) (drained : List Byte)
  deriving DecidableEq, Repr

end Sys2Proof.Machine
end

