-- ==== Sys2Proof/Syntax.lean ====
section
/-! DEFINITION. The instructions: one constructor per row of spec/opcode_table.json.

Sixteen command words (R60 to R62) and ten data formats (R51 to R53).  A command has no operand fields: its operands
are the registers VAL, BASE, LEN.  A data format carries its payload, in the width the format gives it (R82). -/

namespace Sys2Proof

/-- The instructions. -/
inductive Instr where
  /-- ENC.N, 0x0, R100 -/
  | encN
  /-- ENC.M, 0x1, R110 -/
  | encM
  /-- ENC.W, 0x2, R120 -/
  | encW
  /-- WR.N, 0x4, R102 -/
  | wrN
  /-- WR.M, 0x5, R112 -/
  | wrM
  /-- WR.W, 0x6, R122 -/
  | wrW
  /-- DEC.N, 0x8, R101 -/
  | decN
  /-- DEC.M, 0x9, R111 -/
  | decM
  /-- DEC.W, 0xA, R121 -/
  | decW
  /-- RD.N, 0xC, R103 -/
  | rdN
  /-- RD.M, 0xD, R113 -/
  | rdM
  /-- RD.W, 0xE, R123 -/
  | rdW
  /-- reserved command code 0x3, R62 -/
  | reserved3
  /-- reserved command code 0x7, R62 -/
  | reserved7
  /-- reserved command code 0xB, R62 -/
  | reservedB
  /-- reserved command code 0xF, R62 -/
  | reservedF
  /-- N.L1, `0vvvvvvv`, R51 -/
  | nL1 (v : BitVec 7)
  /-- N.L2, `1vvvvvvv vvvvvvvv`, R51 -/
  | nL2 (v : BitVec 15)
  /-- M.L1, `00vvvvvv`, R52 -/
  | mL1 (v : BitVec 6)
  /-- M.L2, `01vvvvvv` and one byte, R52 -/
  | mL2 (v : BitVec 14)
  /-- M.L3, `10vvvvvv` and two bytes, R52 -/
  | mL3 (v : BitVec 22)
  /-- M.L4, `11vvvvvv` and three bytes, R52 -/
  | mL4 (v : BitVec 30)
  /-- W.L1, `00vvvvvv`, R53 -/
  | wL1 (v : BitVec 6)
  /-- W.L2, `01vvvvvv` and one byte, R53 -/
  | wL2 (v : BitVec 14)
  /-- W.L4, `10vvvvvv` and three bytes, R53 -/
  | wL4 (v : BitVec 30)
  /-- W.L8, `11vvvvvv` and seven bytes, R53 -/
  | wL8 (v : BitVec 62)
  deriving DecidableEq, Repr

end Sys2Proof
end

