-- ==== Sys2Proof/WellFormed.lean ====
section
/-! DEFINITION. What is well formed: parameters (R5), stream answers (R41, R43, U7), script lines (R64, R66).

An instruction needs no check: a command has no operand field and a data format's payload has the format's own width in
its type, so every term of `Instr` is well formed.  Whether a data item is canonical (R58, GLOSSARY) is a property of
it, not a condition. -/

namespace Sys2Proof

open Machine

/-- R5: `ADDR_W ≥ 4` and `TE_W ≥ 1`. -/
def Config.wf (c : Config) : Bool := decide (4 ≤ c.addrW) && decide (1 ≤ c.teW)

namespace Machine

/-- R41: `why` is end of input or a code of `TE_W` bits. -/
def StopReason.fits (teW : Nat) : StopReason → Bool
  | .eoi => true
  | .err e => decide (e < 2 ^ teW)

/-- R41, U7: the answer is of the shape the port contract gives to a request for `n` bytes. -/
def ReadAnswer.fits (n teW : Nat) : ReadAnswer → Bool
  | .full bs => decide (bs.length = n)
  | .short bs why => decide (bs.length < n) && why.fits teW

/-- R43, U7: the same for a request to accept `n` bytes. -/
def WriteAnswer.fits (n teW : Nat) : WriteAnswer → Bool
  | .all => true
  | .partOnly m e => decide (m < n) && decide (e < 2 ^ teW)

/-- R66: the label is the name of some line. -/
def hasLabel (script : List Line) (l : Nat) : Bool := script.any fun x => x.label == some l

/-- R10, R64, R66: a line's BASE and LEN operands fit their registers, a stored byte's address exists and is
ordinary memory (R208), and the label a
branch names is some line's. -/
def Line.wf (c : Config) (script : List Line) (x : Line) : Bool :=
  match x.act with
  | .enc _ base len _ | .dec _ base len => decide (base < 2 ^ c.addrW) && decide (len < 2 ^ c.addrW)
  | .jok l | .jerr l => hasLabel script l
  | .store a _ => decide (a < 2 ^ c.addrW) && isOrdinary c a
  | .encNext _ _ | .decNext _ | .wr _ _ | .rd _ | .adv | .log | .halt | .raw _ | .connectSource => true

/-- Every line of the script is well formed. -/
def scriptWf (c : Config) (script : List Line) : Bool := script.all (Line.wf c script)

end Machine

/-- The family, tag and payload of a data item; `none` for a command. -/
def Instr.item? : Instr → Option (Family × Nat × Nat)
  | .nL1 v => some (.narrow, 0, v.toNat)
  | .nL2 v => some (.narrow, 1, v.toNat)
  | .mL1 v => some (.medium, 0, v.toNat)
  | .mL2 v => some (.medium, 1, v.toNat)
  | .mL3 v => some (.medium, 2, v.toNat)
  | .mL4 v => some (.medium, 3, v.toNat)
  | .wL1 v => some (.wide, 0, v.toNat)
  | .wL2 v => some (.wide, 1, v.toNat)
  | .wL4 v => some (.wide, 2, v.toNat)
  | .wL8 v => some (.wide, 3, v.toNat)
  | .encN | .encM | .encW | .wrN | .wrM | .wrW | .decN | .decM | .decW | .rdN | .rdM | .rdW
  | .reserved3 | .reserved7 | .reservedB | .reservedF => none

/-- R56, R58: a data item is canonical when its tag is the smallest that holds its payload. -/
def Instr.canonical (i : Instr) : Bool :=
  match i.item? with
  | none => true
  | some (f, t, v) => decide (classOf f v = some t)

end Sys2Proof
end

