-- ==== Sys2Proof/Decode.lean ====
section
/-! DEFINITION. Decoding: from bytes to an instruction or a refusal by name, and the encoder beside it.

A command word and a data item are read in different contexts (R54: "The family is not recorded in the data.  It is
supplied by the command"), so the decoder takes the context. -/

namespace Sys2Proof

open Machine

/-- What the bytes are read as: the word written to CMD, or data under a family (R54). -/
inductive Context where
  | command
  | data (f : Family)
  deriving DecidableEq, Repr

/-- Why a decoder refuses. -/
inductive DecodeError where
  /-- there is no byte -/
  | empty
  /-- fewer bytes than the tag declares (R57: the only way data can fail) -/
  | truncated
  /-- a command word has 4 bits (R63) -/
  | notACommandWord
  deriving DecidableEq, Repr

/-- R60 to R62: the command a 4-bit word names; the columns are DIR, MED and the two bits of FAM. -/
def decodeCmd (w : BitVec 4) : Instr :=
  match w.getLsbD 3, w.getLsbD 2, w.getLsbD 1, w.getLsbD 0 with
  | false, false, false, false => .encN
  | false, false, false, true => .encM
  | false, false, true, false => .encW
  | false, false, true, true => .reserved3
  | false, true, false, false => .wrN
  | false, true, false, true => .wrM
  | false, true, true, false => .wrW
  | false, true, true, true => .reserved7
  | true, false, false, false => .decN
  | true, false, false, true => .decM
  | true, false, true, false => .decW
  | true, false, true, true => .reservedB
  | true, true, false, false => .rdN
  | true, true, false, true => .rdM
  | true, true, true, false => .rdW
  | true, true, true, true => .reservedF

/-- R51 to R53: the data format of a family and a tag, with its payload. -/
def itemOf (f : Family) (t v : Nat) : Instr :=
  match f, t with
  | .narrow, 0 => .nL1 (BitVec.ofNat 7 v)
  | .narrow, _ => .nL2 (BitVec.ofNat 15 v)
  | .medium, 0 => .mL1 (BitVec.ofNat 6 v)
  | .medium, 1 => .mL2 (BitVec.ofNat 14 v)
  | .medium, 2 => .mL3 (BitVec.ofNat 22 v)
  | .medium, _ => .mL4 (BitVec.ofNat 30 v)
  | .wide, 0 => .wL1 (BitVec.ofNat 6 v)
  | .wide, 1 => .wL2 (BitVec.ofNat 14 v)
  | .wide, 2 => .wL4 (BitVec.ofNat 30 v)
  | .wide, _ => .wL8 (BitVec.ofNat 62 v)

/-- The instruction at the start of the bytes, with the bytes after it. -/
def decode : Context → List Byte → Except DecodeError (Instr × List Byte)
  | .command, [] => .error .empty
  | .command, b :: rest =>
    if b.toNat < 16 then .ok (decodeCmd (b.setWidth 4), rest) else .error .notACommandWord
  | .data _, [] => .error .empty
  | .data f, b0 :: bs =>
    if bs.length + 1 < lengthOf f b0 then .error .truncated
    else .ok (itemOf f (tagOf f b0) (unpack f ((b0 :: bs).take (lengthOf f b0))), (b0 :: bs).drop (lengthOf f b0))

/-- R61, R62: the command word of a command; `none` for a data item. -/
def cmdWord : Instr → Option (BitVec 4)
  | .encN => some 0b0000
  | .encM => some 0b0001
  | .encW => some 0b0010
  | .reserved3 => some 0b0011
  | .wrN => some 0b0100
  | .wrM => some 0b0101
  | .wrW => some 0b0110
  | .reserved7 => some 0b0111
  | .decN => some 0b1000
  | .decM => some 0b1001
  | .decW => some 0b1010
  | .reservedB => some 0b1011
  | .rdN => some 0b1100
  | .rdM => some 0b1101
  | .rdW => some 0b1110
  | .reservedF => some 0b1111
  | .nL1 _ | .nL2 _ | .mL1 _ | .mL2 _ | .mL3 _ | .mL4 _ | .wL1 _ | .wL2 _ | .wL4 _ | .wL8 _ => none

/-- The context an instruction's bytes are read in. -/
def Instr.context (i : Instr) : Context :=
  match i.item? with
  | none => .command
  | some (f, _, _) => .data f

/-- The bytes of an instruction, from the tables of R61, R62 and R51 to R53. -/
def encode (i : Instr) : List Byte :=
  match i.item?, cmdWord i with
  | some (f, t, v), _ => pack f t v
  | none, some w => [w.setWidth 8]
  | none, none => []

/-- The bytes of a table word: bit 0 is the least significant bit of the first byte, a later byte's bits count on. -/
def tableBytes (nbits w : Nat) : List Byte :=
  (List.range ((nbits + 7) / 8)).map fun i => BitVec.ofNat 8 (w >>> (8 * i))

/-- The decoder reads all of the bytes in this context. -/
def readsWhole (bs : List Byte) (c : Context) : Bool :=
  match decode c bs with
  | .ok (_, rest) => rest.isEmpty
  | .error _ => false

/-- The context a table word is read in: the first that takes the word whole.  Several rows of the table have the same
words (R53: W.L1, W.L2 are bit-identical to M.L1, M.L2), so this settles them in the table's order (log 16). -/
def tableContext (nbits w : Nat) : Option Context :=
  [Context.command, .data .narrow, .data .medium, .data .wide].find? (readsWhole (tableBytes nbits w))

/-- The instruction the decoder reads from a table word. -/
def decodeTableWord (nbits w : Nat) : Option Instr :=
  match tableContext nbits w with
  | none => none
  | some c =>
    match decode c (tableBytes nbits w) with
    | .ok (i, _) => some i
    | .error _ => none

end Sys2Proof
end

