-- ==== Sys2Proof/Machine/State.lean ====
section
/-! DEFINITION. The machine's state as plain data, why a step can stop, and the state after reset.

The registers are those of spec/10_state.md R10 and R13; the rest is the buffer memory, the two streams as environment
(R45), the host and its script (R14, R66), and the model's own fields (log 10, 13, 23). -/

namespace Sys2Proof.Machine

/-- Why the machine stops with a fault.  None is a trap of the block, which has none (R172). -/
inductive Fault where
  /-- raised by a stream's turn when it has no answer left to give: R211 "A model shows this as an agent with no
  enabled step (stuck), never as a completion"; safe -/
  | streamSilent
  /-- raised by the host's turn when no script line stands at `si`: the host writes nothing more (R201); safe -/
  | hostSilent
  /-- raised by the host's turn at a HALT line once BUSY = 0: "the script ends.  This is the end of a run" (R66, log 25);
  safe -/
  | halted
  /-- raised by a host store to an address outside the `2^ADDR_W` byte space (R40); safe -/
  | noSuchAddress
  /-- raised by a stream answer while CMD.FAM names no family, in a phase no run reaches (R130); safe (log 20) -/
  | phaseWithoutFamily
  /-- raised by a platform when the instance named does not exist (R190); safe -/
  | noSuchInstance
  deriving DecidableEq, Repr

/-- Why the model gives a step no meaning. -/
inductive Refusal where
  /-- raised by an arm of `exec` that has no meaning yet; safe -/
  | notModelled (mnemonic : String)
  /-- raised by ENC.f and DEC.f when BASE + LEN > 2^ADDR_W: "a model refuses such a command" (R33, U5); safe -/
  | bufferWraps
  /-- raised by ENC.f and DEC.f when an address of BASE .. BASE+LEN-1 is not backed by ordinary memory, and by a host store
  to such an address: "refuse: host duty" (R208, U12; log 19); safe -/
  | notOrdinaryMemory
  /-- raised by a stream answer outside the port contract of R41, R43: "the model refuses it" (R45, U7); safe -/
  | answerMisfit
  /-- raised by a stream answer when that stream has no request outstanding (U7); safe -/
  | answerUnrequested
  /-- raised by a script branch to a label that names no line (R66, log 14); safe -/
  | noSuchLabel
  /-- raised by connecting a source while a Read is in flight, a breach of R38 (U6); safe -/
  | streamInUse
  deriving DecidableEq, Repr

/-- The phase PH (R13). -/
inductive Phase where
  | idle
  | rdTag
  | rdCont
  | wrData
  deriving DecidableEq, Repr

/-- The error kinds (R170). -/
inductive ErrorKind where
  | valueTooLarge
  | bufferTooSmall
  | bufferEmpty
  | invalidEncoding
  | streamEmpty
  | transport
  | illegalCommand
  deriving DecidableEq, Repr

/-- Buffer memory: the bytes some agent has written, addresses strictly rising.  An address not listed holds a byte
nothing has written (log 4). -/
abbrev Memory := List Host.Cell

/-- The state of one block instance with its memory, its streams and its host. -/
structure State where
  /-- the open parameters, fixed (R5) -/
  cfg : Config
  /-- CMD, the last command word written and accepted (R11) -/
  cmd : BitVec 4
  /-- VAL, the value to encode -/
  val : Value
  /-- BASE, `ADDR_W` bits -/
  base : Nat
  /-- LEN, `ADDR_W` bits -/
  len : Nat
  /-- RVAL, the decoded value -/
  rval : Value
  /-- RCNT, the byte count -/
  rcnt : BitVec 4
  /-- RERR, the error code -/
  rerr : BitVec 4
  /-- RTE, the transport error code, `TE_W` bits -/
  rte : Nat
  /-- SB[0..7], the staging buffer (R13) -/
  sb : Vector Byte 8
  /-- PH (R13) -/
  ph : Phase
  /-- NREQ, the number of bytes asked for in the outstanding request (R13) -/
  nreq : BitVec 4
  /-- buffer memory (R16) -/
  mem : Memory
  /-- the input stream's answers to come (R45) -/
  inTape : List ReadAnswer
  /-- the input stream has reported end of input and "will deliver nothing more" (R41) -/
  inEnded : Bool
  /-- the bytes that have passed through the input stream port (R42, R66) -/
  inTaken : List Byte
  /-- the output stream's answers to come (R45) -/
  outTape : List WriteAnswer
  /-- the bytes the output stream has accepted (R43, R66) -/
  outSent : List Byte
  /-- the host's script (R66) -/
  script : List Line
  /-- the script index `si` (R14) -/
  si : Nat
  /-- the host actions of the present line still to be made (R64) -/
  pend : List PendingOp
  /-- the host waits until STATUS.BUSY = 0 (R64) -/
  waiting : Bool
  /-- the script's result log (R66) -/
  log : List LogEntry
  /-- whose turns come next; with none listed, `defaultTurn` says (log 10) -/
  turns : List Turn
  /-- the block's port operations so far, in order (R36, R212) -/
  portOps : List PortOp
  /-- how many free values have been taken (log 13) -/
  freeCtr : Nat
  deriving DecidableEq, Repr

/-- R20, R200: the machine right after reset, for given parameters.  SB and NREQ are unspecified there and 0 here (log
5); the environment has said nothing yet (log 17, 23). -/
def State.resetWith (c : Config) : State :=
  { cfg := c
    cmd := 0, val := 0, base := 0, len := 0
    rval := 0, rcnt := 0, rerr := 0, rte := 0
    sb := Vector.replicate 8 0, ph := .idle, nreq := 0
    mem := []
    inTape := [], inEnded := false, inTaken := []
    outTape := [], outSent := []
    script := [], si := 0, pend := [], waiting := false, log := []
    turns := [], portOps := [], freeCtr := 0 }

/-- The machine right after reset (R20), with the parameters of `Config.default` (log 1). -/
def State.reset : State := State.resetWith Config.default

end Sys2Proof.Machine
end

