-- ==== Sys2Proof/Machine/Flags.lean ====
section
/-! DEFINITION. The one status flag, STATUS.BUSY (R15), and the codes of the phases and error kinds. -/

namespace Sys2Proof.Machine

/-- R13: the code of a phase. -/
def Phase.code : Phase → BitVec 2
  | .idle => 0
  | .rdTag => 1
  | .rdCont => 2
  | .wrData => 3

/-- R170: the number of an error kind. -/
def ErrorKind.code : ErrorKind → BitVec 4
  | .valueTooLarge => 1
  | .bufferTooSmall => 2
  | .bufferEmpty => 3
  | .invalidEncoding => 4
  | .streamEmpty => 5
  | .transport => 6
  | .illegalCommand => 7

/-- R10: BUSY = (PH ≠ IDLE). -/
def State.busy (s : State) : Bool := decide (s.ph ≠ .idle)

/-- R10, R11: STATUS, whose bit 0 is BUSY and which has no other bit. -/
def State.status (s : State) : BitVec 1 := BitVec.ofBool s.busy

end Sys2Proof.Machine
end

