-- ==== Sys2Proof/Machine/Ops.lean ====
section
/-! DEFINITION. The shared operations over memory and registers: byte access, completion and error completion (the
block's whole "exception" mechanism, R170 to R177), host register access, reset, and the bodies of Encode and Decode. -/

namespace Sys2Proof.Machine

/-- What a step ends in. -/
abbrev Result := Host.Outcome State Fault Refusal

/-- Go on after a step that answers a next state. -/
def andThen (o : Result) (k : State → Result) : Result :=
  match o with
  | .next s => k s
  | .fault r => .fault r
  | .refused r => .refused r

/-! ### Buffer memory -/

/-- The canonical form: addresses strictly rising. -/
def Memory.wf : Memory → Bool
  | [] => true
  | [_] => true
  | (a, _) :: (b, y) :: m => decide (a < b) && Memory.wf ((b, y) :: m)

/-- The byte written at an address; `none` when no agent has written one. -/
def Memory.read? : Memory → Nat → Option Byte
  | [], _ => none
  | (a, x) :: m, addr => if addr = a then some x else Memory.read? m addr

/-- Write one byte, keeping the addresses in order. -/
def Memory.write : Memory → Nat → Byte → Memory
  | [], addr, b => [(addr, b)]
  | (a, x) :: m, addr, b =>
    if addr < a then (addr, b) :: (a, x) :: m
    else if addr = a then (a, b) :: m
    else (a, x) :: Memory.write m addr b

/-- R32: `n` single-byte writes in ascending address order. -/
def Memory.writeBytes : Memory → Nat → List Byte → Memory
  | m, _, [] => m
  | m, addr, b :: bs => Memory.writeBytes (Memory.write m addr b) (addr + 1) bs

/-- The byte an address holds: the one written, or the free value of a byte nothing has written (U19, log 3). -/
def Memory.byteAt (m : Memory) (addr : Nat) : Byte := (m.read? addr).getD (Config.initByte addr)

/-- R31: the `n` bytes from an address on. -/
def Memory.readBytes (m : Memory) (addr n : Nat) : List Byte :=
  (List.range n).map fun i => m.byteAt (addr + i)

/-- R31: the accesses `MemRead(addr, n)` makes, in ascending address order. -/
def memReadOps (addr n : Nat) : List PortOp := (List.range n).map fun i => .memRead (addr + i)

/-- R32: the accesses `MemWrite(addr, n, b)` makes, in ascending address order. -/
def memWriteOps (addr : Nat) : List Byte → List PortOp
  | [] => []
  | b :: bs => .memWrite addr b :: memWriteOps (addr + 1) bs

/-- Record port operations of the block. -/
def State.note (s : State) (ops : List PortOp) : State := { s with portOps := s.portOps ++ ops }

/-- R32: `MemWrite(addr, n, b)`. -/
def State.memWrite (s : State) (addr : Nat) (bs : List Byte) : State :=
  { s with mem := s.mem.writeBytes addr bs, portOps := s.portOps ++ memWriteOps addr bs }

/-! ### The staging buffer -/

/-- SB with `bs` stored from index `off` on; what does not fit is dropped. -/
def storeSB (sb : Vector Byte 8) (off : Nat) (bs : List Byte) : Vector Byte 8 :=
  Vector.ofFn fun i : Fin 8 =>
    if off ≤ i.val ∧ i.val - off < bs.length then bs.getD (i.val - off) 0 else sb[i]

/-- `SB[0..n-1]`. -/
def State.staged (s : State) (n : Nat) : List Byte := s.sb.toList.take n

/-! ### Completion (spec/60_exceptions.md section 2) -/

/-- R171: successful completion, one atomic update. -/
def State.complete (s : State) (v : Nat) (cnt : Nat) : State :=
  { s with rerr := 0, rval := BitVec.ofNat 64 v, rcnt := BitVec.ofNat 4 cnt, rte := 0, ph := .idle }

/-- R172: completion with an error kind and a transport code, one atomic update; nothing else is saved and control goes
nowhere. -/
def State.raiseWith (s : State) (k : ErrorKind) (cnt e : Nat) : State :=
  { s with rerr := k.code, rval := 0, rcnt := BitVec.ofNat 4 cnt, rte := e, ph := .idle }

/-- R172: `raise Kind(cnt)`. -/
def State.raise (s : State) (k : ErrorKind) (cnt : Nat) : State := s.raiseWith k cnt 0

/-- R172: `raise Transport(cnt, e)`. -/
def State.raiseTransport (s : State) (cnt e : Nat) : State := s.raiseWith .transport cnt e

/-! ### Host access to the registers -/

/-- R10: the index of a register. -/
def Reg.index : Reg → Nat
  | .cmd => 0
  | .val => 1
  | .base => 2
  | .len => 3
  | .rval => 4
  | .rcnt => 5
  | .rerr => 6
  | .rte => 7
  | .status => 8

/-- R10: the width of a register. -/
def Reg.width (c : Config) : Reg → Nat
  | .cmd => 4
  | .val => 64
  | .base => c.addrW
  | .len => c.addrW
  | .rval => 64
  | .rcnt => 4
  | .rerr => 4
  | .rte => c.teW
  | .status => 1

/-- R17: a host read, which has no side effect. -/
def State.hostRead (s : State) : Reg → Nat
  | .cmd => s.cmd.toNat
  | .val => s.val.toNat
  | .base => s.base
  | .len => s.len
  | .rval => s.rval.toNat
  | .rcnt => s.rcnt.toNat
  | .rerr => s.rerr.toNat
  | .rte => s.rte
  | .status => s.status.toNat

/-- Whether a number is one that BASE and LEN can hold. -/
def Config.holds (c : Config) (v : Int) : Bool := decide (0 ≤ v ∧ v < 2 ^ c.addrW)

/-- What BASE or LEN holds after the host writes the number `v`: `v`, or a free value when the register cannot hold it
(log 13). -/
def State.addrOf (s : State) (v : Int) : Nat :=
  if Config.holds s.cfg v then v.toNat else Config.freeAddr s.freeCtr % 2 ^ s.cfg.addrW

/-- The count of free values after such a write. -/
def State.freeAfter (s : State) (v : Int) : Nat := if Config.holds s.cfg v then s.freeCtr else s.freeCtr + 1

/-- R17: a host write to a register other than CMD: dropped while BUSY, dropped for a read-only register, and with no
effect beyond storing the value. -/
def State.hostWrite (s : State) (w : RegWrite) : State :=
  if s.busy then s else
  match w with
  | .val v => { s with val := v }
  | .base v => { s with base := s.addrOf v, freeCtr := s.freeAfter v }
  | .len v => { s with len := s.addrOf v, freeCtr := s.freeAfter v }
  | .readOnly _ _ => s

/-- R17: a host write to CMD: dropped while BUSY; otherwise the word is stored and the command it names starts. -/
def startCommand (w : BitVec 4) (body : State → Result) (s : State) : Result :=
  if s.busy then .next s else body { s with cmd := w }

/-- R200, U13, R41: which of the bytes a reset turn carries the abandoned request has consumed (log 18). -/
def State.drainedBy (s : State) (drained : List Byte) : List Byte :=
  if (s.ph = .rdTag ∨ s.ph = .rdCont) ∧ s.inEnded = false then drained.take s.nreq.toNat else []

/-- R200: reset of the block: every register and PH as R20 says, SB and NREQ as log 5 says, buffer memory unchanged.
Of a Write in flight the output stream has accepted the first `accepted` bytes; the outstanding request of a Read in flight
still consumed `drained`, at most what it asked for (U13), and nothing from a stream that has reported end of input and so
"will deliver nothing more" (R41); both are the model's reading, log 18.  Of the host nothing changes: `pend` and
`waiting` stay, so that the host goes on with the abandoned command's line as with any other (DESIGN CHOICE, log 24). -/
def State.resetBlock (s : State) (accepted : Nat) (drained : List Byte) : State :=
  { s with
    cmd := 0, val := 0, base := 0, len := 0
    rval := 0, rcnt := 0, rerr := 0, rte := 0
    sb := Vector.replicate 8 0, ph := .idle, nreq := 0
    inTaken := s.inTaken ++ s.drainedBy drained
    outSent := s.outSent ++ (if s.ph = .wrData then (s.staged s.nreq.toNat).take accepted else []) }

/-! ### The bodies of Encode, Decode and a reserved command -/

/-- R208: how the host has broken its duty on the buffer, if it has: `BASE + LEN ≤ 2^ADDR_W` (R33, U5), and every address
`BASE .. BASE+LEN-1` backed by ordinary memory (U12).  The order of the two tests is the model's, log 8. -/
def State.badBuffer (s : State) : Option Refusal :=
  if 2 ^ s.cfg.addrW < s.base + s.len then some .bufferWraps
  else if isOrdinaryRange s.cfg s.base s.len then none
  else some .notOrdinaryMemory

/-- R33, U5, U12: a buffer command whose host has broken its duty is refused, before anything else is looked at (log 8). -/
def onBuffer (body : State → Result) (s : State) : Result :=
  match s.badBuffer with
  | some r => .refused r
  | none => body s

/-- Encode (R100, R110, R120 in their generic form R90; order of tests R175). -/
def encodeBuffer (f : Family) : State → Result := onBuffer fun s =>
  match encodeBytes f s.val.toNat with
  | none => .next (s.raise .valueTooLarge 0)
  | some bs =>
    if s.len < bs.length then .next (s.raise .bufferTooSmall 0)
    else .next ((s.memWrite s.base bs).complete 0 bs.length)

/-- Decode (R101, R111, R121 in their generic form R91; order of tests R175). -/
def decodeBuffer (f : Family) : State → Result := onBuffer fun s =>
  if s.len = 0 then .next (s.raise .bufferEmpty 0) else
  let L := lengthOf f (s.mem.byteAt s.base)
  if s.len < L then .next ((s.note (memReadOps s.base 1)).raise .invalidEncoding 0)
  else .next ((s.note (memReadOps s.base L)).complete (unpack f (s.mem.readBytes s.base L)) L)

/-- R62: a reserved command code. -/
def illegalCommand (s : State) : Result := .next (s.raise .illegalCommand 0)

end Sys2Proof.Machine
end

