-- ==== Sys2Proof/Machine/Streams.lean ====
section
/-! DEFINITION. The stream protocols of spec/44_stream_protocol.md as steps of the phase machine (R130): issue a
request, take its answer. -/

namespace Sys2Proof.Machine

/-! ### Read -/

/-- R131: Read, issue step. -/
def startRead (s : State) : Result :=
  .next { s with ph := .rdTag, nreq := 1, portOps := s.portOps ++ [.streamRead 1] }

/-- The bytes an answer delivers. -/
def ReadAnswer.bytes : ReadAnswer → List Byte
  | .full bs => bs
  | .short bs _ => bs

/-- The answer reports end of input. -/
def ReadAnswer.ends : ReadAnswer → Bool
  | .full _ => false
  | .short _ .eoi => true
  | .short _ (.err _) => false

/-- R41, R42: the delivered bytes have left the stream. -/
def State.takeAnswer (s : State) (a : ReadAnswer) : State :=
  { s with inTaken := s.inTaken ++ a.bytes, inEnded := s.inEnded || a.ends }

/-- R41, U7: the answer keeps the port contract: its shape fits the request, and a stream that has reported end of input
delivers nothing more. -/
def State.acceptsAnswer (s : State) (a : ReadAnswer) : Bool :=
  a.fits s.nreq.toNat s.cfg.teW && (!s.inEnded || a.bytes.isEmpty)

/-- R132: Read, answer to the first request. -/
def firstAnswer (f : Family) (a : ReadAnswer) (s : State) : Result :=
  match a with
  | .short _ .eoi => .next (s.raise .streamEmpty 0)
  | .short _ (.err e) => .next (s.raiseTransport 0 e)
  | .full [] => .refused .answerMisfit
  | .full (b0 :: _) =>
    let s1 := { s with sb := storeSB s.sb 0 [b0] }
    let r := remainingOf f b0
    if r = 0 then .next (s1.complete (unpack f [b0]) 1)
    else .next { s1 with ph := .rdCont, nreq := BitVec.ofNat 4 r, portOps := s1.portOps ++ [.streamRead r] }

/-- R133: Read, answer to the second request. -/
def secondAnswer (f : Family) (a : ReadAnswer) (s : State) : Result :=
  match a with
  | .short bs .eoi => .next (s.raise .invalidEncoding (1 + bs.length))
  | .short bs (.err e) => .next (s.raiseTransport (1 + bs.length) e)
  | .full bs =>
    let s1 := { s with sb := storeSB s.sb 1 bs }
    .next (s1.complete (unpack f (s1.staged (bs.length + 1))) (bs.length + 1))

/-- R130, R45: the input stream answers. -/
def onReadAnswer (a : ReadAnswer) (s : State) : Result :=
  match s.ph with
  | .idle | .wrData => .refused .answerUnrequested
  | .rdTag =>
    match familyOf s.cmd with
    | none => .fault .phaseWithoutFamily
    | some f => if s.acceptsAnswer a then firstAnswer f a (s.takeAnswer a) else .refused .answerMisfit
  | .rdCont =>
    match familyOf s.cmd with
    | none => .fault .phaseWithoutFamily
    | some f => if s.acceptsAnswer a then secondAnswer f a (s.takeAnswer a) else .refused .answerMisfit

/-! ### Write -/

/-- R136: Write, issue step. -/
def startWrite (f : Family) (s : State) : Result :=
  match encodeBytes f s.val.toNat with
  | none => .next (s.raise .valueTooLarge 0)
  | some bs =>
    .next { s with
      sb := storeSB s.sb 0 bs, ph := .wrData, nreq := BitVec.ofNat 4 bs.length
      portOps := s.portOps ++ [.streamWrite bs] }

/-- R137, R130, R45: the output stream answers. -/
def onWriteAnswer (a : WriteAnswer) (s : State) : Result :=
  match s.ph with
  | .idle | .rdTag | .rdCont => .refused .answerUnrequested
  | .wrData =>
    let bs := s.staged s.nreq.toNat
    if a.fits s.nreq.toNat s.cfg.teW then
      match a with
      | .all => .next ({ s with outSent := s.outSent ++ bs }.complete 0 s.nreq.toNat)
      | .partOnly m e => .next ({ s with outSent := s.outSent ++ bs.take m }.raiseTransport m e)
    else .refused .answerMisfit

/-! ### A whole stream command as a function of its answers (R139) -/

/-- An answer of either stream. -/
inductive Answer where
  | read (a : ReadAnswer)
  | write (a : WriteAnswer)
  deriving DecidableEq, Repr

/-- R130: a stream answers. -/
def onAnswer (a : Answer) (s : State) : Result :=
  match a with
  | .read a => onReadAnswer a s
  | .write a => onWriteAnswer a s

/-- R139: the answers reach the block one after another, as long as it has a request outstanding. -/
def feed : List Answer → State → Result
  | [], s => .next s
  | a :: rest, s => if s.busy then andThen (onAnswer a s) (feed rest) else .next s

/-- What a source that holds exactly `bs` answers to a request for `n` bytes (R41). -/
def serve (bs : List Byte) (n : Nat) : ReadAnswer :=
  if n ≤ bs.length then .full (bs.take n) else .short bs .eoi

/-- The host connects a source that holds exactly `bs` and has RD.f read from it: issue, first answer and, when the tag
says more bytes follow, second answer (R139, R202, R213; log 15).  Dropped while BUSY (R17). -/
def readFrom (f : Family) (bs : List Byte) (s : State) : Result :=
  if s.busy then .next s else
  andThen (startRead { s with cmd := readCode f, inEnded := false }) fun s1 =>
  andThen (onReadAnswer (serve bs s1.nreq.toNat) s1) fun s2 =>
  if s2.busy then onReadAnswer (serve (bs.drop 1) s2.nreq.toNat) s2 else .next s2

end Sys2Proof.Machine
end

