-- ==== Sys2Proof/Machine/Medium.lean ====
section
/-! DEFINITION. The medium family: ENC.M, DEC.M, WR.M, RD.M (spec/42_medium.md) and its data formats (R52). -/

namespace Sys2Proof.Machine

/-- R110: ENC.M, CMD = 0x1. -/
def execEncM (s : State) : Result := startCommand 0x1 (encodeBuffer .medium) s

/-- R111: DEC.M, CMD = 0x9. -/
def execDecM (s : State) : Result := startCommand 0x9 (decodeBuffer .medium) s

/-- R112: WR.M, CMD = 0x5, issue step. -/
def execWrM (s : State) : Result := startCommand 0x5 (startWrite .medium) s

/-- R113: RD.M, CMD = 0xD, issue step. -/
def execRdM (s : State) : Result := startCommand 0xD startRead s

/-- R52: an item of format M.L1, read by RD.M from a source that delivers it (log 15). -/
def execML1 (v : BitVec 6) (s : State) : Result := readFrom .medium (pack .medium 0 v.toNat) s

/-- R52: an item of format M.L2, read by RD.M from a source that delivers it (log 15). -/
def execML2 (v : BitVec 14) (s : State) : Result := readFrom .medium (pack .medium 1 v.toNat) s

/-- R52: an item of format M.L3, read by RD.M from a source that delivers it (log 15). -/
def execML3 (v : BitVec 22) (s : State) : Result := readFrom .medium (pack .medium 2 v.toNat) s

/-- R52: an item of format M.L4, read by RD.M from a source that delivers it (log 15). -/
def execML4 (v : BitVec 30) (s : State) : Result := readFrom .medium (pack .medium 3 v.toNat) s

end Sys2Proof.Machine
end

