-- ==== Sys2Proof/Machine/Narrow.lean ====
section
/-! DEFINITION. The narrow family: ENC.N, DEC.N, WR.N, RD.N (spec/41_narrow.md) and its data formats (R51). -/

namespace Sys2Proof.Machine

/-- R100: ENC.N, CMD = 0x0. -/
def execEncN (s : State) : Result := startCommand 0x0 (encodeBuffer .narrow) s

/-- R101: DEC.N, CMD = 0x8. -/
def execDecN (s : State) : Result := startCommand 0x8 (decodeBuffer .narrow) s

/-- R102: WR.N, CMD = 0x4, issue step. -/
def execWrN (s : State) : Result := startCommand 0x4 (startWrite .narrow) s

/-- R103: RD.N, CMD = 0xC, issue step. -/
def execRdN (s : State) : Result := startCommand 0xC startRead s

/-- R51: an item of format N.L1, read by RD.N from a source that delivers it (log 15). -/
def execNL1 (v : BitVec 7) (s : State) : Result := readFrom .narrow (pack .narrow 0 v.toNat) s

/-- R51: an item of format N.L2, read by RD.N from a source that delivers it (log 15). -/
def execNL2 (v : BitVec 15) (s : State) : Result := readFrom .narrow (pack .narrow 1 v.toNat) s

end Sys2Proof.Machine
end

