-- ==== Sys2Proof/Machine/Reserved.lean ====
section
/-! DEFINITION. The four reserved command codes (R62): accepted and completed at once with IllegalCommand. -/

namespace Sys2Proof.Machine

/-- R62: CMD = 0x3. -/
def execReserved3 (s : State) : Result := startCommand 0x3 illegalCommand s

/-- R62: CMD = 0x7. -/
def execReserved7 (s : State) : Result := startCommand 0x7 illegalCommand s

/-- R62: CMD = 0xB. -/
def execReservedB (s : State) : Result := startCommand 0xB illegalCommand s

/-- R62: CMD = 0xF. -/
def execReservedF (s : State) : Result := startCommand 0xF illegalCommand s

end Sys2Proof.Machine
end

