-- ==== Sys2Proof/Machine/Wide.lean ====
section
/-! DEFINITION. The wide family: ENC.W, DEC.W, WR.W, RD.W (spec/43_wide.md) and its data formats (R53). -/

namespace Sys2Proof.Machine

/-- R120: ENC.W, CMD = 0x2. -/
def execEncW (s : State) : Result := startCommand 0x2 (encodeBuffer .wide) s

/-- R121: DEC.W, CMD = 0xA. -/
def execDecW (s : State) : Result := startCommand 0xA (decodeBuffer .wide) s

/-- R122: WR.W, CMD = 0x6, issue step. -/
def execWrW (s : State) : Result := startCommand 0x6 (startWrite .wide) s

/-- R123: RD.W, CMD = 0xE, issue step. -/
def execRdW (s : State) : Result := startCommand 0xE startRead s

/-- R53: an item of format W.L1, read by RD.W from a source that delivers it (log 15). -/
def execWL1 (v : BitVec 6) (s : State) : Result := readFrom .wide (pack .wide 0 v.toNat) s

/-- R53: an item of format W.L2, read by RD.W from a source that delivers it (log 15). -/
def execWL2 (v : BitVec 14) (s : State) : Result := readFrom .wide (pack .wide 1 v.toNat) s

/-- R53: an item of format W.L4, read by RD.W from a source that delivers it (log 15). -/
def execWL4 (v : BitVec 30) (s : State) : Result := readFrom .wide (pack .wide 2 v.toNat) s

/-- R53: an item of format W.L8, read by RD.W from a source that delivers it (log 15). -/
def execWL8 (v : BitVec 62) (s : State) : Result := readFrom .wide (pack .wide 3 v.toNat) s

end Sys2Proof.Machine
end

