-- ==== Sys2Proof/Machine/Dispatch.lean ====
section
/-! DEFINITION. One arm per instruction. -/

namespace Sys2Proof.Machine

/-- The meaning of an instruction in a state. -/
def exec (i : Instr) (s : State) : Host.Outcome State Fault Refusal :=
  match i with
  | .encN => Sys2Proof.Machine.execEncN s
  | .encM => Sys2Proof.Machine.execEncM s
  | .encW => Sys2Proof.Machine.execEncW s
  | .wrN => Sys2Proof.Machine.execWrN s
  | .wrM => Sys2Proof.Machine.execWrM s
  | .wrW => Sys2Proof.Machine.execWrW s
  | .decN => Sys2Proof.Machine.execDecN s
  | .decM => Sys2Proof.Machine.execDecM s
  | .decW => Sys2Proof.Machine.execDecW s
  | .rdN => Sys2Proof.Machine.execRdN s
  | .rdM => Sys2Proof.Machine.execRdM s
  | .rdW => Sys2Proof.Machine.execRdW s
  | .reserved3 => Sys2Proof.Machine.execReserved3 s
  | .reserved7 => Sys2Proof.Machine.execReserved7 s
  | .reservedB => Sys2Proof.Machine.execReservedB s
  | .reservedF => Sys2Proof.Machine.execReservedF s
  | .nL1 v => Sys2Proof.Machine.execNL1 v s
  | .nL2 v => Sys2Proof.Machine.execNL2 v s
  | .mL1 v => Sys2Proof.Machine.execML1 v s
  | .mL2 v => Sys2Proof.Machine.execML2 v s
  | .mL3 v => Sys2Proof.Machine.execML3 v s
  | .mL4 v => Sys2Proof.Machine.execML4 v s
  | .wL1 v => Sys2Proof.Machine.execWL1 v s
  | .wL2 v => Sys2Proof.Machine.execWL2 v s
  | .wL4 v => Sys2Proof.Machine.execWL4 v s
  | .wL8 v => Sys2Proof.Machine.execWL8 v s

end Sys2Proof.Machine
end

