-- ==== Sys2Proof/Machine/HostSide.lean ====
section
/-! DEFINITION. The agents' turns: the host and its script (R14, R64, R66), the two streams (R45), reset (R200). -/

namespace Sys2Proof.Machine

/-- What a turn comes to: an instruction to run in a state, or an outcome. -/
inductive Action where
  | run (i : Instr) (s : State)
  | done (o : Result)

/-! ### The host -/

/-- R66: the index of the line a label names. -/
def lineOf (script : List Line) (l : Nat) : Option Nat := script.findIdx? fun x => x.label == some l

/-- R64: the host makes these register writes in order, the last of which starts the command, and then waits until
STATUS.BUSY = 0. -/
def State.issueLine (s : State) (ops : List PendingOp) : State := { s with pend := ops, waiting := true }

/-- R66: go to a label's line. -/
def State.jump (s : State) (l : Nat) : Result :=
  match lineOf s.script l with
  | none => .refused .noSuchLabel
  | some n => .next { s with si := n }

/-- Go on with the line after this one. -/
def State.nextLine (s : State) : State := { s with si := s.si + 1 }

/-- R66: the tuple LOG appends. -/
def State.logEntry (s : State) : LogEntry := { rerr := s.rerr, rcnt := s.rcnt, rval := s.rval, rte := s.rte }

/-- R64, R66: the host begins the line at `si`.  A HALT line reached while BUSY = 1, which takes a raw CMD write before it,
waits until BUSY = 0, so that "at `HALT` PH = IDLE and no stream request is outstanding" (DESIGN CHOICE, log 25). -/
def issue (d : Directive) (s : State) : Result :=
  match d with
  | .enc f base len v =>
    .next (s.issueLine [.write (.base base), .write (.len len), .write (.val v), .command (encodeCode f)])
  | .encNext f v => .next (s.issueLine [.write (.val v), .command (encodeCode f)])
  | .dec f base len => .next (s.issueLine [.write (.base base), .write (.len len), .command (decodeCode f)])
  | .decNext f => .next (s.issueLine [.command (decodeCode f)])
  | .wr f v => .next (s.issueLine [.write (.val v), .command (writeCode f)])
  | .rd f => .next (s.issueLine [.command (readCode f)])
  | .adv =>
    .next { s.nextLine with
      pend := [.write (.base ((s.hostRead .base : Int) + s.hostRead .rcnt)),
               .write (.len ((s.hostRead .len : Int) - s.hostRead .rcnt))] }
  | .jok l => if s.hostRead .rerr = 0 then s.jump l else .next s.nextLine
  | .jerr l => if s.hostRead .rerr ≠ 0 then s.jump l else .next s.nextLine
  | .log => .next { s.nextLine with log := s.log ++ [s.logEntry] }
  | .halt => if s.busy then .next s else .fault .halted
  | .raw op => .next { s.nextLine with pend := [op] }
  | .store a b =>
    if a < 2 ^ s.cfg.addrW then
      if isOrdinary s.cfg a then .next { s.nextLine with mem := s.mem.write a b } else .refused .notOrdinaryMemory
    else .fault .noSuchAddress
  | .connectSource =>
    if s.ph = .rdTag ∨ s.ph = .rdCont then .refused .streamInUse
    else .next { s.nextLine with inEnded := false }

/-- The host makes one action.  A write to CMD runs the command the word names (R17, R60). -/
def perform (op : PendingOp) (s : State) : Action :=
  match op with
  | .command w => .run (decodeCmd w) s
  | .write w => .done (.next (s.hostWrite w))
  | .source f bs =>
    match decode (.data f) bs with
    | .ok (i, _) => .run i s
    | .error _ => .done (readFrom f bs s)

/-- R14, R64: the host's turn: the next action of the present line; else wait for STATUS.BUSY = 0, upon which `si` goes
up by one; else begin the line at `si`.  R14 raises `si` when the line's command completes; for a command that a reset
abandons, which never completes, the spec does not say what `si` does, and here the host sees BUSY = 0 and goes on to the
next line (DESIGN CHOICE, log 24). -/
def hostTurn (s : State) : Action :=
  match s.pend with
  | op :: rest => perform op { s with pend := rest }
  | [] =>
    if s.waiting then
      if s.busy then .done (.next s) else .done (.next { s.nextLine with waiting := false })
    else
      match s.script[s.si]? with
      | none => .done (.fault .hostSilent)
      | some x => .done (issue x.act s)

/-! ### The streams -/

/-- R45: the input stream's turn: its next answer, if it has one (R211). -/
def inStreamTurn (s : State) : Result :=
  match s.inTape with
  | [] => .fault .streamSilent
  | a :: rest => onReadAnswer a { s with inTape := rest }

/-- R45: the output stream's turn. -/
def outStreamTurn (s : State) : Result :=
  match s.outTape with
  | [] => .fault .streamSilent
  | a :: rest => onWriteAnswer a { s with outTape := rest }

/-! ### Whose turn it is -/

/-- With no turn listed: the host moves while the block is idle, the stream that owes an answer otherwise (log 10). -/
def defaultTurn (s : State) : Turn :=
  match s.ph with
  | .idle => .host
  | .rdTag => .inStream
  | .rdCont => .inStream
  | .wrData => .outStream

/-- One turn of one agent. -/
def agentTurn (t : Turn) (s : State) : Action :=
  match t with
  | .host => hostTurn s
  | .inStream => .done (inStreamTurn s)
  | .outStream => .done (outStreamTurn s)
  | .reset accepted drained => .done (.next (s.resetBlock accepted drained))

/-- The next turn. -/
def nextAction (s : State) : Action :=
  match s.turns with
  | [] => agentTurn (defaultTurn s) s
  | t :: ts => agentTurn t { s with turns := ts }

/-- The host action that brings a table word to the block: a command word written to CMD, or a source holding the item
(log 16). -/
def wordOp (nbits w : Nat) : PendingOp :=
  match tableContext nbits w with
  | some .command => .command (BitVec.ofNat 4 w)
  | some (.data f) => .source f (tableBytes nbits w)
  | none => .source .narrow (tableBytes nbits w)

end Sys2Proof.Machine
end

