-- ==== Sys2Proof/Machine/Step.lean ====
section
/-! DEFINITION. One step of the machine: one turn of one agent. -/

namespace Sys2Proof.Machine

/-- One step. -/
def step (s : State) : Host.Outcome State Fault Refusal :=
  match nextAction s with
  | .run i t => exec i t
  | .done o => o

/-- The state whose very next step runs the instruction of a table word: it is the host's turn, and its next action is
to bring that word to the block (log 17). -/
def State.withFetchWord (s : State) (nbits w : Nat) : State :=
  { s with turns := .host :: s.turns, pend := wordOp nbits w :: s.pend }

end Sys2Proof.Machine
end

