-- ==== Sys2Proof/Machine/Platform.lean ====
section
/-! DEFINITION. A platform: NINST block instances, at least one (R5), over one buffer memory (R190; log 2).

An instance at rest holds no memory of its own: the platform's memory is put into it for its step and taken out after. -/

namespace Sys2Proof.Machine

/-- The instances, each with its own registers, SB, PH, NREQ, host and streams, and the shared buffer memory. -/
structure Platform where
  mem : Memory
  insts : List State
  deriving DecidableEq, Repr

/-- R5, R190: the instances are one design, so their parameters are the same; an instance at rest holds no memory; and
`NINST ≥ 1`. -/
def Platform.wf (p : Platform) : Bool :=
  match p.insts with
  | [] => false
  | s :: ss => (s :: ss).all fun t => decide (t.cfg = s.cfg ∧ t.mem = [])

/-- What an action of a platform ends in. -/
abbrev PlatformResult := Host.Outcome Platform Fault Refusal

/-- R200, R190: `n` instances after reset; a platform when `n ≥ 1` (R5, `Platform.wf`). -/
def Platform.reset (c : Config) (n : Nat) : Platform := { mem := [], insts := List.replicate n (State.resetWith c) }

/-- Instance `k` acts on the shared memory; no other instance is touched. -/
def Platform.act (act : State → Result) (k : Nat) (p : Platform) : PlatformResult :=
  match p.insts[k]? with
  | none => .fault .noSuchInstance
  | some s =>
    match act { s with mem := p.mem } with
    | .next t => .next { mem := t.mem, insts := p.insts.set k { t with mem := [] } }
    | .fault r => .fault r
    | .refused r => .refused r

/-- Instance `k` takes a step. -/
def Platform.step (k : Nat) (p : Platform) : PlatformResult := p.act Machine.step k

/-- The host of instance `k` gives it an instruction. -/
def Platform.command (k : Nat) (i : Instr) (p : Platform) : PlatformResult := p.act (exec i) k

/-- Go on after an action that answers a next platform. -/
def Platform.andThen (o : PlatformResult) (k : Platform → PlatformResult) : PlatformResult :=
  match o with
  | .next p => k p
  | .fault r => .fault r
  | .refused r => .refused r

end Sys2Proof.Machine
end

