-- ==== Sys2Proof/Safety.lean ====
section
/-! DEFINITION. What holds of every state a run reaches, and what a finished run is. -/

namespace Sys2Proof.Machine

/-- R130, R131, R132, R136: what a phase says about CMD, NREQ and SB: a Read is in flight in RD_TAG and RD_CONT, a
Write of VAL in WR_DATA, NREQ is what the outstanding request asks for, and SB holds what the rest of the command needs
of it. -/
def State.phaseWf (s : State) : Prop :=
  match s.ph with
  | .idle => True
  | .rdTag => (∃ f, s.cmd = readCode f) ∧ s.nreq = 1
  | .rdCont => ∃ f, s.cmd = readCode f ∧ remainingOf f s.sb[0] ≠ 0 ∧ s.nreq = BitVec.ofNat 4 (remainingOf f s.sb[0])
  | .wrData =>
    ∃ f bs, s.cmd = writeCode f ∧ encodeBytes f s.val.toNat = some bs ∧
      s.nreq = BitVec.ofNat 4 bs.length ∧ s.staged bs.length = bs

/-- The invariant of the machine: the widths of R10, the legal values of R11, the canonical form of memory inside the
address space and in ordinary memory only (R40, R208), and the phase invariant. -/
structure State.Inv (s : State) : Prop where
  cfg_wf : s.cfg.wf = true
  base_lt : s.base < 2 ^ s.cfg.addrW
  len_lt : s.len < 2 ^ s.cfg.addrW
  rte_lt : s.rte < 2 ^ s.cfg.teW
  rval_lt : s.rval.toNat < BOUND .wide
  rcnt_le : s.rcnt.toNat ≤ 8
  rerr_le : s.rerr.toNat ≤ 7
  rte_zero : s.rerr ≠ ErrorKind.transport.code → s.rte = 0
  rval_zero : s.rerr ≠ 0 → s.rval = 0
  mem_wf : s.mem.wf = true
  mem_lt : ∀ c ∈ s.mem, c.1 < 2 ^ s.cfg.addrW
  mem_ordinary : ∀ c ∈ s.mem, isOrdinary s.cfg c.1 = true
  phase : s.phaseWf

/-- The invariant of a platform: it is well formed, with `NINST ≥ 1` (R5), and every instance meets the machine's invariant
with the shared memory put into it. -/
structure Platform.Inv (p : Platform) : Prop where
  wf : p.wf = true
  insts : ∀ s ∈ p.insts, { s with mem := p.mem }.Inv

/-- `n` steps, stopping at the first fault or refusal. -/
def steps : Nat → State → Result
  | 0, s => .next s
  | n + 1, s => andThen (step s) (steps n)

/-- R139: a command given to the block, and the streams' answers to its requests. -/
def transact (i : Instr) (answers : List Answer) (s : State) : Result := andThen (exec i s) (feed answers)

/-- ENC.f, DEC.f, WR.f, RD.f as instructions (R61). -/
def encInstr : Family → Instr
  | .narrow => .encN
  | .medium => .encM
  | .wide => .encW

@[inherit_doc encInstr] def decInstr : Family → Instr
  | .narrow => .decN
  | .medium => .decM
  | .wide => .decW

@[inherit_doc encInstr] def wrInstr : Family → Instr
  | .narrow => .wrN
  | .medium => .wrM
  | .wide => .wrW

@[inherit_doc encInstr] def rdInstr : Family → Instr
  | .narrow => .rdN
  | .medium => .rdM
  | .wide => .rdW

/-- R66, D33: an end state has no stream request outstanding. -/
def State.quiet (s : State) : Prop := s.ph = .idle

end Sys2Proof.Machine
end

