-- ==== Sys2Proof/Certificates/Slice0/Obligations.lean ====
section
/-! DEFINITION. The statements.  Each docstring names the rule of spec/ it formalises. -/

namespace Sys2Proof.Claims

open Sys2Proof Sys2Proof.Machine

/-! ### The rules' own byte and value expressions -/

/-- R100, R102: the bytes of a narrow value, as the rule writes them; `none` is ValueTooLarge. -/
def narrowBytes (v : Value) : Option (List Byte) :=
  if 0x8000 ≤ v.toNat then none
  else if v.toNat < 0x80 then some [(v.extractLsb' 0 7).setWidth 8]
  else some [0x80 ||| (v.extractLsb' 8 7).setWidth 8, v.extractLsb' 0 8]

/-- R110, R112: the bytes of a medium value. -/
def mediumBytes (v : Value) : Option (List Byte) :=
  if v.toNat < 0x40 then some [0x00 ||| (v.extractLsb' 0 6).setWidth 8]
  else if v.toNat < 0x4000 then some [0x40 ||| (v.extractLsb' 8 6).setWidth 8, v.extractLsb' 0 8]
  else if v.toNat < 0x400000 then
    some [0x80 ||| (v.extractLsb' 16 6).setWidth 8, v.extractLsb' 8 8, v.extractLsb' 0 8]
  else if v.toNat < 0x40000000 then
    some [0xC0 ||| (v.extractLsb' 24 6).setWidth 8, v.extractLsb' 16 8, v.extractLsb' 8 8, v.extractLsb' 0 8]
  else none

/-- R120, R122: the bytes of a wide value. -/
def wideBytes (v : Value) : Option (List Byte) :=
  if v.toNat < 0x40 then some [0x00 ||| (v.extractLsb' 0 6).setWidth 8]
  else if v.toNat < 0x4000 then some [0x40 ||| (v.extractLsb' 8 6).setWidth 8, v.extractLsb' 0 8]
  else if v.toNat < 0x40000000 then
    some [0x80 ||| (v.extractLsb' 24 6).setWidth 8, v.extractLsb' 16 8, v.extractLsb' 8 8, v.extractLsb' 0 8]
  else if v.toNat < 0x4000000000000000 then
    some [0xC0 ||| (v.extractLsb' 56 6).setWidth 8, v.extractLsb' 48 8, v.extractLsb' 40 8, v.extractLsb' 32 8,
      v.extractLsb' 24 8, v.extractLsb' 16 8, v.extractLsb' 8 8, v.extractLsb' 0 8]
  else none

/-- R100, R110, R120: what Encode does once its bytes are known: the value test first, then the buffer test, then the
write. -/
def encodeOutcome (bytes : Option (List Byte)) (s : State) : State :=
  match bytes with
  | none => s.raise .valueTooLarge 0
  | some bs =>
    if s.len < bs.length then s.raise .bufferTooSmall 0
    else (s.memWrite s.base bs).complete 0 bs.length

/-- R102, R112, R122: the state after a Write's issue step. -/
def writeOutcome (bytes : Option (List Byte)) (s : State) : State :=
  match bytes with
  | none => s.raise .valueTooLarge 0
  | some bs =>
    { s with
      sb := storeSB s.sb 0 bs, ph := .wrData, nreq := BitVec.ofNat 4 bs.length
      portOps := s.portOps ++ [.streamWrite bs] }

/-- R137: what each answer of the output stream leads to, while `bs` is on offer. -/
def writeAnswered (bytes : Option (List Byte)) (s1 : State) : Prop :=
  ∀ bs, bytes = some bs →
    onWriteAnswer .all s1 = .next ({ s1 with outSent := s1.outSent ++ bs }.complete 0 bs.length) ∧
    ∀ m e, m < bs.length → e < 2 ^ s1.cfg.teW →
      onWriteAnswer (.partOnly m e) s1 =
        .next ({ s1 with outSent := s1.outSent ++ bs.take m }.raiseTransport m e)

/-- R131: the state after a Read's issue step. -/
def readIssued (w : BitVec 4) (s : State) : State :=
  { s with cmd := w, ph := .rdTag, nreq := 1, portOps := s.portOps ++ [.streamRead 1] }

/-- R132: `SB[0] <- b0`, and b0 has left the stream. -/
def tagTaken (s1 : State) (b0 : Byte) : State :=
  { s1 with sb := storeSB s1.sb 0 [b0], inTaken := s1.inTaken ++ [b0] }

/-- R132: the second request, for `r` bytes, is issued. -/
def contIssued (s1 : State) (b0 : Byte) (r : Nat) : State :=
  { tagTaken s1 b0 with ph := .rdCont, nreq := BitVec.ofNat 4 r, portOps := s1.portOps ++ [.streamRead r] }

/-- R133: `SB[1..r] <- bs`, and they have left the stream. -/
def contTaken (s2 : State) (bs : List Byte) : State :=
  { s2 with sb := storeSB s2.sb 1 bs, inTaken := s2.inTaken ++ bs }

/-- R132: the failing answers to the first request. -/
def firstFailures (s1 : State) : Prop :=
  onReadAnswer (.short [] .eoi) s1 = .next ({ s1 with inEnded := true }.raise .streamEmpty 0) ∧
  ∀ e, e < 2 ^ s1.cfg.teW → onReadAnswer (.short [] (.err e)) s1 = .next (s1.raiseTransport 0 e)

/-- R133: the failing answers to the second request, for `r` bytes. -/
def contFailures (s2 : State) (r : Nat) : Prop :=
  ∀ bs : List Byte, bs.length < r →
    onReadAnswer (.short bs .eoi) s2 =
      .next ({ s2 with inTaken := s2.inTaken ++ bs, inEnded := true }.raise .invalidEncoding (1 + bs.length)) ∧
    ∀ e, e < 2 ^ s2.cfg.teW → onReadAnswer (.short bs (.err e)) s2 =
      .next ({ s2 with inTaken := s2.inTaken ++ bs }.raiseTransport (1 + bs.length) e)

/-- R103, R113, R123, for a tag byte that says `r > 0` bytes follow: the second request is issued, its failing answers
end the command, and a full answer `bs` completes it with `value bs` and `r + 1` bytes. -/
def continued (s1 : State) (b0 : Byte) (r : Nat) (value : List Byte → Nat) : Prop :=
  onReadAnswer (.full [b0]) s1 = .next (contIssued s1 b0 r) ∧
  contFailures (contIssued s1 b0 r) r ∧
  ∀ bs : List Byte, bs.length = r →
    onReadAnswer (.full bs) (contIssued s1 b0 r) =
      .next ((contTaken (contIssued s1 b0 r) bs).complete (value bs) (r + 1))

/-- `head ++ bs[0] ++ bs[1] ++ ...` as a number, bytes most significant first (R111, R121). -/
def concatBytes : Nat → List Byte → Nat
  | head, [] => head
  | head, b :: bs => concatBytes (head * 256 + b.toNat) bs

/-- The state after an item `b0 :: rest` with value `v` has been read by the Read with command word `w`. -/
def itemRead (w : BitVec 4) (b0 : Byte) (rest : List Byte) (v : Value) (s : State) : State :=
  { s with
    cmd := w, inEnded := false, inTaken := s.inTaken ++ b0 :: rest
    sb := storeSB (storeSB s.sb 0 [b0]) 1 rest
    nreq := if rest = [] then 1 else BitVec.ofNat 4 rest.length
    portOps := s.portOps ++ (.streamRead 1 :: if rest = [] then [] else [.streamRead rest.length])
    rval := v, rcnt := BitVec.ofNat 4 (rest.length + 1), rerr := 0, rte := 0 }

/-- R208: the host's duty on the buffer: it does not run past the address space, and every address of it is backed by
ordinary memory. -/
abbrev goodBuffer (s : State) : Prop :=
  s.base + s.len ≤ 2 ^ s.cfg.addrW ∧ ∀ i < s.len, isOrdinary s.cfg (s.base + i) = true

/-- Two states show a host the same results (R18). -/
def sameResults (s t : State) : Prop := t.rval = s.rval ∧ t.rcnt = s.rcnt ∧ t.rerr = s.rerr ∧ t.rte = s.rte

/-- Two states agree on what R19 says a command's result is a function of. -/
def sameOperands (s t : State) : Prop :=
  t.cfg = s.cfg ∧ t.val = s.val ∧ t.base = s.base ∧ t.len = s.len ∧ t.inEnded = s.inEnded ∧
  ∀ i < s.len, t.mem.byteAt (s.base + i) = s.mem.byteAt (s.base + i)

/-- The port operations `t` has made beyond those of `s` are all of this kind (R16). -/
def onlyOps (p : PortOp → Prop) (s t : State) : Prop := ∃ ops, t.portOps = s.portOps ++ ops ∧ ∀ o ∈ ops, p o

end Sys2Proof.Claims

open Sys2Proof Sys2Proof.Machine Sys2Proof.Claims

/-! ### Reset, steps, agents -/

/-- R20, R200: after reset, and after a reset turn in any state, the nine registers are 0 and PH is IDLE; the reset turn
leaves buffer memory, the host and the parameters alone, starts no command and gives no byte back; of a Write in flight
some first bytes may have been accepted, and a Read in flight may still have consumed up to what it asked for, but nothing
from a stream that has ended (U13, R41).  The model's choices here: the form of those bytes is log 18, that the records
portOps and log stay is log 23, and that the host's line stays as it is, is log 24. -/
def Obligations.ResetPutsTheSpecsValues : Prop :=
  (∀ c : Config, ∀ r : Reg, r ≠ .status → (State.resetWith c).hostRead r = 0) ∧
  (∀ c : Config, (State.resetWith c).status = 0 ∧ (State.resetWith c).ph = .idle) ∧
  ∀ (s : State) (n : Nat) (bs : List Byte) (ts : List Turn), s.turns = .reset n bs :: ts →
    ∃ t, step s = .next t ∧ (∀ r : Reg, t.hostRead r = 0) ∧ t.ph = .idle ∧ t.mem = s.mem ∧
      t.portOps = s.portOps ∧ t.cfg = s.cfg ∧
      t.script = s.script ∧ t.si = s.si ∧ t.pend = s.pend ∧ t.waiting = s.waiting ∧ t.log = s.log ∧
      (s.ph ≠ .wrData → t.outSent = s.outSent) ∧
      (s.ph = .wrData → t.outSent = s.outSent ++ (s.staged s.nreq.toNat).take n) ∧
      (s.ph = .idle ∨ s.ph = .wrData → t.inTaken = s.inTaken) ∧
      (s.ph = .rdTag ∨ s.ph = .rdCont →
        t.inTaken = s.inTaken ++ if s.inEnded then [] else bs.take s.nreq.toNat)

/-- A step runs the decoded instruction: on the host's turn, whether listed or by default, a word written to CMD runs
the command it decodes to, and a source holding an item runs the item it decodes to, in the state with that host action
done.  That the host moves by default while the block is idle is log 10, that a source's item runs is log 15: the model's
choices. -/
def Obligations.StepRunsTheDecodedInstruction : Prop :=
  (∀ (s : State) (ts : List Turn) (w : BitVec 4) (rest : List PendingOp),
    s.turns = .host :: ts → s.pend = .command w :: rest →
      ∃ i r, decode .command [w.setWidth 8] = .ok (i, r) ∧
        step s = exec i { s with turns := ts, pend := rest }) ∧
  (∀ (s : State) (w : BitVec 4) (rest : List PendingOp),
    s.turns = [] → s.ph = .idle → s.pend = .command w :: rest →
      step s = exec (decodeCmd w) { s with pend := rest }) ∧
  (∀ (s : State) (ts : List Turn) (f : Family) (bs r : List Byte) (i : Instr) (rest : List PendingOp),
    s.turns = .host :: ts → s.pend = .source f bs :: rest → decode (.data f) bs = .ok (i, r) →
      step s = exec i { s with turns := ts, pend := rest })

/-- R45: on a stream's turn, whether listed or by default while the block waits for it, the step is the block's reaction
to that stream's next answer.  The default turn is the model's choice, log 10. -/
def Obligations.StepGivesTheStreamsAnswers : Prop :=
  (∀ (s : State) (a : ReadAnswer) (rest : List ReadAnswer),
    s.turns = [] → (s.ph = .rdTag ∨ s.ph = .rdCont) → s.inTape = a :: rest →
      step s = onReadAnswer a { s with inTape := rest }) ∧
  (∀ (s : State) (a : WriteAnswer) (rest : List WriteAnswer),
    s.turns = [] → s.ph = .wrData → s.outTape = a :: rest →
      step s = onWriteAnswer a { s with outTape := rest }) ∧
  (∀ (s : State) (ts : List Turn) (a : ReadAnswer) (rest : List ReadAnswer),
    s.turns = .inStream :: ts → s.inTape = a :: rest →
      step s = onReadAnswer a { s with turns := ts, inTape := rest }) ∧
  (∀ (s : State) (ts : List Turn) (a : WriteAnswer) (rest : List WriteAnswer),
    s.turns = .outStream :: ts → s.outTape = a :: rest →
      step s = onWriteAnswer a { s with turns := ts, outTape := rest })

/-- R211: a busy block whose stream has no answer is stuck (that the stream moves by default is log 10, that a silent
stream is a fault log 11); while the awaited stream has no answer to come, no step but reset changes the phase or a register,
and no step brings an answer; and whatever the host does on its turns while the block is busy, the phase and the registers
stay as they are. -/
def Obligations.SilentStreamHangsTheBlock : Prop :=
  (∀ s : State, s.turns = [] → ((s.ph = .rdTag ∨ s.ph = .rdCont) ∧ s.inTape = [] ∨ s.ph = .wrData ∧ s.outTape = []) →
    step s = .fault .streamSilent) ∧
  (∀ s t : State, ((s.ph = .rdTag ∨ s.ph = .rdCont) ∧ s.inTape = [] ∨ s.ph = .wrData ∧ s.outTape = []) →
    step s = .next t →
    (∃ n bs ts, s.turns = .reset n bs :: ts) ∨
    (t.ph = s.ph ∧ (∀ r : Reg, t.hostRead r = s.hostRead r) ∧ t.inTape = s.inTape ∧ t.outTape = s.outTape)) ∧
  ∀ (s t : State) (ts : List Turn), s.busy = true → s.turns = .host :: ts → step s = .next t →
    t.ph = s.ph ∧ ∀ r : Reg, t.hostRead r = s.hostRead r

/-- The invariant of Safety.lean holds right after reset, for every legal choice of parameters, and so does that of a
platform of `NINST ≥ 1` instances (R5). -/
def Obligations.ResetMeetsTheInvariant : Prop :=
  ∀ c : Config, c.wf = true →
    (State.resetWith c).Inv ∧ ∀ n : Nat, 1 ≤ n → (Platform.reset c n).Inv ∧ (Platform.reset c n).insts.length = n

/-- Every step keeps the invariant: register widths, legal values, canonical memory, and what each phase says about CMD,
NREQ and SB; and a step of any instance keeps that of the platform, with its number of instances. -/
def Obligations.EveryStepKeepsTheInvariant : Prop :=
  (∀ s t : State, s.Inv → step s = .next t → t.Inv) ∧
  ∀ (p q : Platform) (k : Nat), p.Inv → p.step k = .next q → q.Inv ∧ q.insts.length = p.insts.length

/-- R130: what each row of the phase table does to PH, and that no step changes PH in another way.  R10, R15: STATUS reads
BUSY = (PH ≠ IDLE), so 1 after the issue step of a Read and of a Write whose value fits. -/
def Obligations.PhaseChangesAreThoseOfTheTable : Prop :=
  (∀ (f : Family) (s : State), s.ph = .idle →
    (∀ i, i = encInstr f ∨ i = decInstr f → ∀ t, exec i s = .next t → t.ph = .idle) ∧
    (∃ t, exec (rdInstr f) s = .next t ∧ t.ph = .rdTag ∧ t.hostRead .status = 1) ∧
    (∃ t, exec (wrInstr f) s = .next t ∧
      ((classOf f s.val.toNat = none ∧ t.ph = .idle ∧ t.hostRead .status = 0) ∨
       (classOf f s.val.toNat ≠ none ∧ t.ph = .wrData ∧ t.hostRead .status = 1)))) ∧
  (∀ s : State, s.hostRead .status = if s.ph = .idle then 0 else 1) ∧
  (∀ (s : State), s.ph = .idle → ∀ i, i = .reserved3 ∨ i = .reserved7 ∨ i = .reservedB ∨ i = .reservedF →
    ∃ t, exec i s = .next t ∧ t.ph = .idle) ∧
  (∀ (s t : State) (a : ReadAnswer) (f : Family), familyOf s.cmd = some f → onReadAnswer a s = .next t →
    (s.ph = .rdTag → ∀ b0 bs, a = .full (b0 :: bs) →
      (remainingOf f b0 = 0 → t.ph = .idle) ∧ (remainingOf f b0 ≠ 0 → t.ph = .rdCont)) ∧
    (s.ph = .rdTag → ∀ bs why, a = .short bs why → t.ph = .idle) ∧
    (s.ph = .rdCont → t.ph = .idle)) ∧
  (∀ (s t : State) (a : WriteAnswer), onWriteAnswer a s = .next t → s.ph = .wrData ∧ t.ph = .idle) ∧
  (∀ (s : State) (w : RegWrite), s.busy = true → s.hostWrite w = s) ∧
  (∀ (s : State) (w : BitVec 4), s.busy = true → exec (decodeCmd w) s = .next s) ∧
  (∀ s t : State, step s = .next t → t.ph ≠ s.ph →
    (s.ph = .idle ∧ t.ph = .rdTag) ∨ (s.ph = .idle ∧ t.ph = .wrData) ∨
    (s.ph = .rdTag ∧ t.ph = .rdCont) ∨ (s.ph = .rdTag ∧ t.ph = .idle) ∨
    (s.ph = .rdCont ∧ t.ph = .idle) ∨ (s.ph = .wrData ∧ t.ph = .idle))

/-! ### Host access -/

/-- R17: what a host write does while BUSY = 0 and while BUSY = 1; R11: what a host read then gives.  The model's choices
here: that a data row is dropped while BUSY is log 15, and that a number BASE or LEN cannot hold leaves some value of the
register's width in it and nothing else is log 13. -/
def Obligations.HostWritesFollowBusy : Prop :=
  (∀ (s : State) (w : RegWrite), s.busy = true → s.hostWrite w = s) ∧
  (∀ (s : State) (i : Instr), s.busy = true → exec i s = .next s) ∧
  (∀ s : State, s.busy = false →
    (∀ v, s.hostWrite (.val v) = { s with val := v } ∧ (s.hostWrite (.val v)).hostRead .val = v.toNat) ∧
    (∀ a : Nat, a < 2 ^ s.cfg.addrW →
      s.hostWrite (.base a) = { s with base := a } ∧ (s.hostWrite (.base a)).hostRead .base = a) ∧
    (∀ n : Nat, n < 2 ^ s.cfg.addrW →
      s.hostWrite (.len n) = { s with len := n } ∧ (s.hostWrite (.len n)).hostRead .len = n) ∧
    (∀ v : Int, ∃ b c, b < 2 ^ s.cfg.addrW ∧
      s.hostWrite (.base v) = { s with base := b, freeCtr := c } ∧
      s.hostWrite (.len v) = { s with len := b, freeCtr := c }) ∧
    (∀ (r : ReadOnlyReg) (v : Nat), s.hostWrite (.readOnly r v) = s) ∧
    (∀ (i : Instr) (w : BitVec 4) (t : State), cmdWord i = some w → exec i s = .next t →
      t.cmd = w ∧ t.hostRead .cmd = w.toNat)) ∧
  ∀ s : State, s.hostRead .rval = s.rval.toNat ∧ s.hostRead .rcnt = s.rcnt.toNat ∧ s.hostRead .rerr = s.rerr.toNat ∧
    s.hostRead .rte = s.rte

/-- R18: the results change together at the step in which a command completes and at no other; the block never writes
VAL, BASE, LEN, and its answers never write CMD. -/
def Obligations.ResultsAreWrittenAtCompletionOnly : Prop :=
  (∀ (i : Instr) (s t : State), exec i s = .next t →
    (t.busy = true → sameResults s t) ∧ t.val = s.val ∧ t.base = s.base ∧ t.len = s.len) ∧
  (∀ (a : Answer) (s t : State), onAnswer a s = .next t →
    (t.busy = true → sameResults s t) ∧ t.cmd = s.cmd ∧ t.val = s.val ∧ t.base = s.base ∧ t.len = s.len) ∧
  (∀ (s t : State) (ts : List Turn), s.busy = true → s.turns = .host :: ts → step s = .next t → sameResults s t)

/-- R64: a script line stands for its register writes in order, the last of which starts the command; then the host
waits until BUSY = 0 and goes on with the next line.  The model's choices here: one step per write is log 12, the host's
default turn is log 10. -/
def Obligations.ScriptLinesStandForTheirWrites : Prop :=
  (∀ (s : State) (x : Line), s.turns = [] → s.ph = .idle → s.pend = [] → s.waiting = false → s.script[s.si]? = some x →
    (∀ f b l v, x.act = .enc f b l v → b < 2 ^ s.cfg.addrW → l < 2 ^ s.cfg.addrW →
      steps 5 s = exec (encInstr f) { s with base := b, len := l, val := v, waiting := true }) ∧
    (∀ f b l, x.act = .dec f b l → b < 2 ^ s.cfg.addrW → l < 2 ^ s.cfg.addrW →
      steps 4 s = exec (decInstr f) { s with base := b, len := l, waiting := true }) ∧
    (∀ f v, x.act = .wr f v → steps 3 s = exec (wrInstr f) { s with val := v, waiting := true }) ∧
    (∀ f, x.act = .rd f → steps 2 s = exec (rdInstr f) { s with waiting := true })) ∧
  (∀ u : State, u.turns = [] → u.ph = .idle → u.pend = [] → u.waiting = true →
    step u = .next { u with si := u.si + 1, waiting := false }) ∧
  ∀ (u : State) (ts : List Turn), u.turns = .host :: ts → u.pend = [] → u.waiting = true →
    step u = .next (if u.busy then { u with turns := ts } else { u with turns := ts, si := u.si + 1, waiting := false })

/-- R66: the script directives, on the host's turn in an idle block with no line in progress.  The model's choices here:
the step counts are log 12, the host's default turn log 10, that a label means the first line it names log 14, that HALT
is a fault log 11, and what an ADV leaves that runs past a register's range log 13. -/
def Obligations.ScriptDirectivesAct : Prop :=
  ∀ (s : State) (x : Line), s.turns = [] → s.ph = .idle → s.pend = [] → s.waiting = false → s.script[s.si]? = some x →
    (x.act = .adv → s.base + s.rcnt.toNat < 2 ^ s.cfg.addrW → s.rcnt.toNat ≤ s.len → s.len < 2 ^ s.cfg.addrW →
      steps 3 s = .next { s with base := s.base + s.rcnt.toNat, len := s.len - s.rcnt.toNat, si := s.si + 1 }) ∧
    (x.act = .adv → ∃ b n c, b < 2 ^ s.cfg.addrW ∧ n < 2 ^ s.cfg.addrW ∧
      steps 3 s = .next { s with base := b, len := n, freeCtr := c, si := s.si + 1 }) ∧
    (∀ f v, x.act = .encNext f v → steps 3 s = exec (encInstr f) { s with val := v, waiting := true }) ∧
    (∀ f, x.act = .decNext f → steps 2 s = exec (decInstr f) { s with waiting := true }) ∧
    (∀ l n, lineOf s.script l = some n →
      (x.act = .jok l → step s = .next { s with si := if s.rerr = 0 then n else s.si + 1 }) ∧
      (x.act = .jerr l → step s = .next { s with si := if s.rerr ≠ 0 then n else s.si + 1 })) ∧
    (x.act = .log → step s = .next { s with
      log := s.log ++ [{ rerr := s.rerr, rcnt := s.rcnt, rval := s.rval, rte := s.rte }], si := s.si + 1 }) ∧
    (x.act = .halt → step s = .fault .halted)

/-! ### Memory -/

/-- R31, R32: a `MemRead` of what a `MemWrite` stored gives it back, every other byte is as before, and the canonical
form is kept. -/
def Obligations.MemWriteChangesItsBytesOnly : Prop :=
  ∀ (m : Memory) (a : Nat) (bs : List Byte),
    (m.writeBytes a bs).readBytes a bs.length = bs ∧
    (∀ c, ¬ (a ≤ c ∧ c < a + bs.length) → (m.writeBytes a bs).byteAt c = m.byteAt c) ∧
    (m.wf = true → (m.writeBytes a bs).wf = true)

/-- R33, U5: an Encode or Decode whose buffer runs past the address space is refused; R208, U12: so is one with a buffer
address not backed by ordinary memory.  The order of the two tests is the model's choice, log 8. -/
def Obligations.WrappingBufferIsRefused : Prop :=
  ∀ (f : Family) (s : State), s.busy = false →
    (2 ^ s.cfg.addrW < s.base + s.len →
      exec (encInstr f) s = .refused .bufferWraps ∧ exec (decInstr f) s = .refused .bufferWraps) ∧
    (s.base + s.len ≤ 2 ^ s.cfg.addrW → (∃ i < s.len, isOrdinary s.cfg (s.base + i) = false) →
      exec (encInstr f) s = .refused .notOrdinaryMemory ∧ exec (decInstr f) s = .refused .notOrdinaryMemory)

/-- R45: every answer of the shape R41 and R43 give is taken, every other is refused, and so is an answer no request
waits for. -/
def Obligations.AnswersInShapeAreTakenOthersRefused : Prop :=
  (∀ (s : State) (a : ReadAnswer), s.Inv → (s.ph = .rdTag ∨ s.ph = .rdCont) →
    (a.fits s.nreq.toNat s.cfg.teW = true → s.inEnded = false ∨ a.bytes = [] → ∃ t, onReadAnswer a s = .next t) ∧
    (a.fits s.nreq.toNat s.cfg.teW = false → onReadAnswer a s = .refused .answerMisfit) ∧
    (s.inEnded = true → a.bytes ≠ [] → onReadAnswer a s = .refused .answerMisfit)) ∧
  (∀ (s : State) (a : WriteAnswer), s.ph = .wrData →
    (a.fits s.nreq.toNat s.cfg.teW = true → ∃ t, onWriteAnswer a s = .next t) ∧
    (a.fits s.nreq.toNat s.cfg.teW = false → onWriteAnswer a s = .refused .answerMisfit)) ∧
  (∀ (s : State) (a : ReadAnswer), s.ph = .idle ∨ s.ph = .wrData → onReadAnswer a s = .refused .answerUnrequested) ∧
  (∀ (s : State) (a : WriteAnswer), s.ph ≠ .wrData → onWriteAnswer a s = .refused .answerUnrequested)

/-! ### Encoding -/

/-- Words written out from the tables of R61, R62, R51 to R53, and what they decode to. -/
def Obligations.WrittenOutWordsDecode : Prop :=
  decode .command [0b00000010] = .ok (.encW, []) ∧
  decode .command [0b00001001] = .ok (.decM, []) ∧
  decode .command [0b00000100] = .ok (.wrN, []) ∧
  decode .command [0b00001110] = .ok (.rdW, []) ∧
  decode .command [0b00001011] = .ok (.reservedB, []) ∧
  decode .command [0b00010000] = .error .notACommandWord ∧
  decode (.data .narrow) [0b10010010, 0b00110100] = .ok (.nL2 0x1234, []) ∧
  decode (.data .medium) [0b10000001, 0b00100011, 0b01000101] = .ok (.mL3 0x12345, []) ∧
  decode (.data .wide) [0b10000000, 0, 0b01000000, 0, 0b11111111] = .ok (.wL4 0x4000, [0b11111111]) ∧
  decode (.data .wide) [0b11000000] = .error .truncated

/-- R60, R61, R62: each of the sixteen command words decodes to a command whose word it is, and the word's DIR, MED and
FAM fields say which operation of which family. -/
def Obligations.CommandWordFieldsNameTheCommand : Prop :=
  (∀ w : BitVec 4, cmdWord (decodeCmd w) = some w) ∧
  (∀ (w : BitVec 4) (f : Family),
    w.extractLsb' 0 2 = (match f with | .narrow => 0 | .medium => 1 | .wide => 2) →
    decodeCmd w =
      match w.getLsbD 3, w.getLsbD 2 with
      | false, false => encInstr f
      | false, true => wrInstr f
      | true, false => decInstr f
      | true, true => rdInstr f) ∧
  (∀ w : BitVec 4, w.extractLsb' 0 2 = 3 →
    decodeCmd w =
      match w.getLsbD 3, w.getLsbD 2 with
      | false, false => .reserved3
      | false, true => .reserved7
      | true, false => .reservedB
      | true, true => .reservedF)

/-- Decoding the encoding of any instruction, whatever bytes follow it, gives that instruction and those bytes. -/
def Obligations.DecodeOfEncodeIsTheInstruction : Prop :=
  ∀ (i : Instr) (rest : List Byte), decode i.context (encode i ++ rest) = .ok (i, rest)

/-- Whatever decodes is the encoding of what it decodes to: no bit of a word is ignored. -/
def Obligations.EncodeOfDecodeIsTheBytes : Prop :=
  ∀ (c : Context) (bs rest : List Byte) (i : Instr),
    decode c bs = .ok (i, rest) → i.context = c ∧ encode i ++ rest = bs

/-- R57, R158: no data pattern is illegal; bytes are refused only when there are too few of them. -/
def Obligations.DataIsRefusedOnlyWhenBytesAreMissing : Prop :=
  ∀ (f : Family) (bs : List Byte),
    ((∃ i rest, decode (.data f) bs = .ok (i, rest)) ↔ ∃ b0 tl, bs = b0 :: tl ∧ lengthOf f b0 ≤ bs.length) ∧
    ((∃ v L, decodeBytes f bs = .value v L) ↔ ∃ b0 tl, bs = b0 :: tl ∧ lengthOf f b0 ≤ bs.length)

/-- R54: the complete map from the first byte to the tag, the length and the number of bytes that follow. -/
def Obligations.FirstByteDeclaresTheLength : Prop :=
  ∀ b0 : Byte,
    tagOf .narrow b0 = (if b0.toNat ≤ 0x7F then 0 else 1) ∧
    (∀ f, f = .medium ∨ f = .wide → tagOf f b0 =
      (if b0.toNat ≤ 0x3F then 0 else if b0.toNat ≤ 0x7F then 1 else if b0.toNat ≤ 0xBF then 2 else 3)) ∧
    lengthOf .narrow b0 = (if b0.toNat ≤ 0x7F then 1 else 2) ∧
    lengthOf .medium b0 =
      (if b0.toNat ≤ 0x3F then 1 else if b0.toNat ≤ 0x7F then 2 else if b0.toNat ≤ 0xBF then 3 else 4) ∧
    lengthOf .wide b0 =
      (if b0.toNat ≤ 0x3F then 1 else if b0.toNat ≤ 0x7F then 2 else if b0.toNat ≤ 0xBF then 4 else 8) ∧
    ∀ f, remainingOf f b0 + 1 = lengthOf f b0

/-! ### The datapath -/

/-- R86: class selection is the threshold chain of each family. -/
def Obligations.ClassSelectionIsTheThresholdChain : Prop :=
  ∀ v : Nat,
    classOf .narrow v = (if v < 0x80 then some 0 else if v < 0x8000 then some 1 else none) ∧
    classOf .medium v =
      (if v < 0x40 then some 0 else if v < 0x4000 then some 1 else if v < 0x400000 then some 2
       else if v < 0x40000000 then some 3 else none) ∧
    classOf .wide v =
      (if v < 0x40 then some 0 else if v < 0x4000 then some 1 else if v < 0x40000000 then some 2
       else if v < 0x4000000000000000 then some 3 else none)

/-- R85, R83: class selection picks the smallest tag that holds the value, and none exactly from the bound on. -/
def Obligations.ClassSelectionIsTheSmallestThatFits : Prop :=
  ∀ (f : Family) (v : Nat),
    (∀ t, classOf f v = some t ↔ t < 2 ^ K f ∧ v < 2 ^ PBITS f t ∧ ∀ u, u < t → 2 ^ PBITS f u ≤ v) ∧
    (classOf f v = none ↔ BOUND f ≤ v)

/-- R50, R87: a packed value has `LEN` bytes, byte `i` is bits `8(L-i)-1` down to `8(L-1-i)` of the word
`(t << (8L-k)) | v`, whose top `k` bits are the tag and whose low `8L-k` bits are the value. -/
def Obligations.PackLaysOutTagAndPayload : Prop :=
  ∀ (f : Family) (t v : Nat), t < 2 ^ K f → v < 2 ^ PBITS f t →
    let L := LEN f t
    let W := (t <<< (8 * L - K f)) ||| v
    (pack f t v).length = L ∧
    (∀ i (h : i < (pack f t v).length), ((pack f t v)[i]).toNat = (W / 2 ^ (8 * (L - 1 - i))) % 256) ∧
    W / 2 ^ (8 * L - K f) = t ∧ W % 2 ^ (8 * L - K f) = v

/-- R88: unpacking a whole encoding drops the top `k` bits of the first byte and concatenates the rest big-endian; the
value is below `2^PBITS` of its tag, so below the family's bound; unpacking a packed value gives it back, with its tag
in the first byte. -/
def Obligations.UnpackDropsTheTagAndInvertsPack : Prop :=
  (∀ (f : Family) (b0 : Byte) (bs : List Byte), bs.length + 1 = lengthOf f b0 →
    unpack f (b0 :: bs) = concatBytes (b0.extractLsb' 0 (8 - K f)).toNat bs ∧
    unpack f (b0 :: bs) < 2 ^ PBITS f (tagOf f b0) ∧ unpack f (b0 :: bs) < BOUND f) ∧
  ∀ (f : Family) (t v : Nat), t < 2 ^ K f → v < 2 ^ PBITS f t →
    unpack f (pack f t v) = v ∧ ∃ b0 tl, pack f t v = b0 :: tl ∧ tagOf f b0 = t

/-! ### The commands -/

/-- R100: ENC.N. -/
def Obligations.EncNStoresTheNarrowEncoding : Prop :=
  ∀ s : State, s.busy = false → goodBuffer s →
    exec .encN s = .next (encodeOutcome (narrowBytes s.val) { s with cmd := 0b0000 })

/-- R110: ENC.M. -/
def Obligations.EncMStoresTheMediumEncoding : Prop :=
  ∀ s : State, s.busy = false → goodBuffer s →
    exec .encM s = .next (encodeOutcome (mediumBytes s.val) { s with cmd := 0b0001 })

/-- R120: ENC.W. -/
def Obligations.EncWStoresTheWideEncoding : Prop :=
  ∀ s : State, s.busy = false → goodBuffer s →
    exec .encW s = .next (encodeOutcome (wideBytes s.val) { s with cmd := 0b0010 })

/-- R101: DEC.N. -/
def Obligations.DecNRecoversTheNarrowValue : Prop :=
  ∀ s : State, s.busy = false → goodBuffer s →
    let s0 := { s with cmd := 0b1000 }
    let b0 := s.mem.byteAt s.base
    let b1 := s.mem.byteAt (s.base + 1)
    exec .decN s = .next (
      if s.len = 0 then s0.raise .bufferEmpty 0
      else if b0.getLsbD 7 = false then
        (s0.note [.memRead s.base]).complete (b0.extractLsb' 0 7).toNat 1
      else if s.len < 2 then (s0.note [.memRead s.base]).raise .invalidEncoding 0
      else (s0.note [.memRead s.base, .memRead (s.base + 1)]).complete (b0.extractLsb' 0 7 ++ b1).toNat 2)

/-- R111: DEC.M. -/
def Obligations.DecMRecoversTheMediumValue : Prop :=
  ∀ s : State, s.busy = false → goodBuffer s →
    let s0 := { s with cmd := 0b1001 }
    let b := fun i => s.mem.byteAt (s.base + i)
    let L := ((b 0).extractLsb' 6 2).toNat + 1
    exec .decM s = .next (
      if s.len = 0 then s0.raise .bufferEmpty 0
      else if s.len < L then (s0.note [.memRead s.base]).raise .invalidEncoding 0
      else (s0.note (memReadOps s.base L)).complete
        (if L = 1 then ((b 0).extractLsb' 0 6).toNat
         else if L = 2 then ((b 0).extractLsb' 0 6 ++ b 1).toNat
         else if L = 3 then ((b 0).extractLsb' 0 6 ++ b 1 ++ b 2).toNat
         else ((b 0).extractLsb' 0 6 ++ b 1 ++ b 2 ++ b 3).toNat) L)

/-- R121: DEC.W. -/
def Obligations.DecWRecoversTheWideValue : Prop :=
  ∀ s : State, s.busy = false → goodBuffer s →
    let s0 := { s with cmd := 0b1010 }
    let b := fun i => s.mem.byteAt (s.base + i)
    let L := 2 ^ ((b 0).extractLsb' 6 2).toNat
    exec .decW s = .next (
      if s.len = 0 then s0.raise .bufferEmpty 0
      else if s.len < L then (s0.note [.memRead s.base]).raise .invalidEncoding 0
      else (s0.note (memReadOps s.base L)).complete
        (if L = 1 then ((b 0).extractLsb' 0 6).toNat
         else if L = 2 then ((b 0).extractLsb' 0 6 ++ b 1).toNat
         else if L = 4 then ((b 0).extractLsb' 0 6 ++ b 1 ++ b 2 ++ b 3).toNat
         else ((b 0).extractLsb' 0 6 ++ b 1 ++ b 2 ++ b 3 ++ b 4 ++ b 5 ++ b 6 ++ b 7).toNat) L)

/-- R102: WR.N. -/
def Obligations.WrNSendsTheNarrowEncoding : Prop :=
  ∀ s : State, s.busy = false →
    let s1 := writeOutcome (narrowBytes s.val) { s with cmd := 0b0100 }
    exec .wrN s = .next s1 ∧ writeAnswered (narrowBytes s.val) s1

/-- R112: WR.M. -/
def Obligations.WrMSendsTheMediumEncoding : Prop :=
  ∀ s : State, s.busy = false →
    let s1 := writeOutcome (mediumBytes s.val) { s with cmd := 0b0101 }
    exec .wrM s = .next s1 ∧ writeAnswered (mediumBytes s.val) s1

/-- R122: WR.W. -/
def Obligations.WrWSendsTheWideEncoding : Prop :=
  ∀ s : State, s.busy = false →
    let s1 := writeOutcome (wideBytes s.val) { s with cmd := 0b0110 }
    exec .wrW s = .next s1 ∧ writeAnswered (wideBytes s.val) s1

/-- R103: RD.N. -/
def Obligations.RdNTakesOneNarrowEncoding : Prop :=
  ∀ s : State, s.busy = false →
    let s1 := readIssued 0b1100 s
    exec .rdN s = .next s1 ∧ firstFailures s1 ∧
    (s.inEnded = false → ∀ b0 : Byte,
      (b0.getLsbD 7 = false →
        onReadAnswer (.full [b0]) s1 = .next ((tagTaken s1 b0).complete (b0.extractLsb' 0 7).toNat 1)) ∧
      (b0.getLsbD 7 = true →
        continued s1 b0 1 fun bs => concatBytes (b0.extractLsb' 0 7).toNat bs))

/-- R113: RD.M. -/
def Obligations.RdMTakesOneMediumEncoding : Prop :=
  ∀ s : State, s.busy = false →
    let s1 := readIssued 0b1101 s
    exec .rdM s = .next s1 ∧ firstFailures s1 ∧
    (s.inEnded = false → ∀ b0 : Byte,
      let r := (b0.extractLsb' 6 2).toNat
      (r = 0 → onReadAnswer (.full [b0]) s1 = .next ((tagTaken s1 b0).complete (b0.extractLsb' 0 6).toNat 1)) ∧
      (r ≠ 0 → continued s1 b0 r fun bs => concatBytes (b0.extractLsb' 0 6).toNat bs))

/-- R123: RD.W. -/
def Obligations.RdWTakesOneWideEncoding : Prop :=
  ∀ s : State, s.busy = false →
    let s1 := readIssued 0b1110 s
    exec .rdW s = .next s1 ∧ firstFailures s1 ∧
    (s.inEnded = false → ∀ b0 : Byte,
      let r := 2 ^ (b0.extractLsb' 6 2).toNat - 1
      (r = 0 → onReadAnswer (.full [b0]) s1 = .next ((tagTaken s1 b0).complete (b0.extractLsb' 0 6).toNat 1)) ∧
      (r ≠ 0 → continued s1 b0 r fun bs => concatBytes (b0.extractLsb' 0 6).toNat bs))

/-- R62: a reserved command code completes at once with IllegalCommand and touches nothing else. -/
def Obligations.ReservedCodesCompleteWithIllegalCommand : Prop :=
  ∀ s : State, s.busy = false →
    ∀ i w, (i, w) ∈ [(Instr.reserved3, (0x3 : BitVec 4)), (.reserved7, 0x7), (.reservedB, 0xB), (.reservedF, 0xF)] →
      exec i s = .next { s with cmd := w, rerr := 7, rcnt := 0, rval := 0, rte := 0, ph := .idle }

/-- An item of a narrow format delivered whole to RD.N leaves its payload, zero-extended, in RVAL and its length in
RCNT.  That a data row runs as such a Read is the model's choice, log 15. -/
def Obligations.NarrowItemsLeaveTheirPayload : Prop :=
  ∀ s : State, s.busy = false →
    (∀ v : BitVec 7, exec (.nL1 v) s = .next (itemRead 0xC (0#1 ++ v) [] (v.setWidth 64) s)) ∧
    (∀ v : BitVec 15, exec (.nL2 v) s =
      .next (itemRead 0xC (1#1 ++ v.extractLsb' 8 7) [v.extractLsb' 0 8] (v.setWidth 64) s))

/-- An item of a medium format delivered whole to RD.M leaves its payload in RVAL and its length in RCNT (log 15). -/
def Obligations.MediumItemsLeaveTheirPayload : Prop :=
  ∀ s : State, s.busy = false →
    (∀ v : BitVec 6, exec (.mL1 v) s = .next (itemRead 0xD (0#2 ++ v) [] (v.setWidth 64) s)) ∧
    (∀ v : BitVec 14, exec (.mL2 v) s =
      .next (itemRead 0xD (1#2 ++ v.extractLsb' 8 6) [v.extractLsb' 0 8] (v.setWidth 64) s)) ∧
    (∀ v : BitVec 22, exec (.mL3 v) s =
      .next (itemRead 0xD (2#2 ++ v.extractLsb' 16 6) [v.extractLsb' 8 8, v.extractLsb' 0 8] (v.setWidth 64) s)) ∧
    (∀ v : BitVec 30, exec (.mL4 v) s =
      .next (itemRead 0xD (3#2 ++ v.extractLsb' 24 6)
        [v.extractLsb' 16 8, v.extractLsb' 8 8, v.extractLsb' 0 8] (v.setWidth 64) s))

/-- An item of a wide format delivered whole to RD.W leaves its payload in RVAL and its length in RCNT (log 15). -/
def Obligations.WideItemsLeaveTheirPayload : Prop :=
  ∀ s : State, s.busy = false →
    (∀ v : BitVec 6, exec (.wL1 v) s = .next (itemRead 0xE (0#2 ++ v) [] (v.setWidth 64) s)) ∧
    (∀ v : BitVec 14, exec (.wL2 v) s =
      .next (itemRead 0xE (1#2 ++ v.extractLsb' 8 6) [v.extractLsb' 0 8] (v.setWidth 64) s)) ∧
    (∀ v : BitVec 30, exec (.wL4 v) s =
      .next (itemRead 0xE (2#2 ++ v.extractLsb' 24 6)
        [v.extractLsb' 16 8, v.extractLsb' 8 8, v.extractLsb' 0 8] (v.setWidth 64) s)) ∧
    (∀ v : BitVec 62, exec (.wL8 v) s =
      .next (itemRead 0xE (3#2 ++ v.extractLsb' 56 6)
        [v.extractLsb' 48 8, v.extractLsb' 40 8, v.extractLsb' 32 8, v.extractLsb' 24 8,
         v.extractLsb' 16 8, v.extractLsb' 8 8, v.extractLsb' 0 8] (v.setWidth 64) s))

/-! ### Frames and whole-machine rules -/

/-- The frame of ENC.N, ENC.M, ENC.W, DEC.N, DEC.M, DEC.W: only CMD, the four results, the record of port operations
and, for an Encode, the bytes of the encoding at BASE change; a failing Encode and every Decode leave every byte. -/
def Obligations.BufferCommandsFrame : Prop :=
  ∀ (f : Family) (s t : State), s.busy = false →
    (exec (encInstr f) s = .next t →
      t = { s with
        cmd := encodeCode f, rval := t.rval, rcnt := t.rcnt, rerr := t.rerr, rte := t.rte
        mem := t.mem, portOps := t.portOps } ∧
      (t.rerr ≠ 0 → t.mem = s.mem) ∧
      ∀ bs, encodeBytes f s.val.toNat = some bs →
        ∀ a, ¬ (s.base ≤ a ∧ a < s.base + bs.length) → t.mem.byteAt a = s.mem.byteAt a) ∧
    (exec (decInstr f) s = .next t →
      t = { s with
        cmd := decodeCode f, rval := t.rval, rcnt := t.rcnt, rerr := t.rerr, rte := t.rte
        portOps := t.portOps })

/-- The frame of WR.N, WR.M, WR.W, RD.N, RD.M, RD.W and of the streams' answers: memory, VAL, BASE, LEN, the host and
the parameters never change. -/
def Obligations.StreamCommandsFrame : Prop :=
  (∀ (f : Family) (s t : State), s.busy = false →
    (exec (wrInstr f) s = .next t →
      t = { s with
        cmd := writeCode f, rval := t.rval, rcnt := t.rcnt, rerr := t.rerr, rte := t.rte
        sb := t.sb, ph := t.ph, nreq := t.nreq, portOps := t.portOps }) ∧
    (exec (rdInstr f) s = .next t →
      t = { s with cmd := readCode f, ph := t.ph, nreq := t.nreq, portOps := t.portOps })) ∧
  ∀ (a : Answer) (s t : State), onAnswer a s = .next t →
    t = { s with
      rval := t.rval, rcnt := t.rcnt, rerr := t.rerr, rte := t.rte
      sb := t.sb, ph := t.ph, nreq := t.nreq, portOps := t.portOps
      inTaken := t.inTaken, inEnded := t.inEnded, outSent := t.outSent }

/-- R171, R172: completion and error completion write exactly the four results and PH, and afterwards the block is
idle. -/
def Obligations.CompletionIsOneUpdate : Prop :=
  ∀ (s : State) (v : Value) (cnt e : Nat) (k : ErrorKind),
    s.complete v.toNat cnt =
      { s with rerr := 0, rval := v, rcnt := BitVec.ofNat 4 cnt, rte := 0, ph := .idle } ∧
    s.raise k cnt = { s with rerr := k.code, rval := 0, rcnt := BitVec.ofNat 4 cnt, rte := 0, ph := .idle } ∧
    s.raiseTransport cnt e = { s with rerr := 6, rval := 0, rcnt := BitVec.ofNat 4 cnt, rte := e, ph := .idle } ∧
    (s.complete v.toNat cnt).status = 0 ∧ (s.raise k cnt).status = 0 ∧ (s.raiseTransport cnt e).status = 0

/-- R174: which command can report which error kind, whatever the streams answer. -/
def Obligations.EachCommandReportsItsOwnErrors : Prop :=
  ∀ (as : List Answer) (f : Family) (s t : State), s.busy = false → t.busy = false →
    (transact (encInstr f) as s = .next t → t.rerr = 0 ∨ t.rerr = 1 ∨ t.rerr = 2) ∧
    (transact (decInstr f) as s = .next t → t.rerr = 0 ∨ t.rerr = 3 ∨ t.rerr = 4) ∧
    (transact (wrInstr f) as s = .next t → t.rerr = 0 ∨ t.rerr = 1 ∨ t.rerr = 6) ∧
    (transact (rdInstr f) as s = .next t → t.rerr = 0 ∨ t.rerr = 4 ∨ t.rerr = 5 ∨ t.rerr = 6) ∧
    ∀ i, i = .reserved3 ∨ i = .reserved7 ∨ i = .reservedB ∨ i = .reservedF →
      transact i as s = .next t → t.rerr = 7

/-- R176: a command that completes with an error leaves buffer memory and VAL, BASE, LEN as they were and CMD as it was
written; the bytes a failed Read took, RCNT of them, stay taken, and the bytes accepted before a failed Write, the first
RCNT of its encoding, stay accepted; no other command moves a byte of a stream. -/
def Obligations.ErrorsArePrecise : Prop :=
  ∀ (as : List Answer) (w : BitVec 4) (s t : State), s.busy = false → t.busy = false →
    transact (decodeCmd w) as s = .next t → t.rerr ≠ 0 →
      t.mem = s.mem ∧ t.cmd = w ∧ t.val = s.val ∧ t.base = s.base ∧ t.len = s.len ∧
      (∃ taken, t.inTaken = s.inTaken ++ taken ∧
        (∀ f, w = readCode f → taken.length = t.rcnt.toNat) ∧ ((∀ f, w ≠ readCode f) → taken = [])) ∧
      ∃ sent, t.outSent = s.outSent ++ sent ∧
        (∀ f, w = writeCode f →
          sent.length = t.rcnt.toNat ∧ (sent = [] ∨ ∃ bs, encodeBytes f s.val.toNat = some bs ∧ sent <+: bs)) ∧
        ((∀ f, w ≠ writeCode f) → sent = [])

/-- R163: the count register is bounded by the family, and on success is a member of its length set. -/
def Obligations.CountIsBoundedByTheFamily : Prop :=
  ∀ (as : List Answer) (f : Family) (i : Instr) (s t : State), s.busy = false → t.busy = false →
    (i = encInstr f ∨ i = decInstr f ∨ i = wrInstr f ∨ i = rdInstr f) → transact i as s = .next t →
      t.rcnt.toNat ≤ (match f with | .narrow => 2 | .medium => 4 | .wide => 8) ∧
      (t.rerr = 0 → ∃ tag < 2 ^ K f, t.rcnt.toNat = LEN f tag)

/-- R42, R135: a Read takes exactly RCNT bytes, success or failure, by one request or two, never asking for more than
the tag byte declares. -/
def Obligations.ReadTakesExactlyItsCount : Prop :=
  ∀ (as : List Answer) (f : Family) (s t : State), s.busy = false → t.busy = false →
    transact (rdInstr f) as s = .next t →
      ∃ taken, t.inTaken = s.inTaken ++ taken ∧ t.rcnt.toNat = taken.length ∧
        (t.portOps = s.portOps ++ [.streamRead 1] ∧ taken.length ≤ 1 ∨
          ∃ b0 tl, taken = b0 :: tl ∧ remainingOf f b0 ≠ 0 ∧ tl.length ≤ remainingOf f b0 ∧
            t.portOps = s.portOps ++ [.streamRead 1, .streamRead (remainingOf f b0)])

/-- R16: no command reaches two of buffer memory, input stream and output stream. -/
def Obligations.EachCommandReachesOneSpace : Prop :=
  ∀ (as : List Answer) (f : Family) (s t : State), s.busy = false →
    (transact (encInstr f) as s = .next t → onlyOps (fun o => ∃ a b, o = .memWrite a b) s t) ∧
    (transact (decInstr f) as s = .next t → onlyOps (fun o => ∃ a, o = .memRead a) s t) ∧
    (transact (rdInstr f) as s = .next t → onlyOps (fun o => ∃ n, o = .streamRead n) s t) ∧
    (transact (wrInstr f) as s = .next t → onlyOps (fun o => ∃ bs, o = .streamWrite bs) s t)

/-- R19: what a command leaves in the results, writes to its buffer, asks of the streams and sends depends only on the
command word, VAL, BASE, LEN, the buffer bytes and the answers, not on anything an earlier command left. -/
def Obligations.CommandsAreStateless : Prop :=
  ∀ (w : BitVec 4) (as : List Answer) (s s' : State), s.busy = false → s'.busy = false → sameOperands s s' →
    match transact (decodeCmd w) as s, transact (decodeCmd w) as s' with
    | .next t, .next t' =>
      t'.ph = t.ph ∧ (t.busy = false → sameResults t t') ∧
      (∀ i < s.len, t'.mem.byteAt (s.base + i) = t.mem.byteAt (s.base + i)) ∧
      (∃ ops, t.portOps = s.portOps ++ ops ∧ t'.portOps = s'.portOps ++ ops) ∧
      (∃ sent, t.outSent = s.outSent ++ sent ∧ t'.outSent = s'.outSent ++ sent) ∧
      (∃ taken, t.inTaken = s.inTaken ++ taken ∧ t'.inTaken = s'.inTaken ++ taken)
    | .fault r, .fault r' => r = r'
    | .refused r, .refused r' => r = r'
    | _, _ => False

/-! ### Laws -/

/-- R150: decoding the encoding of an encodable value gives it back with the minimal length, as functions and in
register terms. -/
def Obligations.EncodeThenDecodeGivesTheValue : Prop :=
  ∀ f : Family,
    (∀ v, v < BOUND f → ∃ bs, encodeBytes f v = some bs ∧ minlen f v = some bs.length ∧
      decodeBytes f bs = .value v bs.length) ∧
    ∀ (s : State) (L : Nat), s.busy = false → goodBuffer s → s.val.toNat < BOUND f →
      minlen f s.val.toNat = some L → L ≤ s.len →
      ∃ t u, exec (encInstr f) s = .next t ∧ exec (decInstr f) t = .next u ∧
        u.rerr = 0 ∧ u.rval = s.val ∧ u.rcnt.toNat = L

/-- R151: the encoding of a value has the least length that holds it, lengths change exactly at the thresholds, and
what Encode stores and Write sends is that encoding. -/
def Obligations.EncodingsAreMinimal : Prop :=
  ∀ f : Family,
    (∀ v bs, encodeBytes f v = some bs →
      minlen f v = some bs.length ∧ (∃ t < 2 ^ K f, bs.length = LEN f t ∧ v < 2 ^ PBITS f t) ∧
      ∀ t < 2 ^ K f, v < 2 ^ PBITS f t → bs.length ≤ LEN f t) ∧
    (∀ t < 2 ^ K f, classOf f (2 ^ PBITS f t - 1) = some t ∧
      classOf f (2 ^ PBITS f t) = if t + 1 < 2 ^ K f then some (t + 1) else none) ∧
    (∀ s t : State, s.busy = false → exec (encInstr f) s = .next t → t.portOps ≠ s.portOps →
      ∃ bs, encodeBytes f s.val.toNat = some bs ∧ t.portOps = s.portOps ++ memWriteOps s.base bs) ∧
    (∀ s t : State, s.busy = false → exec (wrInstr f) s = .next t → t.portOps ≠ s.portOps →
      ∃ bs, encodeBytes f s.val.toNat = some bs ∧ t.portOps = s.portOps ++ [.streamWrite bs])

/-- R152: the family's bound and every larger value fail with ValueTooLarge; one less than the bound succeeds. -/
def Obligations.DomainBoundaryIsExclusive : Prop :=
  ∀ (f : Family) (s : State), s.busy = false →
    (BOUND f ≤ s.val.toNat →
      (goodBuffer s → ∃ t, exec (encInstr f) s = .next t ∧ t.rerr = 1) ∧
      (∃ t, exec (wrInstr f) s = .next t ∧ t.busy = false ∧ t.rerr = 1)) ∧
    (s.val.toNat = BOUND f - 1 →
      (goodBuffer s → LEN f (tmax f) ≤ s.len → ∃ t, exec (encInstr f) s = .next t ∧ t.rerr = 0) ∧
      (∃ t, transact (wrInstr f) [.write .all] s = .next t ∧ t.busy = false ∧ t.rerr = 0))

/-- R153, R154: an Encode into a buffer one byte short fails and leaves memory alone, into one of the minimal length it
succeeds; a Decode of the first bytes of an encoding, fewer than its tag declares, fails with InvalidEncoding; of none,
with BufferEmpty. -/
def Obligations.BufferLengthsAreExact : Prop :=
  ∀ (f : Family) (s : State), s.busy = false → goodBuffer s →
    (∀ L, minlen f s.val.toNat = some L →
      (s.len = L - 1 → ∃ t, exec (encInstr f) s = .next t ∧ t.rerr = 2 ∧ t.rcnt = 0 ∧ t.mem = s.mem) ∧
      (s.len = L → ∃ t, exec (encInstr f) s = .next t ∧ t.rerr = 0 ∧ t.rcnt.toNat = L)) ∧
    (1 ≤ s.len → s.len < lengthOf f (s.mem.byteAt s.base) →
      ∃ t, exec (decInstr f) s = .next t ∧ t.rerr = 4 ∧ t.rcnt = 0 ∧ t.rval = 0) ∧
    (s.len = 0 → ∃ t, exec (decInstr f) s = .next t ∧ t.rerr = 3 ∧ t.rcnt = 0 ∧ t.rval = 0)

/-- R155: on the same bytes, canonical or not, Read from a stream that holds them and Decode of a buffer that holds them
agree: the same value and count on success, StreamEmpty against BufferEmpty, InvalidEncoding on both, with the counts
of R173.  The Read runs from a connected source, its steps taken together: the model's form, log 15. -/
def Obligations.ReadAndDecodeAgree : Prop :=
  ∀ (f : Family) (bs : List Byte) (s u : State), s.busy = false → u.busy = false → u.len = bs.length →
    goodBuffer u → u.mem.readBytes u.base u.len = bs →
    ∃ t w, readFrom f bs s = .next t ∧ exec (decInstr f) u = .next w ∧
      match decodeBytes f bs with
      | .value v L =>
        t.rerr = 0 ∧ w.rerr = 0 ∧ t.rval = BitVec.ofNat 64 v ∧ w.rval = t.rval ∧ t.rcnt.toNat = L ∧ w.rcnt = t.rcnt
      | .truncated _ => t.rerr = 4 ∧ w.rerr = 4 ∧ t.rcnt.toNat = bs.length ∧ w.rcnt = 0
      | .empty => t.rerr = 5 ∧ w.rerr = 3 ∧ t.rcnt = 0 ∧ w.rcnt = 0

/-- R157: WR.f offers exactly the bytes ENC.f stores, and both fail with ValueTooLarge for the same values. -/
def Obligations.WriteOffersWhatEncodeStores : Prop :=
  ∀ (f : Family) (s t u : State), s.busy = false → exec (encInstr f) s = .next t → exec (wrInstr f) s = .next u →
    (t.rerr = 1 ↔ u.busy = false) ∧ (u.busy = false → u.rerr = 1 ∧ u.portOps = s.portOps) ∧
    (u.busy = true → ∃ bs, encodeBytes f s.val.toNat = some bs ∧ u.portOps = s.portOps ++ [.streamWrite bs] ∧
      (t.rerr = 0 → t.mem.readBytes s.base bs.length = bs ∧ t.rcnt.toNat = bs.length))

/-- R159: re-encoding what was decoded gives the same bytes exactly when they were canonical, and shorter ones
otherwise. -/
def Obligations.ReencodingIsTheIdentityOnCanonicalInput : Prop :=
  ∀ (f : Family) (bs : List Byte) (v L : Nat), decodeBytes f bs = .value v L →
    (encodeBytes f v = some (bs.take L) ↔ minlen f v = some L) ∧
    (minlen f v ≠ some L → ∃ cs, encodeBytes f v = some cs ∧ cs.length < L)

/-- R160: within a family no encoding is a proper prefix of another, so a concatenation of encodings splits in one way
only. -/
def Obligations.EncodingsAreSelfDelimiting : Prop :=
  ∀ (f : Family) (a b x y : List Byte) (u v : Nat),
    decodeBytes f a = .value u a.length → decodeBytes f b = .value v b.length → a ++ x = b ++ y →
      a = b ∧ x = y ∧ u = v

/-- R161: lengths are monotone in the value, and the encodings of a family order as byte strings as the values order as
numbers. -/
def Obligations.EncodingsOrderAsTheirValues : Prop :=
  ∀ (f : Family) (u v : Nat), u < v → v < BOUND f →
    ∃ a b, encodeBytes f u = some a ∧ encodeBytes f v = some b ∧ a.length ≤ b.length ∧
      List.Lex (fun x y : Byte => x.toNat < y.toNat) a b

/-- R162: the families agree where their formats agree. -/
def Obligations.FamiliesAgreeWhereFormatsAgree : Prop :=
  (∀ v, v < 2 ^ 14 → encodeBytes .medium v = encodeBytes .wide v) ∧
  (∀ (b0 : Byte) (bs : List Byte), b0.toNat < 0x80 →
    decodeBytes .medium (b0 :: bs) = decodeBytes .wide (b0 :: bs)) ∧
  (∀ v, v < 2 ^ 6 → encodeBytes .narrow v = encodeBytes .medium v ∧ encodeBytes .medium v = encodeBytes .wide v ∧
    encodeBytes .narrow v = some [BitVec.ofNat 8 v]) ∧
  decodeBytes .narrow [0x40] = .value 0x40 1 ∧ lengthOf .medium 0x40 = 2

/-! ### Several instances -/

/-- R156, R190: two instructions given to two instances over one memory, on buffers that do not overlap, come to the same
platform in either order; only when a host has broken its duty on its buffer (R208) may both orders be refused under
different names.  The platform is log 2, and that a data row is an instruction log 15: the model's choices. -/
def Obligations.InstancesOnDisjointBuffersCommute : Prop :=
  ∀ (p : Platform) (j k : Nat) (a b : Instr) (s u : State), p.mem.wf = true → j ≠ k →
    p.insts[j]? = some s → p.insts[k]? = some u →
    (s.base + s.len ≤ u.base ∨ u.base + u.len ≤ s.base) →
    Platform.andThen (Platform.command j a p) (Platform.command k b) =
      Platform.andThen (Platform.command k b p) (Platform.command j a) ∨
    ¬ (goodBuffer s ∧ goodBuffer u) ∧
      (∃ r, Platform.andThen (Platform.command j a p) (Platform.command k b) = .refused r) ∧
      ∃ r, Platform.andThen (Platform.command k b p) (Platform.command j a) = .refused r
end

