-- ==== Sys2Proof/Laws/Datapath.lean ====
section
/-! SUPPORT. Bytes and words: cutting a word into bytes and joining bytes into a word are inverse, and the size facts
of the family tables. -/

namespace Sys2Proof.Machine

theorem shiftLeft_or (w p v : Nat) (h : v < 2 ^ p) : (w <<< p) ||| v = w * 2 ^ p + v := by
  rw [← Nat.shiftLeft_add_eq_or_of_lt h, Nat.shiftLeft_eq]

theorem length_bytesBE (n w : Nat) : (bytesBE n w).length = n := by
  induction n with
  | zero => rfl
  | succ n ih => simp [bytesBE, ih]

theorem joinBE_concat (bs : List Byte) (b : Byte) : joinBE (bs ++ [b]) = joinBE bs * 2 ^ 8 + b.toNat := by
  rw [joinBE, List.foldl_append, List.foldl_cons, List.foldl_nil, shiftLeft_or _ _ _ b.isLt]
  rfl

theorem joinBE_append (xs ys : List Byte) : joinBE (xs ++ ys) = joinBE xs * 2 ^ (8 * ys.length) + joinBE ys := by
  induction ys using List.reverseRecOn with
  | nil => simp [joinBE]
  | append_singleton ys b ih =>
    rw [← List.append_assoc, joinBE_concat, joinBE_concat, ih, List.length_append, List.length_singleton,
      Nat.mul_add, Nat.pow_add]
    ring

theorem joinBE_cons (b : Byte) (bs : List Byte) :
    joinBE (b :: bs) = b.toNat * 2 ^ (8 * bs.length) + joinBE bs := by
  have h := joinBE_append [b] bs
  simpa [joinBE] using h

theorem joinBE_lt (bs : List Byte) : joinBE bs < 2 ^ (8 * bs.length) := by
  induction bs with
  | nil => simp [joinBE]
  | cons b bs ih =>
    rw [joinBE_cons, List.length_cons, Nat.mul_add, Nat.add_comm, Nat.pow_add]
    have hb : (b.toNat + 1) * 2 ^ (8 * bs.length) ≤ 2 ^ 8 * 2 ^ (8 * bs.length) :=
      Nat.mul_le_mul_right _ b.isLt
    rw [Nat.add_mul] at hb
    simp only [Nat.mul_one]
    rw [Nat.mul_comm (2 ^ (8 * bs.length))]
    omega

theorem joinBE_bytesBE (n w : Nat) : joinBE (bytesBE n w) = w % 2 ^ (8 * n) := by
  induction n with
  | zero => simp [bytesBE, joinBE, Nat.mod_one]
  | succ n ih =>
    rw [bytesBE, joinBE_cons, length_bytesBE, ih, BitVec.toNat_ofNat, Nat.shiftRight_eq_div_pow, Nat.mul_add,
      Nat.pow_add, Nat.mod_mul, Nat.mul_one, Nat.mul_comm, Nat.add_comm]

/-- The bytes of a word do not depend on what stands above them. -/
theorem bytesBE_add_mul (n w k : Nat) : bytesBE n (w + k * 2 ^ (8 * n)) = bytesBE n w := by
  induction n generalizing w k with
  | zero => rfl
  | succ n ih =>
    have hsplit : w + k * 2 ^ (8 * (n + 1)) = w + (k * 2 ^ 8) * 2 ^ (8 * n) := by
      rw [Nat.mul_add, Nat.pow_add]
      ring
    have hbyte : BitVec.ofNat 8 ((w + k * 2 ^ 8 * 2 ^ (8 * n)) / 2 ^ (8 * n)) = BitVec.ofNat 8 (w / 2 ^ (8 * n)) := by
      rw [Nat.add_mul_div_right _ _ (Nat.two_pow_pos _)]
      apply BitVec.eq_of_toNat_eq
      simp only [BitVec.toNat_ofNat]
      omega
    rw [hsplit, bytesBE, bytesBE, ih, Nat.shiftRight_eq_div_pow, Nat.shiftRight_eq_div_pow, hbyte]

theorem bytesBE_joinBE (bs : List Byte) : bytesBE bs.length (joinBE bs) = bs := by
  induction bs with
  | nil => rfl
  | cons b bs ih =>
    have htop : BitVec.ofNat 8 (joinBE (b :: bs) / 2 ^ (8 * bs.length)) = b := by
      rw [joinBE_cons, Nat.mul_comm, Nat.mul_add_div (Nat.two_pow_pos _), Nat.div_eq_of_lt (joinBE_lt bs)]
      simp
    rw [List.length_cons, bytesBE, Nat.shiftRight_eq_div_pow, htop, joinBE_cons, Nat.add_comm, bytesBE_add_mul, ih]

/-! ### The family tables -/

theorem K_pos (f : Family) : 0 < K f := by cases f <;> decide

theorem K_le (f : Family) : K f ≤ 2 := by cases f <;> decide

theorem LEN_pos (f : Family) (t : Nat) : 0 < LEN f t := by cases f <;> simp [LEN]

theorem LEN_le (f : Family) (t : Nat) (h : t < 2 ^ K f) : LEN f t ≤ 8 := by
  cases f <;> simp only [K] at h <;> interval_cases t <;> decide

theorem PBITS_add_K (f : Family) (t : Nat) : PBITS f t + K f = 8 * LEN f t := by
  have := LEN_pos f t
  have := K_le f
  unfold PBITS
  omega

theorem tagOf_lt (f : Family) (b : Byte) : tagOf f b < 2 ^ K f := by
  have := b.isLt
  cases f <;> simp only [tagOf, K, Nat.shiftRight_eq_div_pow] <;> omega

theorem lengthOf_pos (f : Family) (b : Byte) : 0 < lengthOf f b := LEN_pos _ _

theorem lengthOf_le (f : Family) (b : Byte) : lengthOf f b ≤ 8 := LEN_le _ _ (tagOf_lt f b)

theorem length_pack (f : Family) (t v : Nat) : (pack f t v).length = LEN f t := length_bytesBE _ _

end Sys2Proof.Machine
end

