-- ==== Sys2Proof/Laws/State.lean ====
section
/-! SUPPORT. What each shared update of the state leaves in each field: one lemma per field per update. -/

namespace Sys2Proof.Machine

@[simp] theorem State.raise_eq (s : State) (k : ErrorKind) (n : Nat) : s.raise k n = s.raiseWith k n 0 := rfl
@[simp] theorem State.raiseTransport_eq (s : State) (n e : Nat) :
    s.raiseTransport n e = s.raiseWith .transport n e := rfl

@[simp] theorem State.complete_cfg (s : State) (v n : Nat) : (s.complete v n).cfg = s.cfg := rfl
@[simp] theorem State.complete_cmd (s : State) (v n : Nat) : (s.complete v n).cmd = s.cmd := rfl
@[simp] theorem State.complete_val (s : State) (v n : Nat) : (s.complete v n).val = s.val := rfl
@[simp] theorem State.complete_base (s : State) (v n : Nat) : (s.complete v n).base = s.base := rfl
@[simp] theorem State.complete_len (s : State) (v n : Nat) : (s.complete v n).len = s.len := rfl
@[simp] theorem State.complete_rval (s : State) (v n : Nat) : (s.complete v n).rval = BitVec.ofNat 64 v := rfl
@[simp] theorem State.complete_rcnt (s : State) (v n : Nat) : (s.complete v n).rcnt = BitVec.ofNat 4 n := rfl
@[simp] theorem State.complete_rerr (s : State) (v n : Nat) : (s.complete v n).rerr = 0 := rfl
@[simp] theorem State.complete_rte (s : State) (v n : Nat) : (s.complete v n).rte = 0 := rfl
@[simp] theorem State.complete_sb (s : State) (v n : Nat) : (s.complete v n).sb = s.sb := rfl
@[simp] theorem State.complete_ph (s : State) (v n : Nat) : (s.complete v n).ph = .idle := rfl
@[simp] theorem State.complete_nreq (s : State) (v n : Nat) : (s.complete v n).nreq = s.nreq := rfl
@[simp] theorem State.complete_mem (s : State) (v n : Nat) : (s.complete v n).mem = s.mem := rfl
@[simp] theorem State.complete_inTape (s : State) (v n : Nat) : (s.complete v n).inTape = s.inTape := rfl
@[simp] theorem State.complete_inEnded (s : State) (v n : Nat) : (s.complete v n).inEnded = s.inEnded := rfl
@[simp] theorem State.complete_inTaken (s : State) (v n : Nat) : (s.complete v n).inTaken = s.inTaken := rfl
@[simp] theorem State.complete_outTape (s : State) (v n : Nat) : (s.complete v n).outTape = s.outTape := rfl
@[simp] theorem State.complete_outSent (s : State) (v n : Nat) : (s.complete v n).outSent = s.outSent := rfl
@[simp] theorem State.complete_script (s : State) (v n : Nat) : (s.complete v n).script = s.script := rfl
@[simp] theorem State.complete_si (s : State) (v n : Nat) : (s.complete v n).si = s.si := rfl
@[simp] theorem State.complete_pend (s : State) (v n : Nat) : (s.complete v n).pend = s.pend := rfl
@[simp] theorem State.complete_waiting (s : State) (v n : Nat) : (s.complete v n).waiting = s.waiting := rfl
@[simp] theorem State.complete_log (s : State) (v n : Nat) : (s.complete v n).log = s.log := rfl
@[simp] theorem State.complete_turns (s : State) (v n : Nat) : (s.complete v n).turns = s.turns := rfl
@[simp] theorem State.complete_portOps (s : State) (v n : Nat) : (s.complete v n).portOps = s.portOps := rfl
@[simp] theorem State.complete_freeCtr (s : State) (v n : Nat) : (s.complete v n).freeCtr = s.freeCtr := rfl

@[simp] theorem State.raiseWith_cfg (s : State) (k : ErrorKind) (n e : Nat) : (s.raiseWith k n e).cfg = s.cfg := rfl
@[simp] theorem State.raiseWith_cmd (s : State) (k : ErrorKind) (n e : Nat) : (s.raiseWith k n e).cmd = s.cmd := rfl
@[simp] theorem State.raiseWith_val (s : State) (k : ErrorKind) (n e : Nat) : (s.raiseWith k n e).val = s.val := rfl
@[simp] theorem State.raiseWith_base (s : State) (k : ErrorKind) (n e : Nat) : (s.raiseWith k n e).base = s.base := rfl
@[simp] theorem State.raiseWith_len (s : State) (k : ErrorKind) (n e : Nat) : (s.raiseWith k n e).len = s.len := rfl
@[simp] theorem State.raiseWith_rval (s : State) (k : ErrorKind) (n e : Nat) : (s.raiseWith k n e).rval = 0 := rfl
@[simp] theorem State.raiseWith_rcnt (s : State) (k : ErrorKind) (n e : Nat) : (s.raiseWith k n e).rcnt = BitVec.ofNat 4 n := rfl
@[simp] theorem State.raiseWith_rerr (s : State) (k : ErrorKind) (n e : Nat) : (s.raiseWith k n e).rerr = k.code := rfl
@[simp] theorem State.raiseWith_rte (s : State) (k : ErrorKind) (n e : Nat) : (s.raiseWith k n e).rte = e := rfl
@[simp] theorem State.raiseWith_sb (s : State) (k : ErrorKind) (n e : Nat) : (s.raiseWith k n e).sb = s.sb := rfl
@[simp] theorem State.raiseWith_ph (s : State) (k : ErrorKind) (n e : Nat) : (s.raiseWith k n e).ph = .idle := rfl
@[simp] theorem State.raiseWith_nreq (s : State) (k : ErrorKind) (n e : Nat) : (s.raiseWith k n e).nreq = s.nreq := rfl
@[simp] theorem State.raiseWith_mem (s : State) (k : ErrorKind) (n e : Nat) : (s.raiseWith k n e).mem = s.mem := rfl
@[simp] theorem State.raiseWith_inTape (s : State) (k : ErrorKind) (n e : Nat) : (s.raiseWith k n e).inTape = s.inTape := rfl
@[simp] theorem State.raiseWith_inEnded (s : State) (k : ErrorKind) (n e : Nat) : (s.raiseWith k n e).inEnded = s.inEnded := rfl
@[simp] theorem State.raiseWith_inTaken (s : State) (k : ErrorKind) (n e : Nat) : (s.raiseWith k n e).inTaken = s.inTaken := rfl
@[simp] theorem State.raiseWith_outTape (s : State) (k : ErrorKind) (n e : Nat) : (s.raiseWith k n e).outTape = s.outTape := rfl
@[simp] theorem State.raiseWith_outSent (s : State) (k : ErrorKind) (n e : Nat) : (s.raiseWith k n e).outSent = s.outSent := rfl
@[simp] theorem State.raiseWith_script (s : State) (k : ErrorKind) (n e : Nat) : (s.raiseWith k n e).script = s.script := rfl
@[simp] theorem State.raiseWith_si (s : State) (k : ErrorKind) (n e : Nat) : (s.raiseWith k n e).si = s.si := rfl
@[simp] theorem State.raiseWith_pend (s : State) (k : ErrorKind) (n e : Nat) : (s.raiseWith k n e).pend = s.pend := rfl
@[simp] theorem State.raiseWith_waiting (s : State) (k : ErrorKind) (n e : Nat) : (s.raiseWith k n e).waiting = s.waiting := rfl
@[simp] theorem State.raiseWith_log (s : State) (k : ErrorKind) (n e : Nat) : (s.raiseWith k n e).log = s.log := rfl
@[simp] theorem State.raiseWith_turns (s : State) (k : ErrorKind) (n e : Nat) : (s.raiseWith k n e).turns = s.turns := rfl
@[simp] theorem State.raiseWith_portOps (s : State) (k : ErrorKind) (n e : Nat) : (s.raiseWith k n e).portOps = s.portOps := rfl
@[simp] theorem State.raiseWith_freeCtr (s : State) (k : ErrorKind) (n e : Nat) : (s.raiseWith k n e).freeCtr = s.freeCtr := rfl

@[simp] theorem State.note_cfg (s : State) (ops : List PortOp) : (s.note ops).cfg = s.cfg := rfl
@[simp] theorem State.note_cmd (s : State) (ops : List PortOp) : (s.note ops).cmd = s.cmd := rfl
@[simp] theorem State.note_val (s : State) (ops : List PortOp) : (s.note ops).val = s.val := rfl
@[simp] theorem State.note_base (s : State) (ops : List PortOp) : (s.note ops).base = s.base := rfl
@[simp] theorem State.note_len (s : State) (ops : List PortOp) : (s.note ops).len = s.len := rfl
@[simp] theorem State.note_rval (s : State) (ops : List PortOp) : (s.note ops).rval = s.rval := rfl
@[simp] theorem State.note_rcnt (s : State) (ops : List PortOp) : (s.note ops).rcnt = s.rcnt := rfl
@[simp] theorem State.note_rerr (s : State) (ops : List PortOp) : (s.note ops).rerr = s.rerr := rfl
@[simp] theorem State.note_rte (s : State) (ops : List PortOp) : (s.note ops).rte = s.rte := rfl
@[simp] theorem State.note_sb (s : State) (ops : List PortOp) : (s.note ops).sb = s.sb := rfl
@[simp] theorem State.note_ph (s : State) (ops : List PortOp) : (s.note ops).ph = s.ph := rfl
@[simp] theorem State.note_nreq (s : State) (ops : List PortOp) : (s.note ops).nreq = s.nreq := rfl
@[simp] theorem State.note_mem (s : State) (ops : List PortOp) : (s.note ops).mem = s.mem := rfl
@[simp] theorem State.note_inTape (s : State) (ops : List PortOp) : (s.note ops).inTape = s.inTape := rfl
@[simp] theorem State.note_inEnded (s : State) (ops : List PortOp) : (s.note ops).inEnded = s.inEnded := rfl
@[simp] theorem State.note_inTaken (s : State) (ops : List PortOp) : (s.note ops).inTaken = s.inTaken := rfl
@[simp] theorem State.note_outTape (s : State) (ops : List PortOp) : (s.note ops).outTape = s.outTape := rfl
@[simp] theorem State.note_outSent (s : State) (ops : List PortOp) : (s.note ops).outSent = s.outSent := rfl
@[simp] theorem State.note_script (s : State) (ops : List PortOp) : (s.note ops).script = s.script := rfl
@[simp] theorem State.note_si (s : State) (ops : List PortOp) : (s.note ops).si = s.si := rfl
@[simp] theorem State.note_pend (s : State) (ops : List PortOp) : (s.note ops).pend = s.pend := rfl
@[simp] theorem State.note_waiting (s : State) (ops : List PortOp) : (s.note ops).waiting = s.waiting := rfl
@[simp] theorem State.note_log (s : State) (ops : List PortOp) : (s.note ops).log = s.log := rfl
@[simp] theorem State.note_turns (s : State) (ops : List PortOp) : (s.note ops).turns = s.turns := rfl
@[simp] theorem State.note_portOps (s : State) (ops : List PortOp) : (s.note ops).portOps = s.portOps ++ ops := rfl
@[simp] theorem State.note_freeCtr (s : State) (ops : List PortOp) : (s.note ops).freeCtr = s.freeCtr := rfl

@[simp] theorem State.memWrite_cfg (s : State) (a : Nat) (bs : List Byte) : (s.memWrite a bs).cfg = s.cfg := rfl
@[simp] theorem State.memWrite_cmd (s : State) (a : Nat) (bs : List Byte) : (s.memWrite a bs).cmd = s.cmd := rfl
@[simp] theorem State.memWrite_val (s : State) (a : Nat) (bs : List Byte) : (s.memWrite a bs).val = s.val := rfl
@[simp] theorem State.memWrite_base (s : State) (a : Nat) (bs : List Byte) : (s.memWrite a bs).base = s.base := rfl
@[simp] theorem State.memWrite_len (s : State) (a : Nat) (bs : List Byte) : (s.memWrite a bs).len = s.len := rfl
@[simp] theorem State.memWrite_rval (s : State) (a : Nat) (bs : List Byte) : (s.memWrite a bs).rval = s.rval := rfl
@[simp] theorem State.memWrite_rcnt (s : State) (a : Nat) (bs : List Byte) : (s.memWrite a bs).rcnt = s.rcnt := rfl
@[simp] theorem State.memWrite_rerr (s : State) (a : Nat) (bs : List Byte) : (s.memWrite a bs).rerr = s.rerr := rfl
@[simp] theorem State.memWrite_rte (s : State) (a : Nat) (bs : List Byte) : (s.memWrite a bs).rte = s.rte := rfl
@[simp] theorem State.memWrite_sb (s : State) (a : Nat) (bs : List Byte) : (s.memWrite a bs).sb = s.sb := rfl
@[simp] theorem State.memWrite_ph (s : State) (a : Nat) (bs : List Byte) : (s.memWrite a bs).ph = s.ph := rfl
@[simp] theorem State.memWrite_nreq (s : State) (a : Nat) (bs : List Byte) : (s.memWrite a bs).nreq = s.nreq := rfl
@[simp] theorem State.memWrite_mem (s : State) (a : Nat) (bs : List Byte) : (s.memWrite a bs).mem = s.mem.writeBytes a bs := rfl
@[simp] theorem State.memWrite_inTape (s : State) (a : Nat) (bs : List Byte) : (s.memWrite a bs).inTape = s.inTape := rfl
@[simp] theorem State.memWrite_inEnded (s : State) (a : Nat) (bs : List Byte) : (s.memWrite a bs).inEnded = s.inEnded := rfl
@[simp] theorem State.memWrite_inTaken (s : State) (a : Nat) (bs : List Byte) : (s.memWrite a bs).inTaken = s.inTaken := rfl
@[simp] theorem State.memWrite_outTape (s : State) (a : Nat) (bs : List Byte) : (s.memWrite a bs).outTape = s.outTape := rfl
@[simp] theorem State.memWrite_outSent (s : State) (a : Nat) (bs : List Byte) : (s.memWrite a bs).outSent = s.outSent := rfl
@[simp] theorem State.memWrite_script (s : State) (a : Nat) (bs : List Byte) : (s.memWrite a bs).script = s.script := rfl
@[simp] theorem State.memWrite_si (s : State) (a : Nat) (bs : List Byte) : (s.memWrite a bs).si = s.si := rfl
@[simp] theorem State.memWrite_pend (s : State) (a : Nat) (bs : List Byte) : (s.memWrite a bs).pend = s.pend := rfl
@[simp] theorem State.memWrite_waiting (s : State) (a : Nat) (bs : List Byte) : (s.memWrite a bs).waiting = s.waiting := rfl
@[simp] theorem State.memWrite_log (s : State) (a : Nat) (bs : List Byte) : (s.memWrite a bs).log = s.log := rfl
@[simp] theorem State.memWrite_turns (s : State) (a : Nat) (bs : List Byte) : (s.memWrite a bs).turns = s.turns := rfl
@[simp] theorem State.memWrite_portOps (s : State) (a : Nat) (bs : List Byte) : (s.memWrite a bs).portOps = s.portOps ++ memWriteOps a bs := rfl
@[simp] theorem State.memWrite_freeCtr (s : State) (a : Nat) (bs : List Byte) : (s.memWrite a bs).freeCtr = s.freeCtr := rfl

@[simp] theorem State.takeAnswer_cfg (s : State) (a : ReadAnswer) : (s.takeAnswer a).cfg = s.cfg := rfl
@[simp] theorem State.takeAnswer_cmd (s : State) (a : ReadAnswer) : (s.takeAnswer a).cmd = s.cmd := rfl
@[simp] theorem State.takeAnswer_val (s : State) (a : ReadAnswer) : (s.takeAnswer a).val = s.val := rfl
@[simp] theorem State.takeAnswer_base (s : State) (a : ReadAnswer) : (s.takeAnswer a).base = s.base := rfl
@[simp] theorem State.takeAnswer_len (s : State) (a : ReadAnswer) : (s.takeAnswer a).len = s.len := rfl
@[simp] theorem State.takeAnswer_rval (s : State) (a : ReadAnswer) : (s.takeAnswer a).rval = s.rval := rfl
@[simp] theorem State.takeAnswer_rcnt (s : State) (a : ReadAnswer) : (s.takeAnswer a).rcnt = s.rcnt := rfl
@[simp] theorem State.takeAnswer_rerr (s : State) (a : ReadAnswer) : (s.takeAnswer a).rerr = s.rerr := rfl
@[simp] theorem State.takeAnswer_rte (s : State) (a : ReadAnswer) : (s.takeAnswer a).rte = s.rte := rfl
@[simp] theorem State.takeAnswer_sb (s : State) (a : ReadAnswer) : (s.takeAnswer a).sb = s.sb := rfl
@[simp] theorem State.takeAnswer_ph (s : State) (a : ReadAnswer) : (s.takeAnswer a).ph = s.ph := rfl
@[simp] theorem State.takeAnswer_nreq (s : State) (a : ReadAnswer) : (s.takeAnswer a).nreq = s.nreq := rfl
@[simp] theorem State.takeAnswer_mem (s : State) (a : ReadAnswer) : (s.takeAnswer a).mem = s.mem := rfl
@[simp] theorem State.takeAnswer_inTape (s : State) (a : ReadAnswer) : (s.takeAnswer a).inTape = s.inTape := rfl
@[simp] theorem State.takeAnswer_inEnded (s : State) (a : ReadAnswer) : (s.takeAnswer a).inEnded = (s.inEnded || a.ends) := rfl
@[simp] theorem State.takeAnswer_inTaken (s : State) (a : ReadAnswer) : (s.takeAnswer a).inTaken = s.inTaken ++ a.bytes := rfl
@[simp] theorem State.takeAnswer_outTape (s : State) (a : ReadAnswer) : (s.takeAnswer a).outTape = s.outTape := rfl
@[simp] theorem State.takeAnswer_outSent (s : State) (a : ReadAnswer) : (s.takeAnswer a).outSent = s.outSent := rfl
@[simp] theorem State.takeAnswer_script (s : State) (a : ReadAnswer) : (s.takeAnswer a).script = s.script := rfl
@[simp] theorem State.takeAnswer_si (s : State) (a : ReadAnswer) : (s.takeAnswer a).si = s.si := rfl
@[simp] theorem State.takeAnswer_pend (s : State) (a : ReadAnswer) : (s.takeAnswer a).pend = s.pend := rfl
@[simp] theorem State.takeAnswer_waiting (s : State) (a : ReadAnswer) : (s.takeAnswer a).waiting = s.waiting := rfl
@[simp] theorem State.takeAnswer_log (s : State) (a : ReadAnswer) : (s.takeAnswer a).log = s.log := rfl
@[simp] theorem State.takeAnswer_turns (s : State) (a : ReadAnswer) : (s.takeAnswer a).turns = s.turns := rfl
@[simp] theorem State.takeAnswer_portOps (s : State) (a : ReadAnswer) : (s.takeAnswer a).portOps = s.portOps := rfl
@[simp] theorem State.takeAnswer_freeCtr (s : State) (a : ReadAnswer) : (s.takeAnswer a).freeCtr = s.freeCtr := rfl

@[simp] theorem State.nextLine_cfg (s : State) : s.nextLine.cfg = s.cfg := rfl
@[simp] theorem State.nextLine_cmd (s : State) : s.nextLine.cmd = s.cmd := rfl
@[simp] theorem State.nextLine_val (s : State) : s.nextLine.val = s.val := rfl
@[simp] theorem State.nextLine_base (s : State) : s.nextLine.base = s.base := rfl
@[simp] theorem State.nextLine_len (s : State) : s.nextLine.len = s.len := rfl
@[simp] theorem State.nextLine_rval (s : State) : s.nextLine.rval = s.rval := rfl
@[simp] theorem State.nextLine_rcnt (s : State) : s.nextLine.rcnt = s.rcnt := rfl
@[simp] theorem State.nextLine_rerr (s : State) : s.nextLine.rerr = s.rerr := rfl
@[simp] theorem State.nextLine_rte (s : State) : s.nextLine.rte = s.rte := rfl
@[simp] theorem State.nextLine_sb (s : State) : s.nextLine.sb = s.sb := rfl
@[simp] theorem State.nextLine_ph (s : State) : s.nextLine.ph = s.ph := rfl
@[simp] theorem State.nextLine_nreq (s : State) : s.nextLine.nreq = s.nreq := rfl
@[simp] theorem State.nextLine_mem (s : State) : s.nextLine.mem = s.mem := rfl
@[simp] theorem State.nextLine_inTape (s : State) : s.nextLine.inTape = s.inTape := rfl
@[simp] theorem State.nextLine_inEnded (s : State) : s.nextLine.inEnded = s.inEnded := rfl
@[simp] theorem State.nextLine_inTaken (s : State) : s.nextLine.inTaken = s.inTaken := rfl
@[simp] theorem State.nextLine_outTape (s : State) : s.nextLine.outTape = s.outTape := rfl
@[simp] theorem State.nextLine_outSent (s : State) : s.nextLine.outSent = s.outSent := rfl
@[simp] theorem State.nextLine_script (s : State) : s.nextLine.script = s.script := rfl
@[simp] theorem State.nextLine_si (s : State) : s.nextLine.si = s.si + 1 := rfl
@[simp] theorem State.nextLine_pend (s : State) : s.nextLine.pend = s.pend := rfl
@[simp] theorem State.nextLine_waiting (s : State) : s.nextLine.waiting = s.waiting := rfl
@[simp] theorem State.nextLine_log (s : State) : s.nextLine.log = s.log := rfl
@[simp] theorem State.nextLine_turns (s : State) : s.nextLine.turns = s.turns := rfl
@[simp] theorem State.nextLine_portOps (s : State) : s.nextLine.portOps = s.portOps := rfl
@[simp] theorem State.nextLine_freeCtr (s : State) : s.nextLine.freeCtr = s.freeCtr := rfl

@[simp] theorem State.issueLine_cfg (s : State) (ops : List PendingOp) : (s.issueLine ops).cfg = s.cfg := rfl
@[simp] theorem State.issueLine_cmd (s : State) (ops : List PendingOp) : (s.issueLine ops).cmd = s.cmd := rfl
@[simp] theorem State.issueLine_val (s : State) (ops : List PendingOp) : (s.issueLine ops).val = s.val := rfl
@[simp] theorem State.issueLine_base (s : State) (ops : List PendingOp) : (s.issueLine ops).base = s.base := rfl
@[simp] theorem State.issueLine_len (s : State) (ops : List PendingOp) : (s.issueLine ops).len = s.len := rfl
@[simp] theorem State.issueLine_rval (s : State) (ops : List PendingOp) : (s.issueLine ops).rval = s.rval := rfl
@[simp] theorem State.issueLine_rcnt (s : State) (ops : List PendingOp) : (s.issueLine ops).rcnt = s.rcnt := rfl
@[simp] theorem State.issueLine_rerr (s : State) (ops : List PendingOp) : (s.issueLine ops).rerr = s.rerr := rfl
@[simp] theorem State.issueLine_rte (s : State) (ops : List PendingOp) : (s.issueLine ops).rte = s.rte := rfl
@[simp] theorem State.issueLine_sb (s : State) (ops : List PendingOp) : (s.issueLine ops).sb = s.sb := rfl
@[simp] theorem State.issueLine_ph (s : State) (ops : List PendingOp) : (s.issueLine ops).ph = s.ph := rfl
@[simp] theorem State.issueLine_nreq (s : State) (ops : List PendingOp) : (s.issueLine ops).nreq = s.nreq := rfl
@[simp] theorem State.issueLine_mem (s : State) (ops : List PendingOp) : (s.issueLine ops).mem = s.mem := rfl
@[simp] theorem State.issueLine_inTape (s : State) (ops : List PendingOp) : (s.issueLine ops).inTape = s.inTape := rfl
@[simp] theorem State.issueLine_inEnded (s : State) (ops : List PendingOp) : (s.issueLine ops).inEnded = s.inEnded := rfl
@[simp] theorem State.issueLine_inTaken (s : State) (ops : List PendingOp) : (s.issueLine ops).inTaken = s.inTaken := rfl
@[simp] theorem State.issueLine_outTape (s : State) (ops : List PendingOp) : (s.issueLine ops).outTape = s.outTape := rfl
@[simp] theorem State.issueLine_outSent (s : State) (ops : List PendingOp) : (s.issueLine ops).outSent = s.outSent := rfl
@[simp] theorem State.issueLine_script (s : State) (ops : List PendingOp) : (s.issueLine ops).script = s.script := rfl
@[simp] theorem State.issueLine_si (s : State) (ops : List PendingOp) : (s.issueLine ops).si = s.si := rfl
@[simp] theorem State.issueLine_pend (s : State) (ops : List PendingOp) : (s.issueLine ops).pend = ops := rfl
@[simp] theorem State.issueLine_waiting (s : State) (ops : List PendingOp) : (s.issueLine ops).waiting = true := rfl
@[simp] theorem State.issueLine_log (s : State) (ops : List PendingOp) : (s.issueLine ops).log = s.log := rfl
@[simp] theorem State.issueLine_turns (s : State) (ops : List PendingOp) : (s.issueLine ops).turns = s.turns := rfl
@[simp] theorem State.issueLine_portOps (s : State) (ops : List PendingOp) : (s.issueLine ops).portOps = s.portOps := rfl
@[simp] theorem State.issueLine_freeCtr (s : State) (ops : List PendingOp) : (s.issueLine ops).freeCtr = s.freeCtr := rfl

end Sys2Proof.Machine
end

