-- ==== Sys2Proof/Laws/Block.lean ====
section
/-! SUPPORT. What each shared operation of the block can do, said once: the next states it can answer, under which
conditions.  Proofs cite these instead of unfolding the operation. -/

namespace Sys2Proof.Machine

/-! ### Outcomes -/

theorem andThen_next {o : Result} {k : State → Result} {t : State} (h : andThen o k = .next t) :
    ∃ u, o = .next u ∧ k u = .next t := by
  cases o with
  | next u => exact ⟨u, rfl, h⟩
  | fault r => cases h
  | refused r => cases h

@[simp] theorem andThen_next_eq (u : State) (k : State → Result) : andThen (.next u) k = k u := rfl
@[simp] theorem andThen_fault_eq (r : Fault) (k : State → Result) : andThen (.fault r) k = .fault r := rfl
@[simp] theorem andThen_refused_eq (r : Refusal) (k : State → Result) : andThen (.refused r) k = .refused r := rfl

/-! ### BUSY -/

theorem State.busy_iff (s : State) : s.busy = true ↔ s.ph ≠ .idle := by simp [State.busy]

theorem State.not_busy_iff (s : State) : s.busy = false ↔ s.ph = .idle := by simp [State.busy]

/-! ### The staging buffer -/

theorem storeSB_nil (sb : Vector Byte 8) (n : Nat) : storeSB sb n [] = sb := by
  ext i h; simp [storeSB]

theorem storeSB_toList (sb : Vector Byte 8) (off : Nat) (bs : List Byte) (h : off + bs.length ≤ 8) :
    (storeSB sb off bs).toList = sb.toList.take off ++ bs ++ sb.toList.drop (off + bs.length) := by
  apply List.ext_getElem
  · simp [List.length_take, List.length_drop]; omega
  · intro i h1 h2
    simp only [Vector.length_toList] at h1
    simp only [storeSB, Vector.getElem_toList, Vector.getElem_ofFn, List.getElem_append, List.length_append,
      List.length_take, Vector.length_toList, Nat.min_eq_left (show off ≤ 8 by omega)]
    split
    · rename_i hc
      rw [dif_pos (by omega), dif_neg (by omega)]
      simp [List.getD, List.getElem?_eq_getElem hc.2]
    · by_cases hi : i < off
      · rw [dif_pos (by omega), dif_pos hi]; simp
      · rw [dif_neg (by omega)]
        simp [List.getElem_drop]
        congr 1; omega

theorem take_storeSB (sb : Vector Byte 8) (bs : List Byte) (h : bs.length ≤ 8) :
    (storeSB sb 0 bs).toList.take bs.length = bs := by
  rw [storeSB_toList _ _ _ (by omega)]; simp

theorem storeSB_zero_head (sb : Vector Byte 8) (b0 : Byte) : (storeSB sb 0 [b0])[0] = b0 := by simp [storeSB]

theorem storeSB_one_head (sb : Vector Byte 8) (bs : List Byte) : (storeSB sb 1 bs)[0] = sb[0] := by simp [storeSB]

/-- After the second answer's bytes are stored, SB holds the tag byte and those bytes. -/
theorem take_storeSB_one (sb : Vector Byte 8) (bs : List Byte) (h : bs.length ≤ 7) :
    (storeSB sb 1 bs).toList.take (bs.length + 1) = sb[0] :: bs := by
  have hd : sb.toList = sb[0] :: sb.toList.drop 1 := by
    simpa using List.drop_eq_getElem_cons (l := sb.toList) (i := 0) (by simp)
  rw [storeSB_toList _ _ _ (by omega), hd]
  simp

/-- NREQ and RCNT hold every count of the block. -/
theorem toNat_ofNat4 (n : Nat) (h : n ≤ 8) : (BitVec.ofNat 4 n).toNat = n := by
  rw [BitVec.toNat_ofNat]; omega

/-! ### Command words -/

@[simp] theorem familyOf_readCode (f : Family) : familyOf (readCode f) = some f := by cases f <;> rfl
@[simp] theorem familyOf_writeCode (f : Family) : familyOf (writeCode f) = some f := by cases f <;> rfl

/-! ### Encode, Decode, starting a command -/

theorem length_encodeBytes {f : Family} {v : Nat} {bs : List Byte} (h : encodeBytes f v = some bs) :
    0 < bs.length ∧ bs.length ≤ 8 := by
  unfold encodeBytes at h
  split at h
  · cases h
  · rename_i t ht
    cases h
    rw [length_pack]
    refine ⟨LEN_pos _ _, LEN_le _ _ ?_⟩
    have := List.mem_of_find?_eq_some ht
    simpa using this

/-- Everything a host write to CMD can do. -/
theorem startCommand_eq (w : BitVec 4) (body : State → Result) (s : State) :
    (s.busy = true → startCommand w body s = .next s) ∧
    (s.busy = false → startCommand w body s = body { s with cmd := w }) := by
  constructor <;> intro h <;> simp [startCommand, h]

/-- The two forms of the host's duty on a buffer: as the test of the model, and address by address as R208 says it. -/
theorem isOrdinaryRange_iff (c : Config) (base len : Nat) :
    isOrdinaryRange c base len = true ↔ ∀ i < len, isOrdinary c (base + i) = true := by
  simp only [isOrdinaryRange, isOrdinary, regionHas, List.all_eq_true, decide_eq_true_eq, Bool.not_eq_true',
    decide_eq_false_iff_not]
  constructor
  · intro h i hi r hr hin
    have := h r hr
    omega
  · intro h r hr
    by_contra hc
    refine h (max r.base base - base) (by omega) r hr (by omega)

/-- The host has kept its duty on the buffer exactly when R208 holds of it. -/
theorem State.badBuffer_eq_none_iff (s : State) :
    s.badBuffer = none ↔ s.base + s.len ≤ 2 ^ s.cfg.addrW ∧ ∀ i < s.len, isOrdinary s.cfg (s.base + i) = true := by
  rw [← isOrdinaryRange_iff]
  unfold State.badBuffer
  split
  · simp; omega
  · split
    · simp_all
    · simp_all

/-- Storing a command word leaves the duty on the buffer as it is. -/
@[simp] theorem State.badBuffer_cmd (s : State) (w : BitVec 4) : ({ s with cmd := w } : State).badBuffer = s.badBuffer := rfl

theorem onBuffer_good {body : State → Result} {s : State} (h : s.badBuffer = none) : onBuffer body s = body s := by
  simp [onBuffer, h]

theorem onBuffer_bad {body : State → Result} {s : State} {r : Refusal} (h : s.badBuffer = some r) :
    onBuffer body s = .refused r := by
  simp [onBuffer, h]

/-- A buffer command answers a next state only when the host has kept its duty. -/
theorem onBuffer_next {body : State → Result} {s t : State} (h : onBuffer body s = .next t) :
    s.badBuffer = none ∧ body s = .next t := by
  unfold onBuffer at h
  split at h
  · cases h
  · rename_i hb; exact ⟨hb, h⟩

/-- Everything Encode can do. -/
theorem encodeBuffer_next {f : Family} {s t : State} (h : encodeBuffer f s = .next t) :
    s.badBuffer = none ∧
    ((encodeBytes f s.val.toNat = none ∧ t = s.raise .valueTooLarge 0) ∨
     ∃ bs, encodeBytes f s.val.toNat = some bs ∧
       ((s.len < bs.length ∧ t = s.raise .bufferTooSmall 0) ∨
        (bs.length ≤ s.len ∧ t = (s.memWrite s.base bs).complete 0 bs.length))) := by
  obtain ⟨hb, h⟩ := onBuffer_next h
  refine ⟨hb, ?_⟩
  split at h
  · rename_i he; cases h; exact .inl ⟨he, rfl⟩
  · rename_i bs he
    split at h <;> cases h
    · rename_i hl; exact .inr ⟨bs, he, .inl ⟨hl, rfl⟩⟩
    · rename_i hl; exact .inr ⟨bs, he, .inr ⟨by omega, rfl⟩⟩

/-- Encode on a buffer that keeps the host's duty. -/
theorem encodeBuffer_good (f : Family) {s : State} (h : s.badBuffer = none) :
    encodeBuffer f s =
      match encodeBytes f s.val.toNat with
      | none => .next (s.raise .valueTooLarge 0)
      | some bs =>
        if s.len < bs.length then .next (s.raise .bufferTooSmall 0)
        else .next ((s.memWrite s.base bs).complete 0 bs.length) :=
  onBuffer_good h

/-- Encode answers a next state whenever the host has kept its duty on the buffer. -/
theorem encodeBuffer_completes (f : Family) (s : State) (h : s.badBuffer = none) : ∃ t, encodeBuffer f s = .next t := by
  rw [encodeBuffer_good f h]
  split
  · exact ⟨_, rfl⟩
  · split <;> exact ⟨_, rfl⟩

/-- Everything Decode can do. -/
theorem decodeBuffer_next {f : Family} {s t : State} (h : decodeBuffer f s = .next t) :
    s.badBuffer = none ∧
    ((s.len = 0 ∧ t = s.raise .bufferEmpty 0) ∨
     (s.len ≠ 0 ∧ s.len < lengthOf f (s.mem.byteAt s.base) ∧
       t = (s.note (memReadOps s.base 1)).raise .invalidEncoding 0) ∨
     (s.len ≠ 0 ∧ lengthOf f (s.mem.byteAt s.base) ≤ s.len ∧
       t = (s.note (memReadOps s.base (lengthOf f (s.mem.byteAt s.base)))).complete
         (unpack f (s.mem.readBytes s.base (lengthOf f (s.mem.byteAt s.base))))
         (lengthOf f (s.mem.byteAt s.base)))) := by
  obtain ⟨hb, h⟩ := onBuffer_next h
  refine ⟨hb, ?_⟩
  split at h
  · rename_i h0; cases h; exact .inl ⟨h0, rfl⟩
  · rename_i h0
    dsimp only at h
    split at h <;> cases h
    · rename_i hl; exact .inr (.inl ⟨h0, hl, rfl⟩)
    · rename_i hl; exact .inr (.inr ⟨h0, by omega, rfl⟩)

/-- Decode on a buffer that keeps the host's duty. -/
theorem decodeBuffer_good (f : Family) {s : State} (h : s.badBuffer = none) :
    decodeBuffer f s =
      if s.len = 0 then .next (s.raise .bufferEmpty 0) else
      let L := lengthOf f (s.mem.byteAt s.base)
      if s.len < L then .next ((s.note (memReadOps s.base 1)).raise .invalidEncoding 0)
      else .next ((s.note (memReadOps s.base L)).complete (unpack f (s.mem.readBytes s.base L)) L) :=
  onBuffer_good h

/-- Decode answers a next state whenever the host has kept its duty on the buffer. -/
theorem decodeBuffer_completes (f : Family) (s : State) (h : s.badBuffer = none) : ∃ t, decodeBuffer f s = .next t := by
  rw [decodeBuffer_good f h]
  split
  · exact ⟨_, rfl⟩
  · dsimp only; split <;> exact ⟨_, rfl⟩

/-- A buffer that breaks the host's duty is refused before anything else is looked at. -/
theorem badBuffer_refused (f : Family) (s : State) {r : Refusal} (h : s.badBuffer = some r) :
    encodeBuffer f s = .refused r ∧ decodeBuffer f s = .refused r :=
  ⟨onBuffer_bad h, onBuffer_bad h⟩

/-! ### The stream protocols -/

/-- Everything a Write's issue step can do. -/
theorem startWrite_next {f : Family} {s t : State} (h : startWrite f s = .next t) :
    (encodeBytes f s.val.toNat = none ∧ t = s.raise .valueTooLarge 0) ∨
    ∃ bs, encodeBytes f s.val.toNat = some bs ∧
      t = { s with
        sb := storeSB s.sb 0 bs, ph := .wrData, nreq := BitVec.ofNat 4 bs.length
        portOps := s.portOps ++ [.streamWrite bs] } := by
  unfold startWrite at h
  split at h <;> cases h
  · rename_i he; exact .inl ⟨he, rfl⟩
  · rename_i bs he; exact .inr ⟨bs, he, rfl⟩

/-- What the block does with an answer to its first request. -/
theorem onReadAnswer_rdTag {a : ReadAnswer} {s : State} {f : Family} (hp : s.ph = .rdTag)
    (hf : familyOf s.cmd = some f) :
    onReadAnswer a s =
      if s.acceptsAnswer a then firstAnswer f a (s.takeAnswer a) else .refused .answerMisfit := by
  simp only [onReadAnswer, hp, hf]

/-- What the block does with an answer to its second request. -/
theorem onReadAnswer_rdCont {a : ReadAnswer} {s : State} {f : Family} (hp : s.ph = .rdCont)
    (hf : familyOf s.cmd = some f) :
    onReadAnswer a s =
      if s.acceptsAnswer a then secondAnswer f a (s.takeAnswer a) else .refused .answerMisfit := by
  simp only [onReadAnswer, hp, hf]

/-- Everything an answer of the input stream can do. -/
theorem onReadAnswer_next {a : ReadAnswer} {s t : State} (h : onReadAnswer a s = .next t) :
    ∃ f, familyOf s.cmd = some f ∧ s.acceptsAnswer a = true ∧
      ((s.ph = .rdTag ∧ firstAnswer f a (s.takeAnswer a) = .next t) ∨
       (s.ph = .rdCont ∧ secondAnswer f a (s.takeAnswer a) = .next t)) := by
  unfold onReadAnswer at h
  split at h
  · cases h
  · cases h
  · rename_i hp
    split at h
    · cases h
    · rename_i f hf
      split at h
      · rename_i ha; exact ⟨f, hf, ha, .inl ⟨hp, h⟩⟩
      · cases h
  · rename_i hp
    split at h
    · cases h
    · rename_i f hf
      split at h
      · rename_i ha; exact ⟨f, hf, ha, .inr ⟨hp, h⟩⟩
      · cases h

/-- Everything an answer to the first request can do. -/
theorem firstAnswer_next {f : Family} {a : ReadAnswer} {s t : State} (h : firstAnswer f a s = .next t) :
    (∃ bs, a = .short bs .eoi ∧ t = s.raise .streamEmpty 0) ∨
    (∃ bs e, a = .short bs (.err e) ∧ t = s.raiseTransport 0 e) ∨
    ∃ b0 bs, a = .full (b0 :: bs) ∧
      ((remainingOf f b0 = 0 ∧ t = { s with sb := storeSB s.sb 0 [b0] }.complete (unpack f [b0]) 1) ∨
       (remainingOf f b0 ≠ 0 ∧
         t = { s with
           sb := storeSB s.sb 0 [b0], ph := .rdCont, nreq := BitVec.ofNat 4 (remainingOf f b0)
           portOps := s.portOps ++ [.streamRead (remainingOf f b0)] })) := by
  unfold firstAnswer at h
  split at h
  · rename_i bs; cases h; exact .inl ⟨bs, rfl, rfl⟩
  · rename_i bs e; cases h; exact .inr (.inl ⟨bs, e, rfl, rfl⟩)
  · cases h
  · rename_i b0 bs
    dsimp only at h
    split at h <;> cases h
    · rename_i hr; exact .inr (.inr ⟨b0, bs, rfl, .inl ⟨hr, rfl⟩⟩)
    · rename_i hr; exact .inr (.inr ⟨b0, bs, rfl, .inr ⟨hr, rfl⟩⟩)

/-- Everything an answer to the second request can do; it always completes the command. -/
theorem secondAnswer_next {f : Family} {a : ReadAnswer} {s t : State} (h : secondAnswer f a s = .next t) :
    (∃ bs, a = .short bs .eoi ∧ t = s.raise .invalidEncoding (1 + bs.length)) ∨
    (∃ bs e, a = .short bs (.err e) ∧ t = s.raiseTransport (1 + bs.length) e) ∨
    ∃ bs, a = .full bs ∧
      t = { s with sb := storeSB s.sb 1 bs }.complete
        (unpack f ((storeSB s.sb 1 bs).toList.take (bs.length + 1))) (bs.length + 1) := by
  unfold secondAnswer at h
  split at h
  · rename_i bs; cases h; exact .inl ⟨bs, rfl, rfl⟩
  · rename_i bs e; cases h; exact .inr (.inl ⟨bs, e, rfl, rfl⟩)
  · rename_i bs; cases h; exact .inr (.inr ⟨bs, rfl, rfl⟩)

/-- What the block does with an answer of the output stream. -/
theorem onWriteAnswer_wrData {a : WriteAnswer} {s : State} (hp : s.ph = .wrData) :
    onWriteAnswer a s =
      if a.fits s.nreq.toNat s.cfg.teW then
        match a with
        | .all => .next ({ s with outSent := s.outSent ++ s.staged s.nreq.toNat }.complete 0 s.nreq.toNat)
        | .partOnly m e =>
          .next ({ s with outSent := s.outSent ++ (s.staged s.nreq.toNat).take m }.raiseTransport m e)
      else .refused .answerMisfit := by
  unfold onWriteAnswer
  split <;> first | rfl | simp_all

/-- Everything an answer of the output stream can do. -/
theorem onWriteAnswer_next {a : WriteAnswer} {s t : State} (h : onWriteAnswer a s = .next t) :
    s.ph = .wrData ∧
    ((a = .all ∧ t = { s with outSent := s.outSent ++ s.staged s.nreq.toNat }.complete 0 s.nreq.toNat) ∨
     ∃ m e, a = .partOnly m e ∧ m < s.nreq.toNat ∧ e < 2 ^ s.cfg.teW ∧
       t = { s with outSent := s.outSent ++ (s.staged s.nreq.toNat).take m }.raiseTransport m e) := by
  have hp : s.ph = .wrData := by
    unfold onWriteAnswer at h
    split at h <;> first | cases h | assumption
  refine ⟨hp, ?_⟩
  rw [onWriteAnswer_wrData hp] at h
  split at h
  · rename_i hfit
    cases a with
    | all => cases h; exact .inl ⟨rfl, rfl⟩
    | partOnly m e =>
      cases h
      simp [WriteAnswer.fits] at hfit
      exact .inr ⟨m, e, rfl, hfit.1, hfit.2, rfl⟩
  · cases h

/-! ### Feeding answers -/

@[simp] theorem feed_nil (s : State) : feed [] s = .next s := rfl

theorem feed_idle (as : List Answer) (s : State) (h : s.busy = false) : feed as s = .next s := by
  cases as with
  | nil => rfl
  | cons a as => simp [feed, h]

theorem feed_cons_busy (a : Answer) (as : List Answer) (s : State) (h : s.busy = true) :
    feed (a :: as) s = andThen (onAnswer a s) (feed as) := by simp [feed, h]

/-! ### The host's writes -/

theorem State.hostWrite_busy (s : State) (w : RegWrite) (h : s.busy = true) : s.hostWrite w = s := by
  simp [State.hostWrite, h]

/-- BASE and LEN never hold a number outside their width. -/
theorem State.addrOf_lt (s : State) (v : Int) : s.addrOf v < 2 ^ s.cfg.addrW := by
  unfold State.addrOf Config.holds
  split
  · rename_i h
    simp only [decide_eq_true_eq] at h
    have h2 := h.2
    have h3 : ((v.toNat : Nat) : Int) = v := Int.toNat_of_nonneg h.1
    rw [← h3] at h2
    exact_mod_cast h2
  · exact Nat.mod_lt _ (Nat.two_pow_pos _)

/-- A number the register can hold is stored as it is, and no free value is taken. -/
theorem State.addrOf_of_lt (s : State) (n : Nat) (h : n < 2 ^ s.cfg.addrW) :
    s.addrOf n = n ∧ s.freeAfter n = s.freeCtr := by
  have : Config.holds s.cfg n = true := by
    simp only [Config.holds, decide_eq_true_eq]
    exact ⟨Int.natCast_nonneg n, by exact_mod_cast h⟩
  simp [State.addrOf, State.freeAfter, this]

end Sys2Proof.Machine
end

