-- ==== Sys2Proof/Laws/Memory.lean ====
section
/-! SUPPORT. Buffer memory: what a write leaves at each address, and that every memory operation keeps the canonical
form. -/

namespace Sys2Proof.Machine

theorem Memory.wf_cons_iff (c : Host.Cell) (m : Memory) :
    Memory.wf (c :: m) = true ↔ (∀ d ∈ m, c.1 < d.1) ∧ Memory.wf m = true := by
  induction m generalizing c with
  | nil => simp [Memory.wf]
  | cons d m ih =>
    obtain ⟨a, x⟩ := c
    obtain ⟨b, y⟩ := d
    simp only [Memory.wf, Bool.and_eq_true, decide_eq_true_eq, List.mem_cons, forall_eq_or_imp]
    constructor
    · rintro ⟨hab, hm⟩
      exact ⟨⟨hab, fun d hd => Nat.lt_trans hab (((ih (b, y)).mp hm).1 d hd)⟩, hm⟩
    · rintro ⟨⟨hab, -⟩, hm⟩
      exact ⟨hab, hm⟩

theorem Memory.mem_write (m : Memory) (a : Nat) (b : Byte) (c : Host.Cell) (h : c ∈ m.write a b) :
    c = (a, b) ∨ c ∈ m := by
  induction m with
  | nil => simpa [Memory.write] using h
  | cons d m ih =>
    obtain ⟨e, x⟩ := d
    simp only [Memory.write] at h
    split at h
    · simpa using h
    · split at h
      · subst a
        rcases List.mem_cons.mp h with h | h
        · exact .inl h
        · exact .inr (List.mem_cons_of_mem _ h)
      · rcases List.mem_cons.mp h with h | h
        · exact .inr (h ▸ List.mem_cons_self)
        · exact (ih h).imp_right (List.mem_cons_of_mem _)

theorem Memory.wf_write (m : Memory) (a : Nat) (b : Byte) (h : m.wf = true) : (m.write a b).wf = true := by
  induction m with
  | nil => rfl
  | cons d m ih =>
    obtain ⟨e, x⟩ := d
    rw [Memory.wf_cons_iff] at h
    simp only [Memory.write]
    split
    · rename_i hae
      rw [Memory.wf_cons_iff, Memory.wf_cons_iff]
      refine ⟨fun c hc => ?_, h⟩
      rcases List.mem_cons.mp hc with rfl | hc
      · exact hae
      · exact Nat.lt_trans hae (h.1 c hc)
    · split
      · subst a
        rw [Memory.wf_cons_iff]
        exact h
      · rw [Memory.wf_cons_iff]
        refine ⟨fun c hc => ?_, ih h.2⟩
        rcases Memory.mem_write m a b c hc with rfl | hc
        · show e < a
          omega
        · exact h.1 c hc

theorem Memory.wf_writeBytes (m : Memory) (a : Nat) (bs : List Byte) (h : m.wf = true) :
    (m.writeBytes a bs).wf = true := by
  induction bs generalizing m a with
  | nil => exact h
  | cons b bs ih => exact ih _ _ (Memory.wf_write m a b h)

theorem Memory.mem_writeBytes (m : Memory) (a : Nat) (bs : List Byte) (c : Host.Cell)
    (h : c ∈ m.writeBytes a bs) : (a ≤ c.1 ∧ c.1 < a + bs.length) ∨ c ∈ m := by
  induction bs generalizing m a with
  | nil => exact .inr h
  | cons b bs ih =>
    rcases ih _ _ h with h | h
    · exact .inl (by simp only [List.length_cons]; omega)
    · rcases Memory.mem_write m a b c h with rfl | h
      · exact .inl (by simp)
      · exact .inr h

theorem Memory.read?_write (m : Memory) (a : Nat) (b : Byte) (c : Nat) :
    (m.write a b).read? c = if c = a then some b else m.read? c := by
  induction m with
  | nil => rfl
  | cons d m ih =>
    obtain ⟨e, x⟩ := d
    simp only [Memory.write]
    split
    · rfl
    · split
      · subst a
        simp only [Memory.read?]
        split <;> rfl
      · simp only [Memory.read?, ih]
        split
        · subst c
          rw [if_neg (by omega)]
        · rfl

theorem Memory.byteAt_write (m : Memory) (a : Nat) (b : Byte) (c : Nat) :
    (m.write a b).byteAt c = if c = a then b else m.byteAt c := by
  simp only [Memory.byteAt, Memory.read?_write]
  split <;> rfl

/-- Equal memories are equal data: two canonical memories that read the same are the same list. -/
theorem Memory.eq_of_read? (m n : Memory) (hm : m.wf = true) (hn : n.wf = true)
    (h : ∀ a, m.read? a = n.read? a) : m = n := by
  have gone : ∀ (p : Memory) (a : Nat), (∀ d ∈ p, a < d.1) → p.read? a = none := by
    intro p a hp
    induction p with
    | nil => rfl
    | cons d p ih =>
      obtain ⟨e, x⟩ := d
      have hlt : a < e := hp (e, x) List.mem_cons_self
      simp only [Memory.read?, if_neg (show ¬ a = e by omega)]
      exact ih fun d hd => hp d (List.mem_cons_of_mem _ hd)
  induction m generalizing n with
  | nil =>
    cases n with
    | nil => rfl
    | cons d n =>
      obtain ⟨e, x⟩ := d
      simpa [Memory.read?] using h e
  | cons c m ih =>
    obtain ⟨e, x⟩ := c
    cases n with
    | nil => simpa [Memory.read?] using h e
    | cons d n =>
      obtain ⟨e', x'⟩ := d
      rw [Memory.wf_cons_iff] at hm hn
      have he : e = e' := by
        rcases Nat.lt_trichotomy e e' with hlt | heq | hgt
        · have := h e
          rw [gone ((e', x') :: n) e] at this
          · simp [Memory.read?] at this
          · intro d hd
            rcases List.mem_cons.mp hd with rfl | hd
            · exact hlt
            · exact Nat.lt_trans hlt (hn.1 d hd)
        · exact heq
        · have := h e'
          rw [gone ((e, x) :: m) e'] at this
          · simp [Memory.read?] at this
          · intro d hd
            rcases List.mem_cons.mp hd with rfl | hd
            · exact hgt
            · exact Nat.lt_trans hgt (hm.1 d hd)
      subst he
      have hx : x = x' := by simpa [Memory.read?] using h e
      subst hx
      congr 1
      refine ih n hm.2 hn.2 fun a => ?_
      by_cases ha : a = e
      · subst ha
        rw [gone m a hm.1, gone n a hn.1]
      · simpa [Memory.read?, ha] using h a

theorem Memory.length_readBytes (m : Memory) (a n : Nat) : (m.readBytes a n).length = n := by
  simp [Memory.readBytes]

end Sys2Proof.Machine
end

