-- ==== Sys2Proof/Laws/PerInstr.lean ====
section
/-! SUPPORT. What holds of every instruction as syntax, per constructor. -/

namespace Sys2Proof.Laws.EncodingShape

open Machine

/-- The shape of an instruction's bytes: a command is one byte, its 4-bit word, which decodes to it (R60 to R63); a data
item has a tag of its family, a payload that fits the tag's width, and as many bytes as its tag declares (R50). -/
def Statement (i : Instr) : Prop :=
  match i.item? with
  | none => ∃ w, cmdWord i = some w ∧ decodeCmd w = i ∧ encode i = [w.setWidth 8]
  | some (f, t, v) => t < 2 ^ K f ∧ v < 2 ^ PBITS f t ∧ (encode i).length = LEN f t

theorem encN : Statement .encN := ⟨_, rfl, rfl, rfl⟩
theorem encM : Statement .encM := ⟨_, rfl, rfl, rfl⟩
theorem encW : Statement .encW := ⟨_, rfl, rfl, rfl⟩
theorem wrN : Statement .wrN := ⟨_, rfl, rfl, rfl⟩
theorem wrM : Statement .wrM := ⟨_, rfl, rfl, rfl⟩
theorem wrW : Statement .wrW := ⟨_, rfl, rfl, rfl⟩
theorem decN : Statement .decN := ⟨_, rfl, rfl, rfl⟩
theorem decM : Statement .decM := ⟨_, rfl, rfl, rfl⟩
theorem decW : Statement .decW := ⟨_, rfl, rfl, rfl⟩
theorem rdN : Statement .rdN := ⟨_, rfl, rfl, rfl⟩
theorem rdM : Statement .rdM := ⟨_, rfl, rfl, rfl⟩
theorem rdW : Statement .rdW := ⟨_, rfl, rfl, rfl⟩
theorem reserved3 : Statement .reserved3 := ⟨_, rfl, rfl, rfl⟩
theorem reserved7 : Statement .reserved7 := ⟨_, rfl, rfl, rfl⟩
theorem reservedB : Statement .reservedB := ⟨_, rfl, rfl, rfl⟩
theorem reservedF : Statement .reservedF := ⟨_, rfl, rfl, rfl⟩

theorem nL1 (v : BitVec 7) : Statement (.nL1 v) := ⟨by decide, v.isLt, length_pack _ _ _⟩
theorem nL2 (v : BitVec 15) : Statement (.nL2 v) := ⟨by decide, v.isLt, length_pack _ _ _⟩
theorem mL1 (v : BitVec 6) : Statement (.mL1 v) := ⟨by decide, v.isLt, length_pack _ _ _⟩
theorem mL2 (v : BitVec 14) : Statement (.mL2 v) := ⟨by decide, v.isLt, length_pack _ _ _⟩
theorem mL3 (v : BitVec 22) : Statement (.mL3 v) := ⟨by decide, v.isLt, length_pack _ _ _⟩
theorem mL4 (v : BitVec 30) : Statement (.mL4 v) := ⟨by decide, v.isLt, length_pack _ _ _⟩
theorem wL1 (v : BitVec 6) : Statement (.wL1 v) := ⟨by decide, v.isLt, length_pack _ _ _⟩
theorem wL2 (v : BitVec 14) : Statement (.wL2 v) := ⟨by decide, v.isLt, length_pack _ _ _⟩
theorem wL4 (v : BitVec 30) : Statement (.wL4 v) := ⟨by decide, v.isLt, length_pack _ _ _⟩
theorem wL8 (v : BitVec 62) : Statement (.wL8 v) := ⟨by decide, v.isLt, length_pack _ _ _⟩

end Sys2Proof.Laws.EncodingShape
end

