-- ==== Sys2Proof/Laws/Step.lean ====
section
/-! SUPPORT. What a step can do, said once; and the few shapes an instruction's meaning has. -/

namespace Sys2Proof.Machine

/-- The shapes of an instruction's meaning: a command of one of the five kinds, or an item read from a source. -/
theorem exec_shape (i : Instr) :
    (∃ f, i = encInstr f ∧ ∀ s, exec i s = startCommand (encodeCode f) (encodeBuffer f) s) ∨
    (∃ f, i = decInstr f ∧ ∀ s, exec i s = startCommand (decodeCode f) (decodeBuffer f) s) ∨
    (∃ f, i = wrInstr f ∧ ∀ s, exec i s = startCommand (writeCode f) (startWrite f) s) ∨
    (∃ f, i = rdInstr f ∧ ∀ s, exec i s = startCommand (readCode f) startRead s) ∨
    ((i = .reserved3 ∨ i = .reserved7 ∨ i = .reservedB ∨ i = .reservedF) ∧
      ∃ w, cmdWord i = some w ∧ ∀ s, exec i s = startCommand w illegalCommand s) ∨
    ∃ f t v, i.item? = some (f, t, v) ∧ ∀ s, exec i s = readFrom f (pack f t v) s := by
  cases i
  case encN => exact .inl ⟨.narrow, rfl, fun _ => rfl⟩
  case encM => exact .inl ⟨.medium, rfl, fun _ => rfl⟩
  case encW => exact .inl ⟨.wide, rfl, fun _ => rfl⟩
  case decN => exact .inr (.inl ⟨.narrow, rfl, fun _ => rfl⟩)
  case decM => exact .inr (.inl ⟨.medium, rfl, fun _ => rfl⟩)
  case decW => exact .inr (.inl ⟨.wide, rfl, fun _ => rfl⟩)
  case wrN => exact .inr (.inr (.inl ⟨.narrow, rfl, fun _ => rfl⟩))
  case wrM => exact .inr (.inr (.inl ⟨.medium, rfl, fun _ => rfl⟩))
  case wrW => exact .inr (.inr (.inl ⟨.wide, rfl, fun _ => rfl⟩))
  case rdN => exact .inr (.inr (.inr (.inl ⟨.narrow, rfl, fun _ => rfl⟩)))
  case rdM => exact .inr (.inr (.inr (.inl ⟨.medium, rfl, fun _ => rfl⟩)))
  case rdW => exact .inr (.inr (.inr (.inl ⟨.wide, rfl, fun _ => rfl⟩)))
  case reserved3 => exact .inr (.inr (.inr (.inr (.inl ⟨by simp, _, rfl, fun _ => rfl⟩))))
  case reserved7 => exact .inr (.inr (.inr (.inr (.inl ⟨by simp, _, rfl, fun _ => rfl⟩))))
  case reservedB => exact .inr (.inr (.inr (.inr (.inl ⟨by simp, _, rfl, fun _ => rfl⟩))))
  case reservedF => exact .inr (.inr (.inr (.inr (.inl ⟨by simp, _, rfl, fun _ => rfl⟩))))
  all_goals exact .inr (.inr (.inr (.inr (.inr ⟨_, _, _, rfl, fun _ => rfl⟩))))

/-- R17: while the block is busy an instruction is dropped. -/
theorem exec_busy (i : Instr) (s : State) (h : s.busy = true) : exec i s = .next s := by
  rcases exec_shape i with ⟨_, -, e⟩ | ⟨_, -, e⟩ | ⟨_, -, e⟩ | ⟨_, -, e⟩ | ⟨-, _, -, e⟩ | ⟨_, _, _, -, e⟩ <;> rw [e]
  case inr.inr.inr.inr.inr => simp [readFrom, h]
  all_goals exact (startCommand_eq _ _ _).1 h

/-- What a read from a source can do: dropped while the block is busy; otherwise one answer, and a second one when the
block still waits. -/
theorem readFrom_next {f : Family} {bs : List Byte} {s t : State} (h : readFrom f bs s = .next t) :
    (s.busy = true ∧ t = s) ∨
    (s.busy = false ∧ ∃ u,
      onReadAnswer (serve bs 1)
        { s with
          cmd := readCode f, inEnded := false, ph := .rdTag, nreq := 1
          portOps := s.portOps ++ [.streamRead 1] } = .next u ∧
      ((u.busy = false ∧ t = u) ∨
       (u.busy = true ∧ onReadAnswer (serve (bs.drop 1) u.nreq.toNat) u = .next t))) := by
  unfold readFrom at h
  split at h
  · rename_i hb; cases h; exact .inl ⟨hb, rfl⟩
  · rename_i hb
    refine .inr ⟨by simpa using hb, ?_⟩
    obtain ⟨s1, h1, h⟩ := andThen_next h
    cases h1
    obtain ⟨u, hu, h⟩ := andThen_next h
    refine ⟨u, hu, ?_⟩
    split at h
    · rename_i hub; exact .inr ⟨hub, h⟩
    · rename_i hub; cases h; exact .inl ⟨by simpa using hub, rfl⟩

/-- What beginning a script line can do: the block, its registers and streams stay as they are; a store line writes one
byte of ordinary memory that exists. -/
theorem issue_next {d : Directive} {s t : State} (h : issue d s = .next t) :
    t = { s with
      mem := t.mem, inEnded := t.inEnded, si := t.si, pend := t.pend, waiting := t.waiting, log := t.log } ∧
    (t.inEnded = s.inEnded ∨ t.inEnded = false ∧ s.ph ≠ .rdTag ∧ s.ph ≠ .rdCont) ∧
    (t.mem = s.mem ∨ ∃ a b, d = .store a b ∧ a < 2 ^ s.cfg.addrW ∧ isOrdinary s.cfg a = true ∧
      t.mem = s.mem.write a b) := by
  have jump : ∀ l, s.jump l = .next t → ∃ n, t = { s with si := n } := by
    intro l h
    unfold State.jump at h
    split at h <;> cases h
    exact ⟨_, rfl⟩
  have same : ∀ n, t = { s with si := n } → t = { s with
      mem := t.mem, inEnded := t.inEnded, si := t.si, pend := t.pend, waiting := t.waiting, log := t.log } ∧
    (t.inEnded = s.inEnded ∨ t.inEnded = false ∧ s.ph ≠ .rdTag ∧ s.ph ≠ .rdCont) ∧
    (t.mem = s.mem ∨ ∃ a b, d = .store a b ∧ a < 2 ^ s.cfg.addrW ∧ isOrdinary s.cfg a = true ∧
      t.mem = s.mem.write a b) := by
    rintro n rfl; exact ⟨rfl, .inl rfl, .inl rfl⟩
  cases d with
  | jok l =>
    simp only [issue] at h
    split at h
    · obtain ⟨n, hn⟩ := jump l h; exact same n hn
    · cases h; exact same _ rfl
  | jerr l =>
    simp only [issue] at h
    split at h
    · obtain ⟨n, hn⟩ := jump l h; exact same n hn
    · cases h; exact same _ rfl
  | halt =>
    simp only [issue] at h
    split at h <;> cases h
    exact ⟨rfl, .inl rfl, .inl rfl⟩
  | store a b =>
    simp only [issue] at h
    split at h
    · rename_i ha
      split at h <;> cases h
      rename_i ho
      exact ⟨rfl, .inl rfl, .inr ⟨a, b, rfl, ha, ho, rfl⟩⟩
    · cases h
  | connectSource =>
    simp only [issue] at h
    split at h
    · cases h
    · rename_i hp; cases h; exact ⟨rfl, .inr ⟨rfl, by tauto⟩, .inl rfl⟩
  | enc | encNext | dec | decNext | wr | rd | adv | log | raw =>
    cases h; exact ⟨rfl, .inl rfl, .inl rfl⟩

/-- Everything a step can do: a reset; an answer of a stream; a host action, which runs an instruction, writes a
register or offers bytes that are no item; or the host waiting, going on, or beginning a line. -/
theorem step_next {s t : State} (h : step s = .next t) :
    ∃ ts, (s.turns = [] ∧ ts = [] ∨ ∃ x, s.turns = x :: ts) ∧
    ((∃ n bs, s.turns = .reset n bs :: ts ∧ t = { s with turns := ts }.resetBlock n bs) ∨
     (∃ a rest, s.inTape = a :: rest ∧ onReadAnswer a { s with turns := ts, inTape := rest } = .next t) ∨
     (∃ a rest, s.outTape = a :: rest ∧ onWriteAnswer a { s with turns := ts, outTape := rest } = .next t) ∨
     (∃ op rest i, s.pend = op :: rest ∧
         ((∃ w, op = .command w ∧ i = decodeCmd w) ∨
          ∃ f bs r, op = .source f bs ∧ decode (.data f) bs = .ok (i, r)) ∧
         exec i { s with turns := ts, pend := rest } = .next t) ∨
     (∃ w rest, s.pend = .write w :: rest ∧ t = { s with turns := ts, pend := rest }.hostWrite w) ∨
     (∃ f bs rest, s.pend = .source f bs :: rest ∧ readFrom f bs { s with turns := ts, pend := rest } = .next t) ∨
     (s.pend = [] ∧ s.waiting = true ∧ s.busy = true ∧ t = { s with turns := ts }) ∨
     (s.pend = [] ∧ s.waiting = true ∧ s.busy = false ∧ t = { s with turns := ts, si := s.si + 1, waiting := false }) ∨
     (s.pend = [] ∧ s.waiting = false ∧
       ∃ x, s.script[s.si]? = some x ∧ issue x.act { s with turns := ts } = .next t)) := by
  have host : ∀ ts : List Turn,
      (match hostTurn { s with turns := ts } with | .run i u => exec i u | .done o => o) = .next t →
      (∃ op rest i, s.pend = op :: rest ∧
         ((∃ w, op = .command w ∧ i = decodeCmd w) ∨
          ∃ f bs r, op = .source f bs ∧ decode (.data f) bs = .ok (i, r)) ∧
         exec i { s with turns := ts, pend := rest } = .next t) ∨
      (∃ w rest, s.pend = .write w :: rest ∧ t = { s with turns := ts, pend := rest }.hostWrite w) ∨
      (∃ f bs rest, s.pend = .source f bs :: rest ∧ readFrom f bs { s with turns := ts, pend := rest } = .next t) ∨
      (s.pend = [] ∧ s.waiting = true ∧ s.busy = true ∧ t = { s with turns := ts }) ∨
      (s.pend = [] ∧ s.waiting = true ∧ s.busy = false ∧
        t = { s with turns := ts, si := s.si + 1, waiting := false }) ∨
      (s.pend = [] ∧ s.waiting = false ∧
        ∃ x, s.script[s.si]? = some x ∧ issue x.act { s with turns := ts } = .next t) := by
    intro ts h
    unfold hostTurn at h
    cases hp : s.pend with
    | cons op rest =>
      simp only [hp] at h
      cases op with
      | command w => exact .inl ⟨_, _, _, rfl, .inl ⟨w, rfl, rfl⟩, h⟩
      | write w => cases h; exact .inr (.inl ⟨w, rest, rfl, rfl⟩)
      | source f bs =>
        simp only [perform] at h
        split at h <;> rename_i heq <;> split at heq <;> cases heq
        · rename_i hd; exact .inl ⟨_, _, _, rfl, .inr ⟨f, bs, _, rfl, hd⟩, h⟩
        · exact .inr (.inr (.inl ⟨f, bs, rest, rfl, h⟩))
    | nil =>
      simp only [hp] at h
      refine .inr (.inr (.inr ?_))
      split at h <;> rename_i heq
      · split at heq
        · split at heq <;> cases heq
        · split at heq <;> cases heq
      · split at heq
        · rename_i hw
          split at heq <;> cases heq <;> cases h
          · rename_i hb; exact .inl ⟨rfl, hw, hb, by simp [← hp]⟩
          · rename_i hb
            exact .inr (.inl ⟨rfl, hw, by simpa [State.busy] using hb, by simp [State.nextLine, ← hp]⟩)
        · rename_i hw
          split at heq <;> cases heq
          · cases h
          · rename_i x hx
            refine .inr (.inr ⟨rfl, by simpa using hw, x, hx, ?_⟩)
            simpa [← hp] using h
  have turn : ∀ (tn : Turn) (ts : List Turn),
      (match agentTurn tn { s with turns := ts } with | .run i u => exec i u | .done o => o) = .next t →
      ((∃ n bs, tn = .reset n bs ∧ t = { s with turns := ts }.resetBlock n bs) ∨
       (∃ a rest, s.inTape = a :: rest ∧ onReadAnswer a { s with turns := ts, inTape := rest } = .next t) ∨
       (∃ a rest, s.outTape = a :: rest ∧ onWriteAnswer a { s with turns := ts, outTape := rest } = .next t) ∨
       (∃ op rest i, s.pend = op :: rest ∧
         ((∃ w, op = .command w ∧ i = decodeCmd w) ∨
          ∃ f bs r, op = .source f bs ∧ decode (.data f) bs = .ok (i, r)) ∧
         exec i { s with turns := ts, pend := rest } = .next t) ∨
       (∃ w rest, s.pend = .write w :: rest ∧ t = { s with turns := ts, pend := rest }.hostWrite w) ∨
       (∃ f bs rest, s.pend = .source f bs :: rest ∧ readFrom f bs { s with turns := ts, pend := rest } = .next t) ∨
       (s.pend = [] ∧ s.waiting = true ∧ s.busy = true ∧ t = { s with turns := ts }) ∨
       (s.pend = [] ∧ s.waiting = true ∧ s.busy = false ∧
         t = { s with turns := ts, si := s.si + 1, waiting := false }) ∨
       (s.pend = [] ∧ s.waiting = false ∧
         ∃ x, s.script[s.si]? = some x ∧ issue x.act { s with turns := ts } = .next t)) := by
    intro tn ts h
    cases tn with
    | host => exact .inr (.inr (.inr (host ts h)))
    | inStream =>
      simp only [agentTurn, inStreamTurn] at h
      split at h
      · cases h
      · rename_i a rest ha; exact .inr (.inl ⟨a, rest, ha, h⟩)
    | outStream =>
      simp only [agentTurn, outStreamTurn] at h
      split at h
      · cases h
      · rename_i a rest ha; exact .inr (.inr (.inl ⟨a, rest, ha, h⟩))
    | reset n bs => cases h; exact .inl ⟨n, bs, rfl, rfl⟩
  unfold step nextAction at h
  cases hts : s.turns with
  | nil =>
    simp only [hts] at h
    have e : ({ s with turns := [] } : State) = s := by cases s; cases hts; rfl
    refine ⟨[], .inl ⟨rfl, rfl⟩, ?_⟩
    rcases turn (defaultTurn s) [] (by rw [e]; exact h) with ⟨n, bs, hd, -⟩ | h
    · unfold defaultTurn at hd
      split at hd <;> cases hd
    · exact .inr h
  | cons x ts =>
    simp only [hts] at h
    refine ⟨ts, .inr ⟨x, rfl⟩, ?_⟩
    rcases turn x ts h with ⟨n, bs, hx, ht⟩ | h
    · exact .inl ⟨n, bs, by rw [hx], ht⟩
    · exact .inr h

/-! ### The parameters never change (R5) -/

theorem onReadAnswer_cfg {a : ReadAnswer} {s t : State} (h : onReadAnswer a s = .next t) : t.cfg = s.cfg := by
  obtain ⟨f, -, -, ⟨-, h⟩ | ⟨-, h⟩⟩ := onReadAnswer_next h
  · rcases firstAnswer_next h with ⟨_, -, rfl⟩ | ⟨_, _, -, rfl⟩ | ⟨_, _, -, ⟨-, rfl⟩ | ⟨-, rfl⟩⟩ <;> rfl
  · rcases secondAnswer_next h with ⟨_, -, rfl⟩ | ⟨_, _, -, rfl⟩ | ⟨_, -, rfl⟩ <;> rfl

theorem readFrom_cfg {f : Family} {bs : List Byte} {s t : State} (h : readFrom f bs s = .next t) : t.cfg = s.cfg := by
  rcases readFrom_next h with ⟨-, rfl⟩ | ⟨-, u, hu, ⟨-, rfl⟩ | ⟨-, h⟩⟩
  · rfl
  · have := onReadAnswer_cfg hu; exact this
  · have := onReadAnswer_cfg hu; exact (onReadAnswer_cfg h).trans this

theorem exec_cfg {i : Instr} {s t : State} (h : exec i s = .next t) : t.cfg = s.cfg := by
  cases hb : s.busy with
  | true => rw [exec_busy _ _ hb] at h; cases h; rfl
  | false =>
    rcases exec_shape i with ⟨f, -, e⟩ | ⟨f, -, e⟩ | ⟨f, -, e⟩ | ⟨f, -, e⟩ | ⟨-, w, -, e⟩ | ⟨f, _, v, -, e⟩ <;> rw [e] at h <;>
      try rw [(startCommand_eq _ _ _).2 hb] at h
    · obtain ⟨-, ⟨-, rfl⟩ | ⟨_, -, ⟨-, rfl⟩ | ⟨-, rfl⟩⟩⟩ := encodeBuffer_next h <;> rfl
    · obtain ⟨-, ⟨-, rfl⟩ | ⟨-, -, rfl⟩ | ⟨-, -, rfl⟩⟩ := decodeBuffer_next h <;> rfl
    · obtain ⟨-, rfl⟩ | ⟨_, -, rfl⟩ := startWrite_next h <;> rfl
    · cases h; rfl
    · cases h; rfl
    · exact readFrom_cfg h

theorem step_cfg {s t : State} (h : step s = .next t) : t.cfg = s.cfg := by
  obtain ⟨ts, -, h⟩ := step_next h
  rcases h with ⟨_, _, -, rfl⟩ | ⟨_, _, -, h⟩ | ⟨_, _, -, h⟩ | ⟨_, _, _, -, -, h⟩ | ⟨w, _, -, rfl⟩ | ⟨_, _, _, -, h⟩ |
    ⟨-, -, -, rfl⟩ | ⟨-, -, -, rfl⟩ | ⟨-, -, _, -, h⟩
  · rfl
  · have := onReadAnswer_cfg h; exact this
  · obtain ⟨-, ⟨-, rfl⟩ | ⟨_, _, -, -, -, rfl⟩⟩ := onWriteAnswer_next h <;> rfl
  · have := exec_cfg h; exact this
  · unfold State.hostWrite
    split
    · rfl
    · cases w <;> rfl
  · have := readFrom_cfg h; exact this
  · rfl
  · rfl
  · rw [(issue_next h).1]

end Sys2Proof.Machine
end

