-- ==== Sys2Proof/Laws/Platform.lean ====
section
/-! SUPPORT. What an instance's action does to a platform, said once, and what a well-formed platform is. -/

namespace Sys2Proof.Machine

/-- A platform is well formed when it has an instance, and all have the same parameters and no memory of their own. -/
theorem Platform.wf_iff (p : Platform) :
    p.wf = true ↔ p.insts ≠ [] ∧ ∃ c, ∀ s ∈ p.insts, s.cfg = c ∧ s.mem = [] := by
  unfold Platform.wf
  cases p.insts with
  | nil => simp
  | cons s ss =>
    simp only [List.all_eq_true, decide_eq_true_eq, ne_eq, reduceCtorEq, not_false_eq_true, true_and]
    exact ⟨fun h => ⟨s.cfg, h⟩, fun ⟨c, h⟩ t ht => ⟨(h t ht).1.trans (h s List.mem_cons_self).1.symm, (h t ht).2⟩⟩

/-- Everything an instance's action can do: it exists, it acts with the shared memory put into it, and the memory it
leaves is the platform's. -/
theorem Platform.act_next {act : State → Result} {k : Nat} {p q : Platform} (h : p.act act k = .next q) :
    ∃ s t, p.insts[k]? = some s ∧ act { s with mem := p.mem } = .next t ∧
      q = { mem := t.mem, insts := p.insts.set k { t with mem := [] } } := by
  unfold Platform.act at h
  split at h
  · cases h
  · rename_i s hs
    split at h <;> cases h
    rename_i t ht
    exact ⟨s, t, hs, ht, rfl⟩

end Sys2Proof.Machine
end

