-- ==== Sys2Proof/Tests/Slice0.lean ====
section
/-! SUPPORT. The model's own tests.  Expected results come from the spec: its encoding tables (30_encoding.md), the examples
of the command rules and 95_test_vectors.md.  The second part shows, for every statement with hypotheses, a state and
operands that meet them. -/

namespace Sys2Proof.Tests

open Sys2Proof Sys2Proof.Machine Sys2Proof.Claims

/-! ### Decoding: words written out from R51 to R53, R61, R62 -/

theorem test_decode_enc :
    decode .command [0b0000] = .ok (.encN, []) ∧ decode .command [0b0001] = .ok (.encM, []) ∧
    decode .command [0b0010] = .ok (.encW, []) := by decide

theorem test_decode_wr :
    decode .command [0b0100] = .ok (.wrN, []) ∧ decode .command [0b0101] = .ok (.wrM, []) ∧
    decode .command [0b0110] = .ok (.wrW, []) := by decide

theorem test_decode_dec :
    decode .command [0b1000] = .ok (.decN, []) ∧ decode .command [0b1001] = .ok (.decM, []) ∧
    decode .command [0b1010] = .ok (.decW, []) := by decide

theorem test_decode_rd :
    decode .command [0b1100] = .ok (.rdN, []) ∧ decode .command [0b1101] = .ok (.rdM, []) ∧
    decode .command [0b1110] = .ok (.rdW, []) := by decide

theorem test_decode_reserved :
    decode .command [0b0011] = .ok (.reserved3, []) ∧ decode .command [0b0111] = .ok (.reserved7, []) ∧
    decode .command [0b1011] = .ok (.reservedB, []) ∧ decode .command [0b1111] = .ok (.reservedF, []) := by decide

theorem test_decode_narrow_items :
    decode (.data .narrow) [0b01111111] = .ok (.nL1 0x7F, []) ∧
    decode (.data .narrow) [0b10010010, 0b00110100] = .ok (.nL2 0x1234, []) := by decide

theorem test_decode_medium_items :
    decode (.data .medium) [0b00111111] = .ok (.mL1 0x3F, []) ∧
    decode (.data .medium) [0b01010010, 0b00110100] = .ok (.mL2 0x1234, []) ∧
    decode (.data .medium) [0b10000001, 0b00100011, 0b01000101] = .ok (.mL3 0x12345, []) ∧
    decode (.data .medium) [0b11101011, 0b11001101, 0b11101111, 0b00000001] = .ok (.mL4 0x2BCDEF01, []) := by decide

theorem test_decode_wide_items :
    decode (.data .wide) [0b00111111] = .ok (.wL1 0x3F, []) ∧
    decode (.data .wide) [0b01010010, 0b00110100] = .ok (.wL2 0x1234, []) ∧
    decode (.data .wide) [0b10101011, 0b11001101, 0b11101111, 0b00000001] = .ok (.wL4 0x2BCDEF01, []) ∧
    decode (.data .wide) [0b11000001, 0x23, 0x45, 0x67, 0x89, 0xAB, 0xCD, 0xEF] =
      .ok (.wL8 0x0123456789ABCDEF, []) := by decide

/-- Every way a decoder refuses, and a non-canonical item accepted (R58). -/
theorem test_decode_refuses :
    decode .command [] = .error .empty ∧ decode .command [0x10] = .error .notACommandWord ∧
    decode (.data .wide) [] = .error .empty ∧ decode (.data .medium) [0x80, 0x40] = .error .truncated ∧
    decode (.data .wide) [0x40, 0x05] = .ok (.wL2 5, []) := by decide

/-- Table words as the opcode table numbers them: the second byte is bits 15 to 8. -/
theorem test_decodeTableWord :
    decodeTableWord 8 0x2 = some .encW ∧ decodeTableWord 8 0x5A = some (.nL1 0x5A) ∧
    decodeTableWord 16 0x3492 = some (.nL2 0x1234) ∧ decodeTableWord 24 0x452381 = some (.mL3 0x12345) ∧
    decodeTableWord 64 0xEFCDAB89674523C1 = some (.wL8 0x0123456789ABCDEF) ∧
    decodeTableWord 8 0x80 = none := by decide

/-! ### Well-formedness: an ill-formed term for each check -/

theorem test_config_wf_refuses :
    Config.wf { addrW := 3, teW := 8, notOrdinary := [] } = false ∧ Config.wf { addrW := 16, teW := 0, notOrdinary := [] } = false ∧
    Config.wf { addrW := 4, teW := 1, notOrdinary := [] } = true := by decide

theorem test_stop_reason_fits_refuses :
    StopReason.fits 4 (.err 16) = false ∧ StopReason.fits 4 (.err 15) = true ∧ StopReason.fits 4 .eoi = true := by decide

theorem test_read_answer_fits_refuses :
    ReadAnswer.fits 3 8 (.full [1, 2]) = false ∧ ReadAnswer.fits 3 8 (.full [1, 2, 3, 4]) = false ∧
    ReadAnswer.fits 3 8 (.short [1, 2, 3] .eoi) = false ∧ ReadAnswer.fits 3 8 (.short [1] (.err 256)) = false ∧
    ReadAnswer.fits 3 8 (.full [1, 2, 3]) = true ∧ ReadAnswer.fits 3 8 (.short [1, 2] (.err 255)) = true := by decide

theorem test_write_answer_fits_refuses :
    WriteAnswer.fits 2 8 (.partOnly 2 0) = false ∧ WriteAnswer.fits 2 8 (.partOnly 1 256) = false ∧
    WriteAnswer.fits 2 8 (.partOnly 1 255) = true ∧ WriteAnswer.fits 2 8 .all = true := by decide

/-- A small parameter choice: the addresses 12 and 13 are not ordinary memory. -/
abbrev c4 : Config := { addrW := 4, teW := 8, notOrdinary := [{ base := 12, size := 2 }] }

theorem test_line_wf_refuses :
    Line.wf c4 [] ⟨none, .enc .narrow 16 1 0⟩ = false ∧ Line.wf c4 [] ⟨none, .enc .narrow 0 16 0⟩ = false ∧
    Line.wf c4 [] ⟨none, .dec .wide 16 0⟩ = false ∧ Line.wf c4 [] ⟨none, .dec .wide 0 16⟩ = false ∧
    Line.wf c4 [] ⟨none, .jok 1⟩ = false ∧ Line.wf c4 [] ⟨none, .jerr 1⟩ = false ∧
    Line.wf c4 [] ⟨none, .store 16 0⟩ = false ∧
    Line.wf c4 [] ⟨none, .store 13 0⟩ = false ∧ Line.wf c4 [] ⟨none, .store 14 0⟩ = true ∧
    Line.wf c4 [] ⟨none, .enc .narrow 15 15 0⟩ = true := by decide

theorem test_script_wf_refuses :
    scriptWf c4 [⟨none, .log⟩, ⟨none, .jok 7⟩] = false ∧ scriptWf c4 [⟨some 7, .log⟩, ⟨none, .jok 7⟩] = true := by decide

theorem test_canonical :
    Instr.canonical (.wL2 5) = false ∧ Instr.canonical (.wL2 0x40) = true ∧ Instr.canonical .encN = true := by decide

/-! ### One step of each instruction -/

/-- A state with given operands and buffer bytes from address 0x100 on. -/
def start (val : Value) (len : Nat) (bytes : List Byte) : State :=
  { State.resetWith { addrW := 16, teW := 8, notOrdinary := [] } with
    val := val, base := 0x100, len := len, mem := Memory.writeBytes [] 0x100 bytes }

/-- The outcome is a next state of which `p` holds. -/
def ends (o : Result) (p : State → Bool) : Bool :=
  match o with
  | .next t => p t
  | .fault _ => false
  | .refused _ => false

/-- The outcome is this refusal. -/
def refuses (o : Result) (r : Refusal) : Bool :=
  match o with
  | .refused x => x == r
  | .next _ => false
  | .fault _ => false

/-- The outcome is this fault. -/
def faults (o : Result) (r : Fault) : Bool :=
  match o with
  | .fault x => x == r
  | .next _ => false
  | .refused _ => false

/-- The results RERR, RCNT, RVAL, RTE and BUSY. -/
def results (t : State) : BitVec 4 × BitVec 4 × Value × Nat × BitVec 1 := (t.rerr, t.rcnt, t.rval, t.rte, t.status)

theorem test_encN : ends (exec .encN (start 0x1234 2 [])) (fun t =>
    results t == (0, 2, 0, 0, 0) && t.mem == [(0x100, 0x92), (0x101, 0x34)]) = true := by decide
theorem test_encN_value_first : ends (exec .encN (start 0x8000 0 [])) (fun t =>
    results t == (1, 0, 0, 0, 0) && t.mem == []) = true := by decide
theorem test_encM : ends (exec .encM (start 0x12345 4 [1, 2, 3, 4])) (fun t =>
    results t == (0, 3, 0, 0, 0) && t.mem == [(0x100, 0x81), (0x101, 0x23), (0x102, 0x45), (0x103, 4)]) = true := by decide
theorem test_encM_short : ends (exec .encM (start 0x4000 2 [])) (fun t =>
    results t == (2, 0, 0, 0, 0) && t.mem == []) = true := by decide
theorem test_encW : ends (exec .encW (start 0x0123456789ABCDEF 8 [])) (fun t =>
    results t == (0, 8, 0, 0, 0) && t.mem.readBytes 0x100 8 == [0xC1, 0x23, 0x45, 0x67, 0x89, 0xAB, 0xCD, 0xEF]) = true := by
  decide
theorem test_encW_high_bits : ends (exec .encW (start 0x4000000000000000 8 [])) (fun t =>
    results t == (1, 0, 0, 0, 0)) = true := by decide

theorem test_decN : ends (exec .decN (start 0 2 [0x92, 0x34])) (fun t => results t == (0, 2, 0x1234, 0, 0)) = true := by
  decide
theorem test_decN_truncated : ends (exec .decN (start 0 1 [0x80])) (fun t =>
    results t == (4, 0, 0, 0, 0) && t.portOps == [.memRead 0x100]) = true := by decide
theorem test_decM : ends (exec .decM (start 0 3 [0x81, 0x23, 0x45])) (fun t =>
    results t == (0, 3, 0x12345, 0, 0)) = true := by decide
theorem test_decM_empty : ends (exec .decM (start 0 0 [])) (fun t =>
    results t == (3, 0, 0, 0, 0) && t.portOps == []) = true := by decide
theorem test_decW : ends (exec .decW (start 0 5 [0xBF, 0xFF, 0xFF, 0xFF, 0x11])) (fun t =>
    results t == (0, 4, 0x3FFFFFFF, 0, 0)) = true := by decide
theorem test_decW_noncanonical : ends (exec .decW (start 0 8 [0xC0, 0, 0, 0, 0, 0, 0, 9])) (fun t =>
    results t == (0, 8, 9, 0, 0)) = true := by decide

theorem test_wrN : ends (transact .wrN [.write (.partOnly 1 4)] (start 0x80 0 [])) (fun t =>
    results t == (6, 1, 0, 4, 0) && t.outSent == [0x80] && t.portOps == [.streamWrite [0x80, 0x80]]) = true := by decide
theorem test_wrN_too_large : ends (exec .wrN (start 0x8000 0 [])) (fun t =>
    results t == (1, 0, 0, 0, 0) && t.portOps == []) = true := by decide
theorem test_wrM : ends (transact .wrM [.write .all] (start 0x4000 0 [])) (fun t =>
    results t == (0, 3, 0, 0, 0) && t.outSent == [0x80, 0x40, 0x00]) = true := by decide
theorem test_wrM_issue : ends (exec .wrM (start 0x4000 0 [])) (fun t => t.status == 1 && t.nreq == 3) = true := by decide
theorem test_wrW : ends (transact .wrW [.write (.partOnly 5 0x2A)] (start 0x10000000000 0 [])) (fun t =>
    results t == (6, 5, 0, 0x2A, 0) && t.outSent == [0xC0, 0, 1, 0, 0]) = true := by decide

theorem test_rdN : ends (transact .rdN [.read (.full [0x92]), .read (.full [0x34])] (start 0 0 [])) (fun t =>
    results t == (0, 2, 0x1234, 0, 0) && t.portOps == [.streamRead 1, .streamRead 1]) = true := by decide
theorem test_rdN_transport : ends (transact .rdN [.read (.short [] (.err 9))] (start 0 0 [])) (fun t =>
    results t == (6, 0, 0, 9, 0)) = true := by decide
theorem test_rdM : ends (transact .rdM [.read (.full [0xC0]), .read (.full [0x40, 0, 0])] (start 0 0 [])) (fun t =>
    results t == (0, 4, 0x400000, 0, 0) && t.portOps == [.streamRead 1, .streamRead 3]) = true := by decide
theorem test_rdM_ends : ends (transact .rdM [.read (.full [0xC0]), .read (.short [0x40, 0] .eoi)] (start 0 0 [])) (fun t =>
    results t == (4, 3, 0, 0, 0) && t.inTaken == [0xC0, 0x40, 0]) = true := by decide
theorem test_rdW : ends (transact .rdW
    [.read (.full [0xC1]), .read (.full [0x23, 0x45, 0x67, 0x89, 0xAB, 0xCD, 0xEF])] (start 0 0 [])) (fun t =>
    results t == (0, 8, 0x0123456789ABCDEF, 0, 0)) = true := by decide
theorem test_rdW_empty : ends (transact .rdW [.read (.short [] .eoi)] (start 0 0 [])) (fun t =>
    results t == (5, 0, 0, 0, 0)) = true := by decide

theorem test_reserved3 : ends (exec .reserved3 (start 7 2 [])) (fun t =>
    results t == (7, 0, 0, 0, 0) && t.cmd == 3 && t.portOps == []) = true := by decide
theorem test_reserved7 : ends (exec .reserved7 (start 7 2 [])) (fun t =>
    results t == (7, 0, 0, 0, 0) && t.cmd == 7) = true := by decide
theorem test_reservedB : ends (exec .reservedB (start 7 2 [])) (fun t =>
    results t == (7, 0, 0, 0, 0) && t.cmd == 11) = true := by decide
theorem test_reservedF : ends (exec .reservedF (start 7 2 [])) (fun t =>
    results t == (7, 0, 0, 0, 0) && t.cmd == 15) = true := by decide

theorem test_nL1 : ends (exec (.nL1 0x7F) (start 0 0 [])) (fun t =>
    results t == (0, 1, 0x7F, 0, 0) && t.inTaken == [0x7F]) = true := by decide
theorem test_nL2 : ends (exec (.nL2 0x1234) (start 0 0 [])) (fun t =>
    results t == (0, 2, 0x1234, 0, 0) && t.inTaken == [0x92, 0x34]) = true := by decide
theorem test_mL1 : ends (exec (.mL1 0x3F) (start 0 0 [])) (fun t => results t == (0, 1, 0x3F, 0, 0)) = true := by decide
theorem test_mL2 : ends (exec (.mL2 5) (start 0 0 [])) (fun t =>
    results t == (0, 2, 5, 0, 0) && t.inTaken == [0x40, 0x05]) = true := by decide
theorem test_mL3 : ends (exec (.mL3 0x12345) (start 0 0 [])) (fun t =>
    results t == (0, 3, 0x12345, 0, 0) && t.inTaken == [0x81, 0x23, 0x45]) = true := by decide
theorem test_mL4 : ends (exec (.mL4 0x3FFFFFFF) (start 0 0 [])) (fun t =>
    results t == (0, 4, 0x3FFFFFFF, 0, 0) && t.inTaken == [0xFF, 0xFF, 0xFF, 0xFF]) = true := by decide
theorem test_wL1 : ends (exec (.wL1 0) (start 0 0 [])) (fun t =>
    results t == (0, 1, 0, 0, 0) && t.inTaken == [0]) = true := by decide
theorem test_wL2 : ends (exec (.wL2 0x3FFF) (start 0 0 [])) (fun t =>
    results t == (0, 2, 0x3FFF, 0, 0) && t.inTaken == [0x7F, 0xFF]) = true := by decide
theorem test_wL4 : ends (exec (.wL4 0x4000) (start 0 0 [])) (fun t =>
    results t == (0, 4, 0x4000, 0, 0) && t.inTaken == [0x80, 0, 0x40, 0]) = true := by decide
theorem test_wL8 : ends (exec (.wL8 0x40000000) (start 0 0 [])) (fun t =>
    results t == (0, 8, 0x40000000, 0, 0) && t.inTaken == [0xC0, 0, 0, 0, 0x40, 0, 0, 0]) = true := by decide

/-- A word placed by `withFetchWord` is what the very next step runs. -/
theorem test_withFetchWord :
    ends (step (State.reset.withFetchWord 8 0xE)) (fun t => t.ph == .rdTag && t.cmd == 0xE) = true ∧
    ends (step (State.reset.withFetchWord 16 0x3492)) (fun t => t.rval == 0x1234 && t.rcnt == 2) = true := by decide

/-- A host line at its end, and the two kinds of silence (R66, R211, R201). -/
theorem test_faults :
    faults (step State.reset) .hostSilent = true ∧
    faults (step { State.reset with script := [⟨none, .halt⟩] }) .halted = true ∧
    ends (step { State.reset with script := [⟨none, .halt⟩], ph := .rdTag, turns := [.host] }) (fun t => t.si == 0) = true ∧
    faults (step { State.reset with ph := .rdTag }) .streamSilent = true ∧
    faults (step { State.reset with script := [⟨none, .store (2 ^ 32) 0⟩] }) .noSuchAddress = true ∧
    faults (onReadAnswer (.full [0]) { State.reset with ph := .rdTag, cmd := 3, nreq := 1 }) .phaseWithoutFamily = true := by
  decide

theorem test_refusals :
    refuses (exec .encN { start 0 0 [] with base := 0xFFFF, len := 2 }) .bufferWraps = true ∧
    refuses (exec .decN { start 0 0 [] with cfg := c4, base := 10, len := 3 }) .notOrdinaryMemory = true ∧
    refuses (step { start 0 0 [] with cfg := c4, script := [⟨none, .store 12 0⟩] }) .notOrdinaryMemory = true ∧
    refuses (onReadAnswer (.full [0, 0]) (readIssued 0xC State.reset)) .answerMisfit = true ∧
    refuses (onReadAnswer (.full [0]) State.reset) .answerUnrequested = true ∧
    refuses (step { State.reset with script := [⟨none, .jok 3⟩] }) .noSuchLabel = true ∧
    refuses (step { readIssued 0xC State.reset with turns := [.host], script := [⟨none, .connectSource⟩] })
      .streamInUse = true := by decide

/-- A reset turn: a Read's request still consumes what it asked for, unless its stream has ended (R41, log 18); the host
goes on with the next line (log 24). -/
theorem test_reset_turn :
    ends (step { readIssued 0xC State.reset with turns := [.reset 0 [5, 6]], waiting := true })
      (fun t => t.inTaken == [5] && t.ph == .idle && t.status == 0 && t.waiting && t.si == 0) = true ∧
    ends (step { readIssued 0xC State.reset with turns := [.reset 0 [5]], inEnded := true }) (fun t => t.inTaken == []) = true ∧
    ends (step { State.reset with waiting := true }) (fun t => t.si == 1 && !t.waiting) = true := by decide

/-- A buffer next to a region that is not ordinary memory is a good one, and so is an empty one inside it (R208). -/
theorem test_ordinary_range :
    isOrdinaryRange c4 9 3 = true ∧ isOrdinaryRange c4 14 2 = true ∧ isOrdinaryRange c4 12 0 = true ∧
    isOrdinaryRange c4 13 1 = false ∧ isOrdinary c4 11 = true ∧ isOrdinary c4 12 = false := by decide

/-- The default configuration's reset state is well formed, and reset memory is canonical. -/
theorem test_reset_wf : Config.default.wf = true ∧ State.reset.mem.wf = true := by decide

/-! ### Witnesses: for each statement with hypotheses, states and operands that meet them, clause by clause -/

/-- An idle block whose buffer ends at the last address. -/
def idleS : State := { start 0x1234 2 [] with base := 0xFFFE, mem := [(0xFFFE, 0x92), (0xFFFF, 0x34)] }

/-- A Read waiting for its first answer, for its second, and a Write waiting. -/
def rdTagS : State := readIssued 0xC idleS
@[inherit_doc rdTagS] def rdContS : State := contIssued rdTagS 0x92 1
@[inherit_doc rdTagS] def wrDataS : State := writeOutcome (narrowBytes idleS.val) { idleS with cmd := 0x4 }

theorem witness_phases : idleS.ph = .idle ∧ idleS.busy = false ∧ idleS.base + idleS.len = 2 ^ idleS.cfg.addrW ∧
    rdTagS.ph = .rdTag ∧ rdContS.ph = .rdCont ∧ wrDataS.ph = .wrData ∧ rdTagS.busy = true := by decide

theorem inv_idle : idleS.Inv :=
  ⟨by decide, by decide, by decide, by decide, by decide, by decide, by decide, by decide, by decide, by decide, by decide,
    by decide,
    trivial⟩
theorem inv_rdTag : rdTagS.Inv :=
  ⟨by decide, by decide, by decide, by decide, by decide, by decide, by decide, by decide, by decide, by decide, by decide,
    by decide,
    ⟨⟨.narrow, rfl⟩, rfl⟩⟩
theorem inv_rdCont : rdContS.Inv :=
  ⟨by decide, by decide, by decide, by decide, by decide, by decide, by decide, by decide, by decide, by decide, by decide,
    by decide,
    ⟨.narrow, rfl, by decide, by decide⟩⟩
theorem inv_wrData : wrDataS.Inv :=
  ⟨by decide, by decide, by decide, by decide, by decide, by decide, by decide, by decide, by decide, by decide, by decide,
    by decide,
    ⟨.narrow, [0x92, 0x34], rfl, by decide, by decide, by decide⟩⟩

theorem witness_ResetPutsTheSpecsValues :
    { idleS with turns := [.reset 1 []] }.turns = .reset 1 [] :: [] ∧
    { rdTagS with turns := [.reset 0 [5]] }.turns = .reset 0 [5] :: [] ∧
    { wrDataS with turns := [.reset 1 []] }.turns = .reset 1 [] :: [] ∧ Reg.rval ≠ Reg.status := by decide

theorem witness_StepRunsTheDecodedInstruction :
    (let s := { idleS with turns := [.host], pend := [.command 0xF] };
      s.turns = .host :: [] ∧ s.pend = .command 0xF :: []) ∧
    (let s := { idleS with pend := [.command 0] }; s.turns = [] ∧ s.ph = .idle ∧ s.pend = .command 0 :: []) ∧
    (let s := { idleS with turns := [.host], pend := [.source .wide [0x40, 5, 9]] };
      s.turns = .host :: [] ∧ s.pend = .source .wide [0x40, 5, 9] :: [] ∧
      decode (.data .wide) [0x40, 5, 9] = .ok (.wL2 5, [9])) := by decide

theorem witness_StepGivesTheStreamsAnswers :
    (let s := { rdTagS with inTape := [.full [1]] }; s.turns = [] ∧ s.ph = .rdTag ∧ s.inTape = .full [1] :: []) ∧
    (let s := { rdContS with inTape := [.full [1]] }; s.turns = [] ∧ s.ph = .rdCont ∧ s.inTape = .full [1] :: []) ∧
    (let s := { wrDataS with outTape := [.all] }; s.turns = [] ∧ s.ph = .wrData ∧ s.outTape = .all :: []) ∧
    (let s := { rdTagS with turns := [.inStream], inTape := [.full [1]] };
      s.turns = .inStream :: [] ∧ s.inTape = .full [1] :: []) ∧
    (let s := { wrDataS with turns := [.outStream], outTape := [.all] };
      s.turns = .outStream :: [] ∧ s.outTape = .all :: []) := by decide

theorem witness_SilentStreamHangsTheBlock :
    (rdTagS.turns = [] ∧ rdTagS.ph = .rdTag ∧ rdTagS.inTape = []) ∧
    (rdContS.ph = .rdCont ∧ rdContS.inTape = []) ∧ (wrDataS.ph = .wrData ∧ wrDataS.outTape = []) ∧
    (let s := { rdTagS with turns := [.host], pend := [.command 0x2] };
      s.busy = true ∧ s.turns = .host :: [] ∧ ends (step s) (fun t => t.cmd == 0xC) = true) := by decide

theorem witness_ResetMeetsTheInvariant : Config.wf c4 = true ∧ 1 ≤ 1 := by decide

/-- Two instances over one memory, one of them waiting for its first answer. -/
def twoP : Platform :=
  { mem := idleS.mem, insts := [{ rdTagS with mem := [], inTape := [.full [0x92]] }, { idleS with mem := [] }] }

theorem inv_twoP : twoP.Inv where
  wf := by decide
  insts := by
    intro s hs
    simp only [twoP, List.mem_cons, List.not_mem_nil, or_false] at hs
    rcases hs with rfl | rfl
    · exact ⟨inv_rdTag.1, inv_rdTag.2, inv_rdTag.3, inv_rdTag.4, inv_rdTag.5, inv_rdTag.6, inv_rdTag.7, inv_rdTag.8,
        inv_rdTag.9, inv_rdTag.10, inv_rdTag.11, inv_rdTag.12, inv_rdTag.13⟩
    · exact inv_idle

/-- The outcome is a next platform of which `p` holds. -/
def endsP (o : PlatformResult) (p : Platform → Bool) : Bool :=
  match o with
  | .next q => p q
  | .fault _ => false
  | .refused _ => false

theorem witness_EveryStepKeepsTheInvariant_platform :
    twoP.Inv ∧ endsP (twoP.step 0) (fun q => q.insts.map (·.ph) == [.rdCont, .idle]) = true := ⟨inv_twoP, by decide⟩

/-- Well-formedness of a platform refuses no instance at all (R5), different parameters, and a memory of an instance's
own. -/
theorem test_platform_wf_refuses :
    Platform.wf { mem := [], insts := [] } = false ∧ Platform.wf (Platform.reset c4 1) = true ∧
    Platform.wf { mem := [], insts := [State.reset, State.resetWith c4] } = false ∧
    Platform.wf { mem := [], insts := [{ State.reset with mem := [(0, 0)] }] } = false := by decide

theorem witness_EveryStepKeepsTheInvariant :
    idleS.Inv ∧ rdTagS.Inv ∧ rdContS.Inv ∧ wrDataS.Inv ∧
    ends (step { rdTagS with inTape := [.full [0x92]] }) (fun t => t == rdContS) = true ∧
    ends (step { wrDataS with outTape := [.partOnly 1 255] }) (fun t => t.rte == 255) = true :=
  ⟨inv_idle, inv_rdTag, inv_rdCont, inv_wrData, by decide, by decide⟩

theorem witness_PhaseChangesAreThoseOfTheTable :
    ends (exec .encN idleS) (fun t => t.ph == .idle) = true ∧ ends (exec .decN idleS) (fun t => t.ph == .idle) = true ∧
    familyOf rdTagS.cmd = some .narrow ∧ familyOf rdContS.cmd = some .narrow ∧
    ends (onReadAnswer (.full [0x92]) rdTagS) (fun t => t.ph == .rdCont) = true ∧
    ends (onReadAnswer (.full [0x7F]) rdTagS) (fun t => t.ph == .idle) = true ∧
    ends (onReadAnswer (.short [] .eoi) rdTagS) (fun t => t.ph == .idle) = true ∧
    ends (onReadAnswer (.short [] (.err 255)) rdContS) (fun t => t.ph == .idle) = true ∧
    ends (onWriteAnswer (.partOnly 0 0) wrDataS) (fun t => t.ph == .idle) = true ∧
    ends (step { idleS with pend := [.command 0x4] }) (fun t => t.ph == .wrData) = true := by decide

theorem witness_HostWritesFollowBusy :
    rdTagS.busy = true ∧ idleS.busy = false ∧ 0xFFFF < 2 ^ idleS.cfg.addrW ∧
    cmdWord .reservedF = some 0xF ∧ ends (exec .reservedF idleS) (fun t => t.cmd == 0xF) = true := by decide

theorem witness_ResultsAreWrittenAtCompletionOnly :
    ends (exec .rdW idleS) (fun t => t.busy) = true ∧
    ends (onAnswer (.read (.full [0x92])) rdTagS) (fun t => t.busy) = true ∧
    (let s := { rdTagS with turns := [.host], pend := [.write (.val 5)] };
      s.busy = true ∧ s.turns = .host :: [] ∧ ends (step s) (fun t => t.val == 0x1234) = true) := by decide

/-- A host about to begin the line `d`. -/
def atLine (d : Directive) : State := { idleS with script := [⟨some 1, d⟩] }

theorem witness_ScriptLinesStandForTheirWrites :
    (∀ d ∈ [Directive.enc .wide 0xFFFF 0xFFFF 0, .dec .wide 0xFFFF 0xFFFF, .wr .medium 0, .rd .narrow],
      (atLine d).turns = [] ∧ (atLine d).ph = .idle ∧ (atLine d).pend = [] ∧ (atLine d).waiting = false ∧
      (atLine d).script[(atLine d).si]? = some ⟨some 1, d⟩) ∧
    0xFFFF < 2 ^ idleS.cfg.addrW ∧
    (let u := { idleS with waiting := true }; u.turns = [] ∧ u.ph = .idle ∧ u.pend = [] ∧ u.waiting = true) ∧
    (let u := { rdTagS with waiting := true, turns := [.host] };
      u.turns = .host :: [] ∧ u.pend = [] ∧ u.waiting = true ∧ u.busy = true) := by decide

theorem witness_ScriptDirectivesAct :
    (∀ d ∈ [Directive.adv, .encNext .wide 0, .decNext .narrow, .jok 1, .jerr 1, .log, .halt],
      (atLine d).turns = [] ∧ (atLine d).ph = .idle ∧ (atLine d).pend = [] ∧ (atLine d).waiting = false ∧
      (atLine d).script[(atLine d).si]? = some ⟨some 1, d⟩ ∧ lineOf (atLine d).script 1 = some 0) ∧
    (let s := { atLine .adv with base := 0xFFFE, rcnt := 1, len := 1 };
      s.base + s.rcnt.toNat < 2 ^ s.cfg.addrW ∧ s.rcnt.toNat ≤ s.len ∧ s.len < 2 ^ s.cfg.addrW) := by decide

theorem witness_MemWriteChangesItsBytesOnly :
    Memory.wf [(3, 1), (5, 2)] = true ∧ ¬ (4 ≤ 3 ∧ 3 < 4 + [(7 : Byte)].length) ∧ ¬ (4 ≤ 5 ∧ 5 < 4 + [(7 : Byte)].length) := by
  decide

theorem witness_WrappingBufferIsRefused :
    (let s := { idleS with len := 3 }; s.busy = false ∧ s.base + s.len = 2 ^ s.cfg.addrW + 1) ∧
    (let s := { idleS with cfg := c4, base := 11, len := 2 };
      s.busy = false ∧ s.base + s.len ≤ 2 ^ s.cfg.addrW ∧ ∃ i < s.len, isOrdinary s.cfg (s.base + i) = false) := by decide

theorem witness_AnswersInShapeAreTakenOthersRefused :
    rdTagS.Inv ∧ rdTagS.ph = .rdTag ∧ rdContS.Inv ∧ rdContS.ph = .rdCont ∧ wrDataS.ph = .wrData ∧ idleS.ph = .idle ∧
    rdTagS.inEnded = false ∧ (ReadAnswer.full [0xFF]).fits rdTagS.nreq.toNat rdTagS.cfg.teW = true ∧
    (ReadAnswer.short [0xFF] .eoi).fits rdTagS.nreq.toNat rdTagS.cfg.teW = false ∧
    (ReadAnswer.short [] .eoi).bytes = [] ∧ { rdTagS with inEnded := true }.Inv ∧ (ReadAnswer.full [0xFF]).bytes ≠ [] ∧
    (WriteAnswer.partOnly 1 255).fits wrDataS.nreq.toNat wrDataS.cfg.teW = true ∧
    (WriteAnswer.partOnly 2 0).fits wrDataS.nreq.toNat wrDataS.cfg.teW = false :=
  ⟨inv_rdTag, rfl, inv_rdCont, rfl, rfl, rfl, rfl, by decide, by decide, rfl,
    ⟨inv_rdTag.1, inv_rdTag.2, inv_rdTag.3, inv_rdTag.4, inv_rdTag.5, inv_rdTag.6, inv_rdTag.7, inv_rdTag.8, inv_rdTag.9,
      inv_rdTag.10, inv_rdTag.11, inv_rdTag.12, inv_rdTag.13⟩, by decide, by decide, by decide⟩

theorem witness_CommandWordFieldsNameTheCommand :
    (0xE : BitVec 4).extractLsb' 0 2 = 2 ∧ (0x0 : BitVec 4).extractLsb' 0 2 = 0 ∧ (0x5 : BitVec 4).extractLsb' 0 2 = 1 ∧
    (0xB : BitVec 4).extractLsb' 0 2 = 3 := by decide

theorem witness_EncodeOfDecodeIsTheBytes :
    decode .command [0xF, 1] = .ok (.reservedF, [1]) ∧
    decode (.data .medium) [0xFF, 0xFF, 0xFF, 0xFF, 1] = .ok (.mL4 0x3FFFFFFF, [1]) := by decide

theorem witness_FirstByteDeclaresTheLength : Family.medium = .medium ∨ Family.medium = .wide := .inl rfl

theorem witness_PackLaysOutTagAndPayload :
    3 < 2 ^ K .wide ∧ 2 ^ 62 - 1 < 2 ^ PBITS .wide 3 ∧ 0 < 2 ^ K .narrow ∧ 127 < 2 ^ PBITS .narrow 0 := by decide

theorem witness_UnpackDropsTheTagAndInvertsPack :
    [(0xFF : Byte)].length + 1 = lengthOf .narrow 0x80 ∧ ([] : List Byte).length + 1 = lengthOf .wide 0x3F ∧
    3 < 2 ^ K .wide ∧ 2 ^ 62 - 1 < 2 ^ PBITS .wide 3 := by decide

/-- Serves every statement whose hypotheses are that the block is idle and that the buffer is a good one: ENC.f, DEC.f,
WR.f, RD.f, the reserved codes, the data items, and BufferLengthsAreExact's first two. -/
theorem witness_idle_and_good :
    idleS.busy = false ∧ goodBuffer idleS ∧ goodBuffer { idleS with cfg := c4, base := 8, len := 4 } := by decide

/-- The clauses of the Write statements: what is on offer, and the answers at their bounds. -/
theorem witness_writes :
    narrowBytes 0x7FFF = some [0xFF, 0xFF] ∧ narrowBytes 0x8000 = none ∧
    mediumBytes 0x3FFFFFFF = some [0xFF, 0xFF, 0xFF, 0xFF] ∧ mediumBytes 0x40000000 = none ∧
    wideBytes 0x4000000000000000 = none ∧ 1 < [(0xFF : Byte), 0xFF].length ∧ 255 < 2 ^ idleS.cfg.teW := by decide

/-- The clauses of the Read statements: both values of the tag test, the failing answers at their bounds. -/
theorem witness_reads :
    idleS.inEnded = false ∧ (0x7F : Byte).getLsbD 7 = false ∧ (0x80 : Byte).getLsbD 7 = true ∧
    ((0x3F : Byte).extractLsb' 6 2).toNat = 0 ∧ ((0xFF : Byte).extractLsb' 6 2).toNat = 3 ∧
    2 ^ ((0x3F : Byte).extractLsb' 6 2).toNat - 1 = 0 ∧ 2 ^ ((0xFF : Byte).extractLsb' 6 2).toNat - 1 = 7 ∧
    [(1 : Byte), 2, 3, 4, 5, 6].length < 7 ∧ [(1 : Byte), 2, 3, 4, 5, 6, 7].length = 7 ∧ 255 < 2 ^ idleS.cfg.teW := by decide

theorem witness_ReservedCodesCompleteWithIllegalCommand :
    (Instr.reservedF, (0xF : BitVec 4)) ∈
      [(Instr.reserved3, (0x3 : BitVec 4)), (.reserved7, 0x7), (.reservedB, 0xB), (.reservedF, 0xF)] := by decide

theorem witness_BufferCommandsFrame :
    idleS.busy = false ∧ ends (exec (encInstr .narrow) idleS) (fun t => t.rerr == 0) = true ∧
    ends (exec (encInstr .narrow) { idleS with len := 1 }) (fun t => t.rerr != 0) = true ∧
    encodeBytes .narrow idleS.val.toNat = some [0x92, 0x34] ∧ ¬ (idleS.base ≤ 0xFFFD ∧ 0xFFFD < idleS.base + 2) ∧
    ends (exec (decInstr .narrow) idleS) (fun t => t.rval == 0x1234) = true := by decide

theorem witness_StreamCommandsFrame :
    idleS.busy = false ∧ ends (exec (wrInstr .narrow) idleS) (fun t => t.busy) = true ∧
    ends (exec (rdInstr .wide) idleS) (fun t => t.busy) = true ∧
    ends (onAnswer (.read (.full [0x92])) rdTagS) (fun t => t.busy) = true ∧
    ends (onAnswer (.write .all) wrDataS) (fun t => t.outSent == [0x92, 0x34]) = true := by decide

/-- Commands with their answers that end in each of the ways a command can, for the statements about whole commands:
EachCommandReportsItsOwnErrors, ErrorsArePrecise, CountIsBoundedByTheFamily, ReadTakesExactlyItsCount,
EachCommandReachesOneSpace. -/
theorem witness_whole_commands :
    ends (transact (encInstr .narrow) [] { idleS with len := 1 }) (fun t => !t.busy && t.rerr == 2) = true ∧
    ends (transact (encInstr .narrow) [] { idleS with val := 0x8000 }) (fun t => !t.busy && t.rerr == 1) = true ∧
    ends (transact (decInstr .narrow) [] { idleS with len := 0 }) (fun t => !t.busy && t.rerr == 3) = true ∧
    ends (transact (decInstr .wide) [] idleS) (fun t => !t.busy && t.rerr == 4) = true ∧
    ends (transact (wrInstr .narrow) [.write (.partOnly 1 255)] idleS) (fun t => !t.busy && t.rerr == 6) = true ∧
    ends (transact (rdInstr .wide) [.read (.full [0xFF]), .read (.short [1, 2, 3, 4, 5, 6] .eoi)] idleS)
      (fun t => !t.busy && t.rerr == 4 && t.rcnt == 7) = true ∧
    ends (transact (rdInstr .wide) [.read (.full [0xFF]), .read (.full [1, 2, 3, 4, 5, 6, 7])] idleS)
      (fun t => !t.busy && t.rerr == 0 && t.rcnt == 8) = true ∧
    ends (transact (decodeCmd 0xE) [.read (.full [0xFF]), .read (.short [1, 2] (.err 255))] idleS)
      (fun t => !t.busy && t.rerr == 6 && t.inTaken.length == 3) = true ∧
    ends (transact (decodeCmd 0x4) [.write (.partOnly 1 255)] idleS)
      (fun t => !t.busy && t.rerr == 6 && t.outSent == [0x92]) = true ∧
    ends (transact .reserved7 [] idleS) (fun t => !t.busy && t.rerr == 7) = true ∧
    ends (transact (decodeCmd 0x8) [] { idleS with len := 1 }) (fun t => !t.busy && t.rerr != 0) = true := by decide

/-- Two states that agree on the operands and on nothing else that matters. -/
theorem witness_CommandsAreStateless :
    (let s' := { idleS with rval := 9, rerr := 6, rte := 3, rcnt := 5, nreq := 7, sb := Vector.replicate 8 0xFF, cmd := 0xE };
      idleS.busy = false ∧ s'.busy = false ∧ s'.cfg = idleS.cfg ∧ s'.val = idleS.val ∧ s'.base = idleS.base ∧
      s'.len = idleS.len ∧ s'.inEnded = idleS.inEnded ∧ s' ≠ idleS) ∧
    sameOperands idleS { idleS with rval := 9, rerr := 6 } :=
  ⟨by decide, rfl, rfl, rfl, rfl, rfl, fun _ _ => rfl⟩

theorem witness_EncodeThenDecodeGivesTheValue :
    2 ^ 62 - 1 < BOUND .wide ∧ idleS.busy = false ∧ goodBuffer idleS ∧
    idleS.val.toNat < BOUND .narrow ∧ minlen .narrow idleS.val.toNat = some 2 ∧ 2 ≤ idleS.len := by decide

theorem witness_EncodingsAreMinimal :
    encodeBytes .wide 0x3FFF = some [0x7F, 0xFF] ∧ 3 < 2 ^ K .wide ∧ 0x3FFF < 2 ^ PBITS .wide 1 ∧
    ends (exec (encInstr .narrow) idleS) (fun t => t.portOps != idleS.portOps) = true ∧
    ends (exec (wrInstr .narrow) idleS) (fun t => t.portOps != idleS.portOps) = true := by decide

theorem witness_DomainBoundaryIsExclusive :
    (let s := { idleS with val := 0x8000 }; s.busy = false ∧ BOUND .narrow ≤ s.val.toNat ∧
      goodBuffer s) ∧
    (let s := { idleS with val := 0x7FFF }; s.val.toNat = BOUND .narrow - 1 ∧ goodBuffer s ∧
      LEN .narrow (tmax .narrow) ≤ s.len) := by decide

theorem witness_BufferLengthsAreExact :
    minlen .narrow idleS.val.toNat = some 2 ∧ { idleS with len := 1 }.len = 2 - 1 ∧ idleS.len = 2 ∧
    (let s := { idleS with len := 1 }; 1 ≤ s.len ∧ s.len < lengthOf .narrow (s.mem.byteAt s.base)) ∧
    { idleS with len := 0 }.len = 0 := by decide

theorem witness_ReadAndDecodeAgree :
    (let u := { start 0 2 [0x80, 0x05] with base := 0x100 };
      idleS.busy = false ∧ u.busy = false ∧ u.len = [(0x80 : Byte), 0x05].length ∧ goodBuffer u ∧
      u.mem.readBytes u.base u.len = [0x80, 0x05]) ∧
    (let u := start 0 1 [0xFF];
      u.busy = false ∧ u.len = [(0xFF : Byte)].length ∧ u.mem.readBytes u.base u.len = [0xFF]) ∧
    (let u := start 0 0 []; u.len = ([] : List Byte).length ∧ u.mem.readBytes u.base u.len = []) := by decide

theorem witness_WriteOffersWhatEncodeStores :
    idleS.busy = false ∧ ends (exec (encInstr .narrow) idleS) (fun t => t.rerr == 0) = true ∧
    ends (exec (wrInstr .narrow) idleS) (fun t => t.busy) = true ∧
    ends (exec (encInstr .narrow) { idleS with val := 0x8000 }) (fun t => t.rerr == 1) = true ∧
    ends (exec (wrInstr .narrow) { idleS with val := 0x8000 }) (fun t => !t.busy) = true := by decide

theorem witness_ReencodingIsTheIdentityOnCanonicalInput :
    decodeBytes .wide [0x40, 0x05, 7] = .value 5 2 ∧ minlen .wide 5 = some 1 ∧
    decodeBytes .wide [0x40, 0x40] = .value 0x40 2 ∧ minlen .wide 0x40 = some 2 := by decide

theorem witness_EncodingsAreSelfDelimiting :
    decodeBytes .medium [0x3F] = .value 0x3F [(0x3F : Byte)].length ∧
    decodeBytes .medium [0x3F] = .value 0x3F [(0x3F : Byte)].length ∧ [(0x3F : Byte)] ++ [1] = [0x3F] ++ [1] := by decide

theorem witness_EncodingsOrderAsTheirValues :
    0x7F < 0x80 ∧ 0x80 < BOUND .narrow ∧ 2 ^ 62 - 2 < 2 ^ 62 - 1 ∧ 2 ^ 62 - 1 < BOUND .wide := by decide

theorem witness_FamiliesAgreeWhereFormatsAgree :
    2 ^ 14 - 1 < 2 ^ 14 ∧ (0x7F : Byte).toNat < 0x80 ∧ 63 < 2 ^ 6 := by decide

theorem witness_InstancesOnDisjointBuffersCommute :
    (let p : Platform := { mem := [(0xFFFE, 0x92), (0xFFFF, 0x34)], insts := [idleS, { idleS with base := 0xFFFC }] };
      p.mem.wf = true ∧ (0 : Nat) ≠ 1 ∧ p.insts[0]? = some idleS ∧ p.insts[1]? = some { idleS with base := 0xFFFC } ∧
      0xFFFC + idleS.len ≤ idleS.base) := by decide

end Sys2Proof.Tests
end

/-! ## The invariant of the machine

It is cut into what it says of the operands, the results, the memory and the
phase; each operation of the block keeps each part. -/

namespace Sys2Proof.Machine

/-! ### The four parts of the invariant -/

/-- What `State.Inv` says of the parameters, BASE and LEN. -/
def State.operandsWf (s : State) : Prop :=
  s.cfg.wf = true ∧ s.base < 2 ^ s.cfg.addrW ∧ s.len < 2 ^ s.cfg.addrW

/-- What `State.Inv` says of the four results. -/
def State.resultsWf (s : State) : Prop :=
  s.rte < 2 ^ s.cfg.teW ∧ s.rval.toNat < BOUND .wide ∧ s.rcnt.toNat ≤ 8 ∧ s.rerr.toNat ≤ 7 ∧
  (s.rerr ≠ ErrorKind.transport.code → s.rte = 0) ∧ (s.rerr ≠ 0 → s.rval = 0)

/-- What `State.Inv` says of buffer memory: canonical, and every written address exists and is ordinary memory. -/
def State.memWf (s : State) : Prop :=
  s.mem.wf = true ∧ ∀ c ∈ s.mem, c.1 < 2 ^ s.cfg.addrW ∧ isOrdinary s.cfg c.1 = true

/-- The invariant, part by part. -/
theorem State.inv_iff (s : State) : s.Inv ↔ s.operandsWf ∧ s.resultsWf ∧ s.memWf ∧ s.phaseWf := by
  constructor
  · intro h
    exact ⟨⟨h.cfg_wf, h.base_lt, h.len_lt⟩,
      ⟨h.rte_lt, h.rval_lt, h.rcnt_le, h.rerr_le, h.rte_zero, h.rval_zero⟩,
      ⟨h.mem_wf, fun c hc => ⟨h.mem_lt c hc, h.mem_ordinary c hc⟩⟩, h.phase⟩
  · rintro ⟨⟨hcfg, hbase, hlen⟩, ⟨hte, hval, hcnt, herr, hte0, hval0⟩, ⟨hwf, hmem⟩, hphase⟩
    exact ⟨hcfg, hbase, hlen, hte, hval, hcnt, herr, hte0, hval0, hwf, fun c hc => (hmem c hc).1,
      fun c hc => (hmem c hc).2, hphase⟩

/-- An idle block's phase says nothing more. -/
theorem State.phaseWf_idle {s : State} (h : s.ph = .idle) : s.phaseWf := by
  simp only [State.phaseWf, h]

/-! ### Sizes -/

theorem PBITS_le (f : Family) (t : Nat) (h : t < 2 ^ K f) : PBITS f t ≤ 62 := by
  cases f <;> simp only [K] at h <;> interval_cases t <;> decide

/-- No family reads a value that does not fit the wide bound. -/
theorem unpack_lt (f : Family) (b0 : Byte) (bs : List Byte) (h : bs.length = lengthOf f b0) :
    unpack f bs < BOUND .wide := by
  have hlt : unpack f bs < 2 ^ PBITS f (tagOf f b0) := by
    unfold unpack
    rw [h]
    exact Nat.mod_lt _ (Nat.two_pow_pos _)
  have hle : 2 ^ PBITS f (tagOf f b0) ≤ 2 ^ 62 :=
    Nat.pow_le_pow_right (by decide) (PBITS_le f _ (tagOf_lt f b0))
  exact Nat.lt_of_lt_of_le hlt hle

theorem lengthOf_eq_remainingOf_add_one (f : Family) (b0 : Byte) : lengthOf f b0 = remainingOf f b0 + 1 := by
  have := lengthOf_pos f b0
  unfold remainingOf
  omega

theorem remainingOf_le (f : Family) (b0 : Byte) : remainingOf f b0 ≤ 7 := by
  have := lengthOf_le f b0
  unfold remainingOf
  omega

theorem ErrorKind.code_le (k : ErrorKind) : k.code.toNat ≤ 7 := by cases k <;> decide

/-! ### Completion -/

theorem State.resultsWf_complete (s : State) {v n : Nat} (hv : v < BOUND .wide) (hn : n ≤ 8) :
    (s.complete v n).resultsWf := by
  have hval : (BitVec.ofNat 64 v).toNat < BOUND .wide := by
    rw [BitVec.toNat_ofNat]
    exact Nat.lt_of_le_of_lt (Nat.mod_le _ _) hv
  refine ⟨Nat.two_pow_pos _, hval, ?_, by simp, fun _ => rfl, fun h => absurd rfl h⟩
  rw [State.complete_rcnt, toNat_ofNat4 n hn]
  exact hn

theorem State.resultsWf_raiseWith (s : State) {k : ErrorKind} {n e : Nat} (hn : n ≤ 8) (he : e < 2 ^ s.cfg.teW)
    (hk : k ≠ .transport → e = 0) : (s.raiseWith k n e).resultsWf := by
  refine ⟨he, by simp [BOUND], ?_, k.code_le, fun h => hk fun heq => h (by simp [heq]), fun _ => rfl⟩
  rw [State.raiseWith_rcnt, toNat_ofNat4 n hn]
  exact hn

theorem State.resultsWf_of_zero {s : State} (hval : s.rval = 0) (hcnt : s.rcnt = 0) (herr : s.rerr = 0)
    (hte : s.rte = 0) : s.resultsWf := by
  rw [State.resultsWf, hval, hcnt, herr, hte]
  exact ⟨Nat.two_pow_pos _, by decide, by decide, by decide, fun _ => rfl, fun _ => rfl⟩

/-- A completion keeps the invariant: of its state it asks the operands and the memory only. -/
theorem State.inv_complete {s : State} (ho : s.operandsWf) (hm : s.memWf) {v n : Nat} (hv : v < BOUND .wide)
    (hn : n ≤ 8) : (s.complete v n).Inv :=
  (State.inv_iff _).mpr ⟨ho, s.resultsWf_complete hv hn, hm, State.phaseWf_idle rfl⟩

theorem State.inv_raise {s : State} (ho : s.operandsWf) (hm : s.memWf) (k : ErrorKind) {n : Nat} (hn : n ≤ 8) :
    (s.raise k n).Inv :=
  (State.inv_iff _).mpr ⟨ho, s.resultsWf_raiseWith hn (Nat.two_pow_pos _) fun _ => rfl, hm, State.phaseWf_idle rfl⟩

theorem State.inv_raiseTransport {s : State} (ho : s.operandsWf) (hm : s.memWf) {n e : Nat} (hn : n ≤ 8)
    (he : e < 2 ^ s.cfg.teW) : (s.raiseTransport n e).Inv :=
  (State.inv_iff _).mpr
    ⟨ho, s.resultsWf_raiseWith hn he fun h => absurd rfl h, hm, State.phaseWf_idle rfl⟩

/-! ### Encode and Decode -/

/-- A write inside a buffer that keeps the host's duty leaves memory well formed. -/
theorem State.memWf_memWrite {s : State} (hm : s.memWf) (hb : s.badBuffer = none) {bs : List Byte}
    (hl : bs.length ≤ s.len) : (s.memWrite s.base bs).memWf := by
  obtain ⟨hwf, hmem⟩ := hm
  obtain ⟨hfit, hord⟩ := s.badBuffer_eq_none_iff.mp hb
  refine ⟨Memory.wf_writeBytes _ _ _ hwf, fun c hc => ?_⟩
  rcases Memory.mem_writeBytes _ _ _ _ hc with ⟨hlo, hhi⟩ | hc
  · have hord := hord (c.1 - s.base) (by omega)
    rw [Nat.add_sub_cancel' hlo] at hord
    exact ⟨show c.1 < 2 ^ s.cfg.addrW by omega, hord⟩
  · exact hmem c hc

theorem startCommand_idle_next {w : BitVec 4} {body : State → Result} {s t : State} (hb : s.busy = false)
    (h : startCommand w body s = .next t) : body { s with cmd := w } = .next t := by
  rwa [(startCommand_eq w body s).2 hb] at h

theorem encodeBuffer_inv {f : Family} {s t : State} (ho : s.operandsWf) (hm : s.memWf)
    (h : encodeBuffer f s = .next t) : t.Inv := by
  obtain ⟨hb, ⟨-, rfl⟩ | ⟨bs, he, ⟨-, rfl⟩ | ⟨hl, rfl⟩⟩⟩ := encodeBuffer_next h
  · exact State.inv_raise ho hm _ (by decide)
  · exact State.inv_raise ho hm _ (by decide)
  · exact State.inv_complete (s := s.memWrite s.base bs) ho (State.memWf_memWrite hm hb hl) (by decide)
      (length_encodeBytes he).2

theorem decodeBuffer_inv {f : Family} {s t : State} (ho : s.operandsWf) (hm : s.memWf)
    (h : decodeBuffer f s = .next t) : t.Inv := by
  obtain ⟨-, ⟨-, rfl⟩ | ⟨-, -, rfl⟩ | ⟨-, -, rfl⟩⟩ := decodeBuffer_next h
  · exact State.inv_raise ho hm _ (by decide)
  · exact State.inv_raise (s := s.note _) ho hm _ (by decide)
  · exact State.inv_complete (s := s.note _) ho hm (unpack_lt f _ _ (Memory.length_readBytes _ _ _)) (lengthOf_le f _)

/-! ### The stream protocols -/

/-- A Write's issue step, once its command word stands in CMD. -/
theorem startWrite_inv {f : Family} {s t : State} (ho : s.operandsWf) (hr : s.resultsWf) (hm : s.memWf)
    (hcmd : s.cmd = writeCode f) (h : startWrite f s = .next t) : t.Inv := by
  obtain ⟨-, rfl⟩ | ⟨bs, he, rfl⟩ := startWrite_next h
  · exact State.inv_raise ho hm _ (by decide)
  · exact (State.inv_iff _).mpr
      ⟨ho, hr, hm, f, bs, hcmd, he, rfl, take_storeSB s.sb bs (length_encodeBytes he).2⟩

/-- The state in which a Read's first request is outstanding. -/
theorem State.inv_rdTag {s : State} (ho : s.operandsWf) (hr : s.resultsWf) (hm : s.memWf) {f : Family}
    (hcmd : s.cmd = readCode f) (hph : s.ph = .rdTag) (hn : s.nreq = 1) : s.Inv := by
  refine (State.inv_iff _).mpr ⟨ho, hr, hm, ?_⟩
  simp only [State.phaseWf, hph]
  exact ⟨⟨f, hcmd⟩, hn⟩

theorem eq_of_familyOf_readCode {f g : Family} (h : familyOf (readCode f) = some g) : f = g := by
  rw [familyOf_readCode] at h
  exact Option.some.inj h

/-- The first answer: one byte, or none. -/
theorem firstAnswer_inv {f : Family} {a : ReadAnswer} {s t : State} (h : s.Inv) (hcmd : s.cmd = readCode f)
    (hfit : a.fits 1 s.cfg.teW = true) (ht : firstAnswer f a s = .next t) : t.Inv := by
  obtain ⟨ho, hr, hm, -⟩ := s.inv_iff.mp h
  obtain ⟨bs, -, rfl⟩ | ⟨bs, e, rfl, rfl⟩ | ⟨b0, bs, -, ⟨hrem, rfl⟩ | ⟨hrem, rfl⟩⟩ := firstAnswer_next ht
  · exact State.inv_raise ho hm _ (by decide)
  · simp only [ReadAnswer.fits, StopReason.fits, Bool.and_eq_true, decide_eq_true_eq] at hfit
    exact State.inv_raiseTransport ho hm (by decide) hfit.2
  · refine State.inv_complete (s := { s with sb := storeSB s.sb 0 [b0] }) ho hm (unpack_lt f b0 [b0] ?_) (by decide)
    rw [lengthOf_eq_remainingOf_add_one, hrem, List.length_singleton]
  · refine (State.inv_iff _).mpr ⟨ho, hr, hm, f, hcmd, ?_, ?_⟩
    · rwa [storeSB_zero_head]
    · rw [storeSB_zero_head]

/-- The second answer completes the Read with at most as many bytes as the tag byte declares. -/
theorem secondAnswer_inv {f : Family} {a : ReadAnswer} {s t : State} (ho : s.operandsWf) (hm : s.memWf)
    (hfit : a.fits (remainingOf f s.sb[0]) s.cfg.teW = true) (ht : secondAnswer f a s = .next t) : t.Inv := by
  have hrem := remainingOf_le f s.sb[0]
  obtain ⟨bs, rfl, rfl⟩ | ⟨bs, e, rfl, rfl⟩ | ⟨bs, rfl, rfl⟩ := secondAnswer_next ht <;>
    simp only [ReadAnswer.fits, StopReason.fits, Bool.and_eq_true, decide_eq_true_eq] at hfit
  · exact State.inv_raise ho hm _ (by omega)
  · exact State.inv_raiseTransport ho hm (by omega) hfit.2
  · refine State.inv_complete (s := { s with sb := storeSB s.sb 1 bs }) ho hm (unpack_lt f s.sb[0] _ ?_) (by omega)
    rw [take_storeSB_one _ _ (by omega), lengthOf_eq_remainingOf_add_one, List.length_cons, hfit]

theorem onReadAnswer_inv {a : ReadAnswer} {s t : State} (h : s.Inv) (ht : onReadAnswer a s = .next t) : t.Inv := by
  obtain ⟨f, hf, hacc, hcase⟩ := onReadAnswer_next ht
  obtain ⟨ho, hr, hm, hphase⟩ := s.inv_iff.mp h
  obtain ⟨hfit, -⟩ := Bool.and_eq_true_iff.mp hacc
  rcases hcase with ⟨hph, ht⟩ | ⟨hph, ht⟩
  · have hphase' := hphase
    simp only [State.phaseWf, hph] at hphase
    obtain ⟨⟨g, hg⟩, hn⟩ := hphase
    obtain rfl : g = f := eq_of_familyOf_readCode (hg ▸ hf)
    rw [hn] at hfit
    have htaken : (s.takeAnswer a).Inv := (State.inv_iff _).mpr ⟨ho, hr, hm, hphase'⟩
    exact firstAnswer_inv htaken hg hfit ht
  · simp only [State.phaseWf, hph] at hphase
    obtain ⟨g, hg, -, hn⟩ := hphase
    obtain rfl : g = f := eq_of_familyOf_readCode (hg ▸ hf)
    have hrem := remainingOf_le g s.sb[0]
    rw [hn, toNat_ofNat4 _ (by omega)] at hfit
    exact secondAnswer_inv (s := s.takeAnswer a) ho hm hfit ht

theorem onWriteAnswer_inv {a : WriteAnswer} {s t : State} (h : s.Inv) (ht : onWriteAnswer a s = .next t) : t.Inv := by
  obtain ⟨ho, hr, hm, hphase⟩ := s.inv_iff.mp h
  obtain ⟨hph, hcase⟩ := onWriteAnswer_next ht
  simp only [State.phaseWf, hph] at hphase
  obtain ⟨f, bs, -, he, hn, -⟩ := hphase
  have hle : s.nreq.toNat ≤ 8 := by
    have := (length_encodeBytes he).2
    rwa [hn, toNat_ofNat4 _ this]
  obtain ⟨-, rfl⟩ | ⟨m, e, -, hlt, hte, rfl⟩ := hcase
  · exact State.inv_complete (s := { s with outSent := s.outSent ++ s.staged s.nreq.toNat }) ho hm (by decide) hle
  · exact State.inv_raiseTransport (s := { s with outSent := s.outSent ++ (s.staged s.nreq.toNat).take m }) ho hm
      (by omega) hte

theorem readFrom_inv {f : Family} {bs : List Byte} {s t : State} (h : s.Inv) (ht : readFrom f bs s = .next t) :
    t.Inv := by
  obtain ⟨ho, hr, hm, -⟩ := s.inv_iff.mp h
  rcases readFrom_next ht with ⟨-, rfl⟩ | ⟨-, u, hu, hrest⟩
  · exact h
  · have hu : u.Inv := onReadAnswer_inv (by exact State.inv_rdTag ho hr hm rfl rfl rfl) hu
    rcases hrest with ⟨-, rfl⟩ | ⟨-, ht⟩
    · exact hu
    · exact onReadAnswer_inv hu ht

/-! ### Instructions and the host -/

theorem exec_inv {i : Instr} {s t : State} (h : s.Inv) (ht : exec i s = .next t) : t.Inv := by
  cases hb : s.busy with
  | true =>
    rw [exec_busy i s hb] at ht
    cases ht
    exact h
  | false =>
    obtain ⟨ho, hr, hm, -⟩ := s.inv_iff.mp h
    rcases exec_shape i with ⟨f, -, e⟩ | ⟨f, -, e⟩ | ⟨f, -, e⟩ | ⟨f, -, e⟩ | ⟨-, w, -, e⟩ | ⟨f, tag, v, -, e⟩ <;>
      rw [e] at ht
    · exact encodeBuffer_inv (s := { s with cmd := encodeCode f }) ho hm (startCommand_idle_next hb ht)
    · exact decodeBuffer_inv (s := { s with cmd := decodeCode f }) ho hm (startCommand_idle_next hb ht)
    · exact startWrite_inv (s := { s with cmd := writeCode f }) ho hr hm rfl (startCommand_idle_next hb ht)
    · cases startCommand_idle_next hb ht
      exact State.inv_rdTag ho hr hm rfl rfl rfl
    · cases startCommand_idle_next hb ht
      exact State.inv_raise (s := { s with cmd := w }) ho hm _ (by decide)
    · exact readFrom_inv h ht

theorem State.hostWrite_inv {s : State} (h : s.Inv) (w : RegWrite) : (s.hostWrite w).Inv := by
  unfold State.hostWrite
  split
  · exact h
  · rename_i hb
    have hph : s.ph = .idle := s.not_busy_iff.mp (by simpa using hb)
    obtain ⟨⟨hcfg, hbase, hlen⟩, hr, hm, -⟩ := s.inv_iff.mp h
    have idle : ∀ u : State, u.operandsWf → u.resultsWf → u.memWf → u.ph = .idle → u.Inv :=
      fun u ho hr hm hp => u.inv_iff.mpr ⟨ho, hr, hm, State.phaseWf_idle hp⟩
    cases w with
    | val v => exact idle _ ⟨hcfg, hbase, hlen⟩ hr hm hph
    | base v => exact idle _ ⟨hcfg, s.addrOf_lt v, hlen⟩ hr hm hph
    | len v => exact idle _ ⟨hcfg, hbase, s.addrOf_lt v⟩ hr hm hph
    | readOnly r v => exact h

theorem State.resetBlock_inv {s : State} (h : s.Inv) (n : Nat) (bs : List Byte) : (s.resetBlock n bs).Inv := by
  obtain ⟨⟨hcfg, -, -⟩, -, hm, -⟩ := s.inv_iff.mp h
  exact (State.inv_iff _).mpr ⟨⟨hcfg, Nat.two_pow_pos _, Nat.two_pow_pos _⟩, State.resultsWf_of_zero rfl rfl rfl rfl, hm,
    State.phaseWf_idle rfl⟩

theorem issue_inv {d : Directive} {s t : State} (h : s.Inv) (ht : issue d s = .next t) : t.Inv := by
  obtain ⟨ho, hr, ⟨hwf, hmem⟩, hphase⟩ := s.inv_iff.mp h
  obtain ⟨heq, -, hcase⟩ := issue_next ht
  have hm : t.mem.wf = true ∧ ∀ c ∈ t.mem, c.1 < 2 ^ s.cfg.addrW ∧ isOrdinary s.cfg c.1 = true := by
    rcases hcase with hsame | ⟨a, b, -, hlt, hord, hwrite⟩
    · rw [hsame]
      exact ⟨hwf, hmem⟩
    · rw [hwrite]
      refine ⟨Memory.wf_write _ _ _ hwf, fun c hc => ?_⟩
      rcases Memory.mem_write _ _ _ _ hc with rfl | hc
      · exact ⟨hlt, hord⟩
      · exact hmem c hc
  rw [heq]
  exact (State.inv_iff _).mpr ⟨ho, hr, hm, hphase⟩

/-! ### Steps -/

/-- Every step keeps the machine's invariant. -/
theorem step_inv {s t : State} (h : s.Inv) (ht : step s = .next t) : t.Inv := by
  have parts := s.inv_iff.mp h
  obtain ⟨ts, -, hcase⟩ := step_next ht
  rcases hcase with ⟨n, bs, -, rfl⟩ | ⟨a, rest, -, ht⟩ | ⟨a, rest, -, ht⟩ | ⟨op, rest, i, -, -, ht⟩ | ⟨w, rest, -, rfl⟩ |
    ⟨f, bs, rest, -, ht⟩ | ⟨-, -, -, rfl⟩ | ⟨-, -, -, rfl⟩ | ⟨-, -, x, -, ht⟩
  · exact State.resetBlock_inv (s := { s with turns := ts }) ((State.inv_iff _).mpr parts) n bs
  · exact onReadAnswer_inv (s := { s with turns := ts, inTape := rest }) ((State.inv_iff _).mpr parts) ht
  · exact onWriteAnswer_inv (s := { s with turns := ts, outTape := rest }) ((State.inv_iff _).mpr parts) ht
  · exact exec_inv (s := { s with turns := ts, pend := rest }) ((State.inv_iff _).mpr parts) ht
  · exact State.hostWrite_inv (s := { s with turns := ts, pend := rest }) ((State.inv_iff _).mpr parts) w
  · exact readFrom_inv (s := { s with turns := ts, pend := rest }) ((State.inv_iff _).mpr parts) ht
  · exact (State.inv_iff _).mpr parts
  · exact (State.inv_iff _).mpr parts
  · exact issue_inv (s := { s with turns := ts }) ((State.inv_iff _).mpr parts) ht

/-- A step of one block keeps the platform's invariant: the other blocks have the same parameters, so that the memory the
step leaves is well formed for them too. -/
theorem Platform.step_inv {p q : Platform} {k : Nat} (h : p.Inv) (hq : p.step k = .next q) : q.Inv := by
  obtain ⟨s, t, hs, ht, rfl⟩ := Platform.act_next hq
  obtain ⟨hne, c, hall⟩ := p.wf_iff.mp h.wf
  have hmem : s ∈ p.insts := List.mem_of_getElem? hs
  have htInv : t.Inv := Machine.step_inv (h.insts s hmem) ht
  have htcfg : t.cfg = c := (step_cfg ht).trans (hall s hmem).1
  constructor
  · refine (Platform.wf_iff _).mpr ⟨by simpa using hne, c, fun u hu => ?_⟩
    rcases List.mem_or_eq_of_mem_set hu with hu | rfl
    · exact hall u hu
    · exact ⟨htcfg, rfl⟩
  · intro u hu
    rcases List.mem_or_eq_of_mem_set hu with hu | rfl
    · obtain ⟨ho, hr, -, hphase⟩ := (State.inv_iff _).mp (h.insts u hu)
      obtain ⟨-, -, htm, -⟩ := t.inv_iff.mp htInv
      refine (State.inv_iff _).mpr ⟨ho, hr, ?_, hphase⟩
      unfold State.memWf at htm ⊢
      rwa [htcfg, ← (hall u hu).1] at htm
    · exact htInv

/-- Settles O6: each way a step can end keeps the four parts of the invariant, and on a platform those of
the blocks beside it. -/
theorem everyStepKeepsTheInvariant : Obligations.EveryStepKeepsTheInvariant := by
  refine ⟨fun s t h ht => step_inv h ht, fun p q k h hq => ⟨Platform.step_inv h hq, ?_⟩⟩
  obtain ⟨s, t, -, -, rfl⟩ := Platform.act_next hq
  exact List.length_set

/-! ### Reset -/

theorem State.resetWith_inv {c : Config} (h : c.wf = true) : (State.resetWith c).Inv := by
  refine (State.inv_iff _).mpr ⟨⟨h, Nat.two_pow_pos _, Nat.two_pow_pos _⟩, State.resultsWf_of_zero rfl rfl rfl rfl, ?_,
    State.phaseWf_idle rfl⟩
  exact ⟨rfl, fun c hc => absurd hc List.not_mem_nil⟩

/-- Settles O5: reset leaves zeroes and an empty memory, which meet every part of the invariant; a platform after reset
is that state `n` times. -/
theorem resetMeetsTheInvariant : Obligations.ResetMeetsTheInvariant := by
  intro c hc
  refine ⟨State.resetWith_inv hc, fun n hn => ⟨⟨?_, fun s hs => ?_⟩, List.length_replicate⟩⟩
  · refine (Platform.wf_iff _).mpr ⟨?_, c, fun s hs => ?_⟩
    · simp only [Platform.reset, ne_eq, List.replicate_eq_nil_iff]
      omega
    · rw [List.eq_of_mem_replicate hs]
      exact ⟨rfl, rfl⟩
  · rw [List.eq_of_mem_replicate hs]
    exact State.resetWith_inv hc

end Sys2Proof.Machine

/-! ## Frames

What commands, answers and host actions leave unchanged, and which port operations they make. -/

namespace Sys2Proof.Machine

open Sys2Proof.Claims

/-! ### Commands on an idle block -/

theorem exec_encInstr (f : Family) {s : State} (hb : s.busy = false) :
    exec (encInstr f) s = encodeBuffer f { s with cmd := encodeCode f } := by
  cases f <;> exact (startCommand_eq _ _ s).2 hb

theorem exec_decInstr (f : Family) {s : State} (hb : s.busy = false) :
    exec (decInstr f) s = decodeBuffer f { s with cmd := decodeCode f } := by
  cases f <;> exact (startCommand_eq _ _ s).2 hb

theorem exec_wrInstr (f : Family) {s : State} (hb : s.busy = false) :
    exec (wrInstr f) s = startWrite f { s with cmd := writeCode f } := by
  cases f <;> exact (startCommand_eq _ _ s).2 hb

theorem exec_rdInstr (f : Family) {s : State} (hb : s.busy = false) :
    exec (rdInstr f) s = startRead { s with cmd := readCode f } := by
  cases f <;> exact (startCommand_eq _ _ s).2 hb

@[simp] theorem cmdWord_encInstr (f : Family) : cmdWord (encInstr f) = some (encodeCode f) := by cases f <;> rfl
@[simp] theorem cmdWord_decInstr (f : Family) : cmdWord (decInstr f) = some (decodeCode f) := by cases f <;> rfl
@[simp] theorem cmdWord_wrInstr (f : Family) : cmdWord (wrInstr f) = some (writeCode f) := by cases f <;> rfl
@[simp] theorem cmdWord_rdInstr (f : Family) : cmdWord (rdInstr f) = some (readCode f) := by cases f <;> rfl

/-- A data item is no command. -/
theorem cmdWord_of_item {i : Instr} {x : Family × Nat × Nat} (h : i.item? = some x) : cmdWord i = none := by
  cases i with
  | nL1 | nL2 | mL1 | mL2 | mL3 | mL4 | wL1 | wL2 | wL4 | wL8 => rfl
  | _ => cases h

/-! ### Encode and Decode -/

/-- R32: what `n` single-byte writes leave at each address. -/
theorem Memory.byteAt_writeBytes (m : Memory) (a : Nat) (bs : List Byte) (c : Nat) :
    (m.writeBytes a bs).byteAt c =
      if a ≤ c ∧ c < a + bs.length then bs.getD (c - a) 0 else m.byteAt c := by
  induction bs generalizing m a with
  | nil =>
    rw [if_neg (by simp)]
    rfl
  | cons b bs ih =>
    simp only [Memory.writeBytes, ih, Memory.byteAt_write, List.length_cons]
    rcases Nat.lt_trichotomy c a with hlt | rfl | hgt
    · rw [if_neg (by omega), if_neg (by omega), if_neg (by omega)]
    · rw [if_neg (by omega), if_pos rfl, if_pos (by omega), Nat.sub_self, List.getD_cons_zero]
    · obtain ⟨d, rfl⟩ : ∃ d, c = a + 1 + d := ⟨c - (a + 1), by omega⟩
      rw [if_neg (show ¬ a + 1 + d = a by omega), show a + 1 + d - (a + 1) = d by omega,
        show a + 1 + d - a = d + 1 by omega, List.getD_cons_succ]
      exact if_congr (by omega) rfl rfl

theorem encodeBuffer_frame {f : Family} {s t : State} (h : encodeBuffer f s = .next t) :
    t = { s with
      rval := t.rval, rcnt := t.rcnt, rerr := t.rerr, rte := t.rte, ph := .idle, mem := t.mem, portOps := t.portOps } := by
  obtain ⟨-, ⟨-, rfl⟩ | ⟨_, -, ⟨-, rfl⟩ | ⟨-, rfl⟩⟩⟩ := encodeBuffer_next h <;> rfl

theorem decodeBuffer_frame {f : Family} {s t : State} (h : decodeBuffer f s = .next t) :
    t = { s with
      rval := t.rval, rcnt := t.rcnt, rerr := t.rerr, rte := t.rte, ph := .idle, portOps := t.portOps } := by
  obtain ⟨-, ⟨-, rfl⟩ | ⟨-, -, rfl⟩ | ⟨-, -, rfl⟩⟩ := decodeBuffer_next h <;> rfl

/-- An Encode that reports an error has written nothing. -/
theorem encodeBuffer_mem_of_error {f : Family} {s t : State} (h : encodeBuffer f s = .next t) (herr : t.rerr ≠ 0) :
    t.mem = s.mem := by
  obtain ⟨-, ⟨-, rfl⟩ | ⟨_, -, ⟨-, rfl⟩ | ⟨-, rfl⟩⟩⟩ := encodeBuffer_next h
  · rfl
  · rfl
  · exact absurd rfl herr

/-- R32: an Encode writes no byte outside its encoding's. -/
theorem encodeBuffer_byteAt_outside {f : Family} {s t : State} {bs : List Byte} (h : encodeBuffer f s = .next t)
    (hbs : encodeBytes f s.val.toNat = some bs) {a : Nat} (ha : ¬ (s.base ≤ a ∧ a < s.base + bs.length)) :
    t.mem.byteAt a = s.mem.byteAt a := by
  obtain ⟨-, ⟨-, rfl⟩ | ⟨cs, hcs, ⟨-, rfl⟩ | ⟨-, rfl⟩⟩⟩ := encodeBuffer_next h
  · rfl
  · rfl
  · obtain rfl : bs = cs := Option.some.inj (hbs.symm.trans hcs)
    exact (Memory.byteAt_writeBytes _ _ _ _).trans (if_neg ha)

/-- Settles O41, by the frames of Encode and Decode with the command word stored. -/
theorem bufferCommandsFrame : Obligations.BufferCommandsFrame := by
  intro f s t hb
  have hp := s.not_busy_iff.mp hb
  rw [exec_encInstr f hb, exec_decInstr f hb]
  refine ⟨fun h => ⟨?_, fun herr => ?_, fun bs hbs a ha => ?_⟩, fun h => ?_⟩
  · have hframe := encodeBuffer_frame h
    rwa [← hp] at hframe
  · have hmem := encodeBuffer_mem_of_error h herr
    exact hmem
  · have hout := encodeBuffer_byteAt_outside h hbs ha
    exact hout
  · have hframe := decodeBuffer_frame h
    rwa [← hp] at hframe

/-! ### The stream commands and the streams' answers -/

theorem startWrite_frame {f : Family} {s t : State} (h : startWrite f s = .next t) :
    t = { s with
      rval := t.rval, rcnt := t.rcnt, rerr := t.rerr, rte := t.rte
      sb := t.sb, ph := t.ph, nreq := t.nreq, portOps := t.portOps } := by
  obtain ⟨-, rfl⟩ | ⟨_, -, rfl⟩ := startWrite_next h <;> rfl

theorem onReadAnswer_frame {a : ReadAnswer} {s t : State} (h : onReadAnswer a s = .next t) :
    t = { s with
      rval := t.rval, rcnt := t.rcnt, rerr := t.rerr, rte := t.rte
      sb := t.sb, ph := t.ph, nreq := t.nreq, portOps := t.portOps
      inTaken := t.inTaken, inEnded := t.inEnded } := by
  obtain ⟨f, -, -, ⟨-, h⟩ | ⟨-, h⟩⟩ := onReadAnswer_next h
  · obtain ⟨_, -, rfl⟩ | ⟨_, _, -, rfl⟩ | ⟨_, _, -, ⟨-, rfl⟩ | ⟨-, rfl⟩⟩ := firstAnswer_next h <;> rfl
  · obtain ⟨_, -, rfl⟩ | ⟨_, _, -, rfl⟩ | ⟨_, -, rfl⟩ := secondAnswer_next h <;> rfl

theorem onWriteAnswer_frame {a : WriteAnswer} {s t : State} (h : onWriteAnswer a s = .next t) :
    t = { s with
      rval := t.rval, rcnt := t.rcnt, rerr := t.rerr, rte := t.rte, ph := .idle, outSent := t.outSent } := by
  obtain ⟨-, ⟨-, rfl⟩ | ⟨_, _, -, -, -, rfl⟩⟩ := onWriteAnswer_next h <;> rfl

/-- Settles O42, by the frames of the Write's issue step and of each stream's answer. -/
theorem streamCommandsFrame : Obligations.StreamCommandsFrame := by
  refine ⟨fun f s t hb => ⟨fun h => ?_, fun h => ?_⟩, fun a s t h => ?_⟩
  · rw [exec_wrInstr f hb] at h
    exact startWrite_frame h
  · rw [exec_rdInstr f hb] at h
    cases h
    rfl
  · cases a with
    | read a =>
      have hframe := onReadAnswer_frame h
      rw [hframe]
    | write a =>
      have hframe := onWriteAnswer_frame h
      rw [hframe]

/-! ### Results are written at completion only (R18) -/

/-- R18: from `s` to `t` the block has left CMD and its operands alone, and the results too unless it has completed. -/
def keptUntilDone (s t : State) : Prop :=
  (t.busy = true → sameResults s t) ∧ t.cmd = s.cmd ∧ t.val = s.val ∧ t.base = s.base ∧ t.len = s.len

/-- Issuing a request writes none of them. -/
theorem keptUntilDone_request (s : State) (sb : Vector Byte 8) (ph : Phase) (n : BitVec 4) (ops : List PortOp) :
    keptUntilDone s { s with sb := sb, ph := ph, nreq := n, portOps := ops } :=
  ⟨fun _ => ⟨rfl, rfl, rfl, rfl⟩, rfl, rfl, rfl, rfl⟩

theorem keptUntilDone_trans {s u t : State} (hb : u.busy = true) (h : keptUntilDone s u) (h' : keptUntilDone u t) :
    keptUntilDone s t := by
  obtain ⟨hres, hcmd, hval, hbase, hlen⟩ := h
  obtain ⟨hres', hcmd', hval', hbase', hlen'⟩ := h'
  refine ⟨fun ht => ?_, hcmd'.trans hcmd, hval'.trans hval, hbase'.trans hbase, hlen'.trans hlen⟩
  obtain ⟨hrval, hrcnt, hrerr, hrte⟩ := hres hb
  obtain ⟨hrval', hrcnt', hrerr', hrte'⟩ := hres' ht
  exact ⟨hrval'.trans hrval, hrcnt'.trans hrcnt, hrerr'.trans hrerr, hrte'.trans hrte⟩

theorem keptUntilDone_complete (s : State) (v n : Nat) : keptUntilDone s (s.complete v n) :=
  ⟨fun h => (nomatch h), rfl, rfl, rfl, rfl⟩

theorem keptUntilDone_raiseWith (s : State) (k : ErrorKind) (n e : Nat) : keptUntilDone s (s.raiseWith k n e) :=
  ⟨fun h => (nomatch h), rfl, rfl, rfl, rfl⟩

theorem encodeBuffer_kept {f : Family} {s t : State} (h : encodeBuffer f s = .next t) : keptUntilDone s t := by
  rw [encodeBuffer_frame h]
  exact ⟨fun h => (nomatch h), rfl, rfl, rfl, rfl⟩

theorem decodeBuffer_kept {f : Family} {s t : State} (h : decodeBuffer f s = .next t) : keptUntilDone s t := by
  rw [decodeBuffer_frame h]
  exact ⟨fun h => (nomatch h), rfl, rfl, rfl, rfl⟩

theorem startWrite_kept {f : Family} {s t : State} (h : startWrite f s = .next t) : keptUntilDone s t := by
  obtain ⟨-, rfl⟩ | ⟨_, -, rfl⟩ := startWrite_next h
  · exact keptUntilDone_raiseWith s _ _ _
  · exact keptUntilDone_request s _ _ _ _

theorem onReadAnswer_kept {a : ReadAnswer} {s t : State} (h : onReadAnswer a s = .next t) : keptUntilDone s t := by
  obtain ⟨f, -, -, ⟨-, h⟩ | ⟨-, h⟩⟩ := onReadAnswer_next h
  · obtain ⟨_, -, rfl⟩ | ⟨_, _, -, rfl⟩ | ⟨_, _, -, ⟨-, rfl⟩ | ⟨-, rfl⟩⟩ := firstAnswer_next h
    · exact keptUntilDone_raiseWith (s.takeAnswer _) _ _ _
    · exact keptUntilDone_raiseWith (s.takeAnswer _) _ _ _
    · exact keptUntilDone_complete { s.takeAnswer _ with sb := _ } _ _
    · exact keptUntilDone_request (s.takeAnswer _) _ _ _ _
  · obtain ⟨_, -, rfl⟩ | ⟨_, _, -, rfl⟩ | ⟨_, -, rfl⟩ := secondAnswer_next h
    · exact keptUntilDone_raiseWith (s.takeAnswer _) _ _ _
    · exact keptUntilDone_raiseWith (s.takeAnswer _) _ _ _
    · exact keptUntilDone_complete { s.takeAnswer _ with sb := _ } _ _

theorem onWriteAnswer_kept {a : WriteAnswer} {s t : State} (h : onWriteAnswer a s = .next t) : keptUntilDone s t := by
  rw [onWriteAnswer_frame h]
  exact ⟨fun h => (nomatch h), rfl, rfl, rfl, rfl⟩

theorem onAnswer_kept {a : Answer} {s t : State} (h : onAnswer a s = .next t) : keptUntilDone s t := by
  cases a with
  | read a => exact onReadAnswer_kept h
  | write a => exact onWriteAnswer_kept h

theorem readFrom_kept {f : Family} {bs : List Byte} {s t : State} (hb : s.busy = false)
    (h : readFrom f bs s = .next t) : keptUntilDone { s with cmd := readCode f } t := by
  rcases readFrom_next h with ⟨hb', -⟩ | ⟨-, u, hu, hrest⟩
  · simp [hb] at hb'
  · have hkept := onReadAnswer_kept hu
    rcases hrest with ⟨-, rfl⟩ | ⟨hub, h⟩
    · exact hkept
    · exact keptUntilDone_trans hub hkept (onReadAnswer_kept h)

/-- An instruction stores its command word, for an item that of the Read which takes it, and leaves the rest to
completion. -/
theorem exec_kept {i : Instr} {s t : State} (hb : s.busy = false) (h : exec i s = .next t) :
    ∃ w, (∀ w', cmdWord i = some w' → w' = w) ∧ keptUntilDone { s with cmd := w } t := by
  rcases exec_shape i with ⟨f, rfl, e⟩ | ⟨f, rfl, e⟩ | ⟨f, rfl, e⟩ | ⟨f, rfl, e⟩ | ⟨-, w, hw, e⟩ | ⟨f, tag, v, hi, e⟩ <;>
    rw [e] at h
  · exact ⟨encodeCode f, by simp, encodeBuffer_kept (startCommand_idle_next hb h)⟩
  · exact ⟨decodeCode f, by simp, decodeBuffer_kept (startCommand_idle_next hb h)⟩
  · exact ⟨writeCode f, by simp, startWrite_kept (startCommand_idle_next hb h)⟩
  · cases startCommand_idle_next hb h
    exact ⟨readCode f, by simp, keptUntilDone_request { s with cmd := readCode f } _ _ _ _⟩
  · cases startCommand_idle_next hb h
    exact ⟨w, by simp [hw], keptUntilDone_raiseWith { s with cmd := w } _ _ _⟩
  · exact ⟨readCode f, by simp [cmdWord_of_item hi], readFrom_kept hb h⟩

/-! ### The host's turn -/

/-- What a step makes of a turn's action. -/
def Action.outcome : Action → Result
  | .run i s => exec i s
  | .done o => o

theorem step_eq_outcome (s : State) : step s = (nextAction s).outcome := by
  unfold step
  cases nextAction s <;> rfl

/-- A step whose turn is listed. -/
theorem step_turn {s : State} {x : Turn} {ts : List Turn} (h : s.turns = x :: ts) :
    step s = (agentTurn x { s with turns := ts }).outcome := by
  rw [step_eq_outcome, nextAction, h]

/-- A step with no turn listed. -/
theorem step_default {s : State} (h : s.turns = []) : step s = (agentTurn (defaultTurn s) s).outcome := by
  rw [step_eq_outcome, nextAction, h]

theorem defaultTurn_idle {s : State} (h : s.ph = .idle) : defaultTurn s = .host := by
  rw [defaultTurn, h]

theorem hostTurn_cons {s : State} {op : PendingOp} {rest : List PendingOp} (h : s.pend = op :: rest) :
    hostTurn s = perform op { s with pend := rest } := by
  rw [hostTurn, h]

/-- R17: every write, command or source of the host is dropped while the block is busy. -/
theorem perform_busy (op : PendingOp) {s : State} (hb : s.busy = true) : (perform op s).outcome = .next s := by
  cases op with
  | command w => exact exec_busy _ s hb
  | write w => exact congrArg Host.Outcome.next (s.hostWrite_busy w hb)
  | source f bs =>
    simp only [perform]
    split
    · exact exec_busy _ s hb
    · simp [Action.outcome, readFrom, hb]

/-- While the block is busy the host moves in its script and stores to memory; the block is as it was. -/
theorem hostTurn_busy {s t : State} (hb : s.busy = true) (h : (hostTurn s).outcome = .next t) :
    t = { s with
      mem := t.mem, inEnded := t.inEnded, si := t.si, pend := t.pend, waiting := t.waiting, log := t.log } := by
  cases hp : s.pend with
  | cons op rest =>
    have hsame := perform_busy op (s := { s with pend := rest }) hb
    rw [hostTurn_cons hp, hsame] at h
    cases h
    rfl
  | nil =>
    simp only [hostTurn, hp, hb, if_true] at h
    split at h
    · cases h
      rfl
    · split at h
      · cases h
      · exact (issue_next h).1

/-- Settles O9: an instruction by its kept operands and results, an answer alike, and a host turn of a busy block by its
frame. -/
theorem resultsAreWrittenAtCompletionOnly : Obligations.ResultsAreWrittenAtCompletionOnly := by
  refine ⟨fun i s t h => ?_, fun a s t h => onAnswer_kept h, fun s t ts hb hts h => ?_⟩
  · cases hb : s.busy with
    | true =>
      rw [exec_busy i s hb] at h
      cases h
      exact ⟨fun _ => ⟨rfl, rfl, rfl, rfl⟩, rfl, rfl, rfl⟩
    | false =>
      obtain ⟨w, -, hres, -, hrest⟩ := exec_kept hb h
      exact ⟨hres, hrest⟩
  · rw [step_turn hts] at h
    rw [hostTurn_busy (s := { s with turns := ts }) hb h]
    exact ⟨rfl, rfl, rfl, rfl⟩

/-! ### Host writes -/

/-- While the block is idle a write to BASE or LEN stores one number of the register's width. -/
theorem State.hostWrite_base {s : State} (hb : s.busy = false) (v : Int) :
    s.hostWrite (.base v) = { s with base := s.addrOf v, freeCtr := s.freeAfter v } := by
  simp [State.hostWrite, hb]

theorem State.hostWrite_len {s : State} (hb : s.busy = false) (v : Int) :
    s.hostWrite (.len v) = { s with len := s.addrOf v, freeCtr := s.freeAfter v } := by
  simp [State.hostWrite, hb]

theorem State.hostWrite_val {s : State} (hb : s.busy = false) (v : Value) :
    s.hostWrite (.val v) = { s with val := v } := by
  simp [State.hostWrite, hb]

theorem State.hostWrite_readOnly (s : State) (r : ReadOnlyReg) (v : Nat) : s.hostWrite (.readOnly r v) = s := by
  simp [State.hostWrite]

/-- Settles O8, by the equation of each register's write and what an instruction stores in CMD. -/
theorem hostWritesFollowBusy : Obligations.HostWritesFollowBusy := by
  refine ⟨State.hostWrite_busy, fun s i hb => exec_busy i s hb, fun s hb => ?_, fun s => ⟨rfl, rfl, rfl, rfl⟩⟩
  refine ⟨fun v => ?_, fun a ha => ?_, fun n hn => ?_, fun v => ?_, s.hostWrite_readOnly, fun i w t hw h => ?_⟩
  · rw [State.hostWrite_val hb]
    exact ⟨rfl, rfl⟩
  · obtain ⟨haddr, hfree⟩ := s.addrOf_of_lt a ha
    rw [State.hostWrite_base hb, haddr, hfree]
    exact ⟨rfl, rfl⟩
  · obtain ⟨haddr, hfree⟩ := s.addrOf_of_lt n hn
    rw [State.hostWrite_len hb, haddr, hfree]
    exact ⟨rfl, rfl⟩
  · exact ⟨s.addrOf v, s.freeAfter v, s.addrOf_lt v, State.hostWrite_base hb v, State.hostWrite_len hb v⟩
  · obtain ⟨w', hword, -, hcmd, -⟩ := exec_kept hb h
    obtain rfl := hword w hw
    exact ⟨hcmd, congrArg BitVec.toNat hcmd⟩

/-! ### Port operations (R16) -/

theorem onlyOps_refl (p : PortOp → Prop) (s : State) : onlyOps p s s := ⟨[], by simp, by simp⟩

theorem onlyOps_trans {p : PortOp → Prop} {s u t : State} (h : onlyOps p s u) (h' : onlyOps p u t) : onlyOps p s t := by
  obtain ⟨ops, hops, hall⟩ := h
  obtain ⟨ops', hops', hall'⟩ := h'
  refine ⟨ops ++ ops', by rw [hops', hops, List.append_assoc], fun o ho => ?_⟩
  rcases List.mem_append.mp ho with ho | ho
  · exact hall o ho
  · exact hall' o ho

theorem mem_memWriteOps {a : Nat} {bs : List Byte} {o : PortOp} (h : o ∈ memWriteOps a bs) : ∃ c b, o = .memWrite c b := by
  induction bs generalizing a with
  | nil => cases h
  | cons b bs ih =>
    rcases List.mem_cons.mp h with rfl | h
    · exact ⟨a, b, rfl⟩
    · exact ih h

theorem mem_memReadOps {a n : Nat} {o : PortOp} (h : o ∈ memReadOps a n) : ∃ c, o = .memRead c := by
  obtain ⟨i, -, rfl⟩ := List.mem_map.mp h
  exact ⟨a + i, rfl⟩

theorem encodeBuffer_onlyOps {f : Family} {s t : State} (h : encodeBuffer f s = .next t) :
    onlyOps (fun o => ∃ a b, o = .memWrite a b) s t := by
  obtain ⟨-, ⟨-, rfl⟩ | ⟨bs, -, ⟨-, rfl⟩ | ⟨-, rfl⟩⟩⟩ := encodeBuffer_next h
  · exact onlyOps_refl _ s
  · exact onlyOps_refl _ s
  · exact ⟨memWriteOps s.base bs, rfl, fun o => mem_memWriteOps⟩

theorem decodeBuffer_onlyOps {f : Family} {s t : State} (h : decodeBuffer f s = .next t) :
    onlyOps (fun o => ∃ a, o = .memRead a) s t := by
  obtain ⟨-, ⟨-, rfl⟩ | ⟨-, -, rfl⟩ | ⟨-, -, rfl⟩⟩ := decodeBuffer_next h
  · exact onlyOps_refl _ s
  · exact ⟨memReadOps s.base 1, rfl, fun o => mem_memReadOps⟩
  · exact ⟨_, rfl, fun o => mem_memReadOps⟩

/-- An answer of the input stream makes the block ask for more, or for nothing. -/
theorem onReadAnswer_onlyOps {a : ReadAnswer} {s t : State} (h : onReadAnswer a s = .next t) :
    onlyOps (fun o => ∃ n, o = .streamRead n) s t := by
  obtain ⟨f, -, -, ⟨-, h⟩ | ⟨-, h⟩⟩ := onReadAnswer_next h
  · obtain ⟨_, -, rfl⟩ | ⟨_, _, -, rfl⟩ | ⟨b0, _, -, ⟨-, rfl⟩ | ⟨-, rfl⟩⟩ := firstAnswer_next h
    · exact onlyOps_refl _ s
    · exact onlyOps_refl _ s
    · exact onlyOps_refl _ s
    · exact ⟨[.streamRead (remainingOf f b0)], rfl, fun o ho => ⟨_, List.mem_singleton.mp ho⟩⟩
  · obtain ⟨_, -, rfl⟩ | ⟨_, _, -, rfl⟩ | ⟨_, -, rfl⟩ := secondAnswer_next h <;> exact onlyOps_refl _ s

/-- An answer of the output stream leads to no port operation. -/
theorem onWriteAnswer_portOps {a : WriteAnswer} {s t : State} (h : onWriteAnswer a s = .next t) :
    t.portOps = s.portOps := by
  rw [onWriteAnswer_frame h]

theorem onAnswer_onlyOps {a : Answer} {s t : State} (h : onAnswer a s = .next t) :
    onlyOps (fun o => ∃ n, o = .streamRead n) s t := by
  cases a with
  | read a => exact onReadAnswer_onlyOps h
  | write a => exact ⟨[], by rw [onWriteAnswer_portOps h, List.append_nil], by simp⟩

/-- Answers lead to stream reads only. -/
theorem feed_onlyOps {as : List Answer} {s t : State} (h : feed as s = .next t) :
    onlyOps (fun o => ∃ n, o = .streamRead n) s t := by
  induction as generalizing s with
  | nil =>
    cases h
    exact onlyOps_refl _ _
  | cons a as ih =>
    cases hb : s.busy with
    | false =>
      rw [feed_idle _ s hb] at h
      cases h
      exact onlyOps_refl _ _
    | true =>
      rw [feed_cons_busy a as s hb] at h
      obtain ⟨u, hu, h⟩ := andThen_next h
      exact onlyOps_trans (onAnswer_onlyOps hu) (ih h)

/-- A Write in flight takes one answer of the output stream and makes no port operation any more. -/
theorem feed_wrData_portOps {as : List Answer} {s t : State} (hp : s.ph = .wrData) (h : feed as s = .next t) :
    t.portOps = s.portOps := by
  cases as with
  | nil =>
    cases h
    rfl
  | cons a as =>
    have hb : s.busy = true := s.busy_iff.mpr (by simp [hp])
    rw [feed_cons_busy a as s hb] at h
    obtain ⟨u, hu, hrest⟩ := andThen_next h
    cases a with
    | read a =>
      obtain ⟨-, -, -, ⟨hp', -⟩ | ⟨hp', -⟩⟩ := onReadAnswer_next hu <;> simp [hp] at hp'
    | write a =>
      have hidle : u.busy = false := by
        rw [onWriteAnswer_frame hu]
        rfl
      rw [feed_idle as u hidle] at hrest
      cases hrest
      exact onWriteAnswer_portOps hu

/-- A Write makes the one request of its issue step. -/
theorem writeFed_onlyOps {f : Family} {as : List Answer} {s u t : State} (hu : startWrite f s = .next u)
    (h : feed as u = .next t) : onlyOps (fun o => ∃ bs, o = .streamWrite bs) s t := by
  obtain ⟨-, rfl⟩ | ⟨bs, -, rfl⟩ := startWrite_next hu
  · rw [feed_idle as _ rfl] at h
    cases h
    exact onlyOps_refl _ s
  · rw [onlyOps, feed_wrData_portOps rfl h]
    exact ⟨[.streamWrite bs], rfl, fun o ho => ⟨_, List.mem_singleton.mp ho⟩⟩

/-- Settles O48: Encode and Decode are complete at once; the answers to a Read bring stream reads only, and those to a
Write bring none. -/
theorem eachCommandReachesOneSpace : Obligations.EachCommandReachesOneSpace := by
  intro as f s t hb
  refine ⟨fun h => ?_, fun h => ?_, fun h => ?_, fun h => ?_⟩ <;> obtain ⟨u, hu, hfed⟩ := andThen_next h
  · rw [exec_encInstr f hb] at hu
    have hidle : u.busy = false := by
      rw [encodeBuffer_frame hu]
      rfl
    rw [feed_idle as u hidle] at hfed
    cases hfed
    have hops := encodeBuffer_onlyOps hu
    exact hops
  · rw [exec_decInstr f hb] at hu
    have hidle : u.busy = false := by
      rw [decodeBuffer_frame hu]
      rfl
    rw [feed_idle as u hidle] at hfed
    cases hfed
    have hops := decodeBuffer_onlyOps hu
    exact hops
  · rw [exec_rdInstr f hb] at hu
    cases hu
    have hissue : onlyOps (fun o => ∃ n, o = .streamRead n) s
        { s with cmd := readCode f, ph := .rdTag, nreq := 1, portOps := s.portOps ++ [.streamRead 1] } :=
      ⟨[.streamRead 1], rfl, fun o ho => ⟨_, List.mem_singleton.mp ho⟩⟩
    exact onlyOps_trans hissue (feed_onlyOps hfed)
  · rw [exec_wrInstr f hb] at hu
    have hops := writeFed_onlyOps hu hfed
    exact hops

/-! ### Reset, and the words the host brings -/

/-- A reset turn that is listed is what the step does. -/
theorem step_reset {s : State} {n : Nat} {bs : List Byte} {ts : List Turn} (h : s.turns = .reset n bs :: ts) :
    step s = .next ({ s with turns := ts }.resetBlock n bs) :=
  step_turn h

/-- R200, R41: what a Read in flight has still consumed of the stream. -/
theorem State.drainedBy_read {s : State} (h : s.ph = .rdTag ∨ s.ph = .rdCont) (bs : List Byte) :
    s.drainedBy bs = if s.inEnded then [] else bs.take s.nreq.toNat := by
  cases he : s.inEnded <;> simp [State.drainedBy, h, he]

/-- With no Read in flight a reset takes nothing from the input stream. -/
theorem State.drainedBy_other {s : State} (h : s.ph = .idle ∨ s.ph = .wrData) (bs : List Byte) : s.drainedBy bs = [] := by
  rcases h with h | h <;> simp [State.drainedBy, h]

/-- Settles O1, by the reset turn's step and what it drains in each phase. -/
theorem resetPutsTheSpecsValues : Obligations.ResetPutsTheSpecsValues := by
  refine ⟨fun c r hr => ?_, fun c => ⟨rfl, rfl⟩, fun s n bs ts hts => ?_⟩
  · cases r <;> rfl
  · refine ⟨_, step_reset hts, fun r => by cases r <;> rfl, rfl, rfl, rfl, rfl, rfl, rfl, rfl, rfl, rfl, ?_, ?_, ?_, ?_⟩
    · intro hp
      simp [State.resetBlock, hp]
    · intro hp
      simp [State.resetBlock, hp, State.staged]
    · intro hp
      simp [State.resetBlock, State.drainedBy_other (s := { s with turns := ts }) hp]
    · intro hp
      simp [State.resetBlock, State.drainedBy_read (s := { s with turns := ts }) hp]

/-- R63: a byte that holds a 4-bit word decodes to the command the word names. -/
theorem decode_command_word (w : BitVec 4) : decode .command [w.setWidth 8] = .ok (decodeCmd w, []) := by
  have hlt : (w.setWidth 8).toNat < 16 := by
    rw [BitVec.toNat_setWidth]
    omega
  have hback : (w.setWidth 8).setWidth 4 = w := by
    apply BitVec.eq_of_toNat_eq
    simp only [BitVec.toNat_setWidth]
    omega
  simp only [decode, if_pos hlt, hback]

theorem perform_source {f : Family} {bs r : List Byte} {i : Instr} (h : decode (.data f) bs = .ok (i, r)) (s : State) :
    perform (.source f bs) s = .run i s := by
  simp only [perform, h]

/-- Settles O2: on the host's turn the step is what the first pending action comes to. -/
theorem stepRunsTheDecodedInstruction : Obligations.StepRunsTheDecodedInstruction := by
  refine ⟨fun s ts w rest hts hp => ?_, fun s w rest hts hph hp => ?_, fun s ts f bs r i rest hts hp hd => ?_⟩
  · refine ⟨_, _, decode_command_word w, ?_⟩
    rw [step_turn hts, agentTurn, hostTurn_cons (s := { s with turns := ts }) hp]
    rfl
  · rw [step_default hts, defaultTurn_idle hph]
    exact congrArg Action.outcome (hostTurn_cons hp)
  · rw [step_turn hts, agentTurn, hostTurn_cons (s := { s with turns := ts }) hp, perform_source hd]
    rfl

end Sys2Proof.Machine

/-! ## Stateless commands

R19: two runs of one command on the same operands and answers stay alike, step by step. -/

namespace Sys2Proof.Machine

open Sys2Proof.Claims

/-! ### Two outcomes side by side -/

/-- Both runs go on, to related states, or both stop for the same reason. -/
def outcomesAgree (R : State → State → Prop) : Result → Result → Prop
  | .next t, .next t' => R t t'
  | .fault r, .fault r' => r = r'
  | .refused r, .refused r' => r = r'
  | _, _ => False

theorem outcomesAgree_andThen {R Q : State → State → Prop} {o o' : Result} {k k' : State → Result}
    (h : outcomesAgree R o o') (hk : ∀ t t', R t t' → outcomesAgree Q (k t) (k' t')) :
    outcomesAgree Q (andThen o k) (andThen o' k') := by
  cases o <;> cases o'
  case next.next t t' => exact hk t t' h
  case fault.fault | refused.refused => exact h
  all_goals exact h.elim

/-- Two records have grown by the same entries, from `x` to `y` and from `x'` to `y'`. -/
def grewAlike {α : Type} (x x' y y' : List α) : Prop := ∃ d, y = x ++ d ∧ y' = x' ++ d

theorem grewAlike_refl {α : Type} (x x' : List α) : grewAlike x x' x x' := ⟨[], by simp, by simp⟩

theorem grewAlike_append {α : Type} {x x' y y' : List α} (h : grewAlike x x' y y') (d : List α) :
    grewAlike x x' (y ++ d) (y' ++ d) := by
  obtain ⟨e, rfl, rfl⟩ := h
  exact ⟨e ++ d, List.append_assoc _ _ _, List.append_assoc _ _ _⟩

/-! ### What the two runs have in common -/

/-- What the runs that began in `s` and `s'` have in common at `t` and `t'`, in every phase: the parameters, CMD, whether
the input stream has ended, the bytes of the buffer, and what the block has done at its ports. -/
def sharedAlike (s s' t t' : State) : Prop :=
  (t'.cfg = t.cfg ∧ t'.cmd = t.cmd ∧ t'.inEnded = t.inEnded) ∧
  (∀ i < s.len, t'.mem.byteAt (s.base + i) = t.mem.byteAt (s.base + i)) ∧
  grewAlike s.portOps s'.portOps t.portOps t'.portOps ∧
  grewAlike s.outSent s'.outSent t.outSent t'.outSent ∧
  grewAlike s.inTaken s'.inTaken t.inTaken t'.inTaken

/-- What they have in common in the phase they are in: the results at the end; while a request is outstanding, NREQ and
the bytes of SB that the rest of the command reads. -/
def phaseAlike (t t' : State) : Prop :=
  t'.ph = t.ph ∧
  match t.ph with
  | .idle => sameResults t t'
  | .rdTag => t'.nreq = t.nreq
  | .rdCont => t'.nreq = t.nreq ∧ t'.sb[0] = t.sb[0]
  | .wrData => t'.nreq = t.nreq ∧ t'.staged t.nreq.toNat = t.staged t.nreq.toNat

/-- The two runs are at the same place of the same command. -/
def alike (s s' t t' : State) : Prop := sharedAlike s s' t t' ∧ phaseAlike t t'

section
variable {s s' t t' : State}

theorem sharedAlike_start (h : sameOperands s s') (hcmd : s'.cmd = s.cmd) : sharedAlike s s' s s' := by
  obtain ⟨hcfg, -, -, -, hended, hmem⟩ := h
  exact ⟨⟨hcfg, hcmd, hended⟩, hmem, grewAlike_refl _ _, grewAlike_refl _ _, grewAlike_refl _ _⟩

theorem sharedAlike_note (h : sharedAlike s s' t t') (ops : List PortOp) :
    sharedAlike s s' (t.note ops) (t'.note ops) := by
  obtain ⟨hfix, hmem, hops, hsent, htaken⟩ := h
  exact ⟨hfix, hmem, grewAlike_append hops ops, hsent, htaken⟩

theorem sharedAlike_memWrite (h : sharedAlike s s' t t') (a : Nat) (bs : List Byte) :
    sharedAlike s s' (t.memWrite a bs) (t'.memWrite a bs) := by
  obtain ⟨hfix, hmem, hops, hsent, htaken⟩ := h
  refine ⟨hfix, fun i hi => ?_, grewAlike_append hops _, hsent, htaken⟩
  simp only [State.memWrite_mem, Memory.byteAt_writeBytes, hmem i hi]

theorem sharedAlike_takeAnswer (h : sharedAlike s s' t t') (a : ReadAnswer) :
    sharedAlike s s' (t.takeAnswer a) (t'.takeAnswer a) := by
  obtain ⟨⟨hcfg, hcmd, hended⟩, hmem, hops, hsent, htaken⟩ := h
  exact ⟨⟨hcfg, hcmd, congrArg (· || a.ends) hended⟩, hmem, hops, hsent, grewAlike_append htaken a.bytes⟩

theorem sharedAlike_sent (h : sharedAlike s s' t t') (bs : List Byte) :
    sharedAlike s s' { t with outSent := t.outSent ++ bs } { t' with outSent := t'.outSent ++ bs } := by
  obtain ⟨hfix, hmem, hops, hsent, htaken⟩ := h
  exact ⟨hfix, hmem, hops, grewAlike_append hsent bs, htaken⟩

theorem alike_complete (h : sharedAlike s s' t t') (v n : Nat) : alike s s' (t.complete v n) (t'.complete v n) :=
  ⟨h, rfl, rfl, rfl, rfl, rfl⟩

theorem alike_raiseWith (h : sharedAlike s s' t t') (k : ErrorKind) (n e : Nat) :
    alike s s' (t.raiseWith k n e) (t'.raiseWith k n e) :=
  ⟨h, rfl, rfl, rfl, rfl, rfl⟩

/-! ### The commands -/

theorem badBuffer_of_sameOperands (h : sameOperands s s') : s'.badBuffer = s.badBuffer := by
  obtain ⟨hcfg, -, hbase, hlen, -, -⟩ := h
  simp only [State.badBuffer, hcfg, hbase, hlen]

/-- The bytes a command reads inside its buffer are the same in both runs. -/
theorem readBytes_of_sameOperands (h : sameOperands s s') {n : Nat} (hn : n ≤ s.len) :
    s'.mem.readBytes s.base n = s.mem.readBytes s.base n := by
  obtain ⟨-, -, -, -, -, hmem⟩ := h
  refine List.map_congr_left fun i hi => hmem i ?_
  have := List.mem_range.mp hi
  omega

theorem encodeBuffer_alike (f : Family) (h : sameOperands s s') (hcmd : s'.cmd = s.cmd) :
    outcomesAgree (alike s s') (encodeBuffer f s) (encodeBuffer f s') := by
  have hshared := sharedAlike_start h hcmd
  have hbad := badBuffer_of_sameOperands h
  obtain ⟨-, hval, hbase, hlen, -, -⟩ := h
  cases hb : s.badBuffer with
  | some r =>
    rw [(badBuffer_refused f s hb).1, (badBuffer_refused f s' (hbad.trans hb)).1]
    rfl
  | none =>
    rw [encodeBuffer_good f hb, encodeBuffer_good f (hbad.trans hb), hval, hbase, hlen]
    cases encodeBytes f s.val.toNat with
    | none => exact alike_raiseWith hshared _ _ _
    | some bs =>
      dsimp only
      split
      · exact alike_raiseWith hshared _ _ _
      · exact alike_complete (sharedAlike_memWrite hshared s.base bs) _ _

theorem decodeBuffer_alike (f : Family) (h : sameOperands s s') (hcmd : s'.cmd = s.cmd) :
    outcomesAgree (alike s s') (decodeBuffer f s) (decodeBuffer f s') := by
  have hshared := sharedAlike_start h hcmd
  have hbad := badBuffer_of_sameOperands h
  have hread := fun n => readBytes_of_sameOperands h (n := n)
  obtain ⟨-, -, hbase, hlen, -, hmem⟩ := h
  cases hb : s.badBuffer with
  | some r =>
    rw [(badBuffer_refused f s hb).2, (badBuffer_refused f s' (hbad.trans hb)).2]
    rfl
  | none =>
    rw [decodeBuffer_good f hb, decodeBuffer_good f (hbad.trans hb), hbase, hlen]
    by_cases h0 : s.len = 0
    · rw [if_pos h0, if_pos h0]
      exact alike_raiseWith hshared _ _ _
    · have htag : s'.mem.byteAt s.base = s.mem.byteAt s.base := hmem 0 (Nat.pos_of_ne_zero h0)
      rw [if_neg h0, if_neg h0, htag]
      dsimp only
      by_cases hl : s.len < lengthOf f (s.mem.byteAt s.base)
      · rw [if_pos hl, if_pos hl]
        exact alike_raiseWith (sharedAlike_note hshared _) _ _ _
      · rw [if_neg hl, if_neg hl, hread _ (Nat.not_lt.mp hl)]
        exact alike_complete (sharedAlike_note hshared _) _ _

theorem startWrite_alike (f : Family) (h : sameOperands s s') (hcmd : s'.cmd = s.cmd) :
    outcomesAgree (alike s s') (startWrite f s) (startWrite f s') := by
  have hshared := sharedAlike_start h hcmd
  obtain ⟨-, hval, -, -, -, -⟩ := h
  unfold startWrite
  rw [hval]
  cases he : encodeBytes f s.val.toNat with
  | none => exact alike_raiseWith hshared _ _ _
  | some bs =>
    have hle := (length_encodeBytes he).2
    refine ⟨sharedAlike_note hshared [.streamWrite bs], rfl, rfl, ?_⟩
    simp only [State.staged, toNat_ofNat4 _ hle, take_storeSB _ _ hle]

theorem startRead_alike (h : sameOperands s s') (hcmd : s'.cmd = s.cmd) :
    outcomesAgree (alike s s') (startRead s) (startRead s') :=
  ⟨sharedAlike_note (sharedAlike_start h hcmd) [.streamRead 1], rfl, rfl⟩

/-! ### The answers -/

/-- What the second answer's value is read from depends on SB[0] and the delivered bytes only. -/
theorem take_storeSB_one_congr {sb sb' : Vector Byte 8} (h : sb'[0] = sb[0]) (bs : List Byte) :
    (storeSB sb' 1 bs).toList.take (bs.length + 1) = (storeSB sb 1 bs).toList.take (bs.length + 1) := by
  refine List.ext_getElem (by simp) fun i hi _ => ?_
  simp only [List.length_take, Vector.length_toList] at hi
  simp only [List.getElem_take, storeSB, Vector.getElem_toList, Vector.getElem_ofFn]
  cases i with
  | zero => simpa using h
  | succ i => rw [if_pos (by omega), if_pos (by omega)]

theorem firstAnswer_alike (f : Family) (a : ReadAnswer) (h : sharedAlike s s' t t') :
    outcomesAgree (alike s s') (firstAnswer f a t) (firstAnswer f a t') := by
  match a with
  | .short _ .eoi => exact alike_raiseWith h _ _ _
  | .short _ (.err e) => exact alike_raiseWith h _ _ _
  | .full [] => rfl
  | .full (b0 :: _) =>
    unfold firstAnswer
    dsimp only
    split
    · exact alike_complete h _ _
    · refine ⟨sharedAlike_note h [.streamRead (remainingOf f b0)], rfl, rfl, ?_⟩
      rw [storeSB_zero_head, storeSB_zero_head]

theorem secondAnswer_alike (f : Family) (a : ReadAnswer) (h : sharedAlike s s' t t') (hsb : t'.sb[0] = t.sb[0]) :
    outcomesAgree (alike s s') (secondAnswer f a t) (secondAnswer f a t') := by
  match a with
  | .short _ .eoi => exact alike_raiseWith h _ _ _
  | .short _ (.err e) => exact alike_raiseWith h _ _ _
  | .full bs =>
    unfold secondAnswer
    simp only [State.staged, take_storeSB_one_congr hsb]
    exact alike_complete h _ _

theorem acceptsAnswer_alike (h : sharedAlike s s' t t') (hn : t'.nreq = t.nreq) (a : ReadAnswer) :
    t'.acceptsAnswer a = t.acceptsAnswer a := by
  obtain ⟨⟨hcfg, -, hended⟩, -⟩ := h
  simp only [State.acceptsAnswer, hn, hcfg, hended]

theorem onReadAnswer_alike (a : ReadAnswer) (h : alike s s' t t') :
    outcomesAgree (alike s s') (onReadAnswer a t) (onReadAnswer a t') := by
  obtain ⟨hshared, hph, hphase⟩ := h
  have ⟨⟨_, hcmd, _⟩, _⟩ := hshared
  have htaken := sharedAlike_takeAnswer hshared a
  cases hp : t.ph <;> rw [hp] at hph hphase
  case idle | wrData =>
    simp only [onReadAnswer, hp, hph]
    rfl
  case rdTag =>
    cases hf : familyOf t.cmd with
    | none =>
      simp only [onReadAnswer, hp, hph, hcmd, hf]
      rfl
    | some f =>
      rw [onReadAnswer_rdTag hp hf, onReadAnswer_rdTag hph (hcmd ▸ hf), acceptsAnswer_alike hshared hphase a]
      split
      · exact firstAnswer_alike f a htaken
      · rfl
  case rdCont =>
    obtain ⟨hn, hsb⟩ := hphase
    cases hf : familyOf t.cmd with
    | none =>
      simp only [onReadAnswer, hp, hph, hcmd, hf]
      rfl
    | some f =>
      rw [onReadAnswer_rdCont hp hf, onReadAnswer_rdCont hph (hcmd ▸ hf), acceptsAnswer_alike hshared hn a]
      split
      · exact secondAnswer_alike f a htaken hsb
      · rfl

theorem onWriteAnswer_alike (a : WriteAnswer) (h : alike s s' t t') :
    outcomesAgree (alike s s') (onWriteAnswer a t) (onWriteAnswer a t') := by
  obtain ⟨hshared, hph, hphase⟩ := h
  have ⟨⟨hcfg, _, _⟩, _⟩ := hshared
  cases hp : t.ph <;> rw [hp] at hph hphase
  case idle | rdTag | rdCont =>
    simp only [onWriteAnswer, hp, hph]
    rfl
  case wrData =>
    obtain ⟨hn, hstaged⟩ := hphase
    have hfits : a.fits t'.nreq.toNat t'.cfg.teW = a.fits t.nreq.toNat t.cfg.teW := by rw [hn, hcfg]
    have hbs : t'.staged t'.nreq.toNat = t.staged t.nreq.toNat := by rw [hn, hstaged]
    rw [onWriteAnswer_wrData hp, onWriteAnswer_wrData hph, hfits, hbs]
    split
    · cases a with
      | all =>
        dsimp only
        rw [show t'.nreq.toNat = t.nreq.toNat by rw [hn]]
        exact alike_complete (sharedAlike_sent hshared _) _ _
      | partOnly m e => exact alike_raiseWith (sharedAlike_sent hshared _) _ _ _
    · rfl

theorem onAnswer_alike (a : Answer) (h : alike s s' t t') :
    outcomesAgree (alike s s') (onAnswer a t) (onAnswer a t') := by
  cases a with
  | read a => exact onReadAnswer_alike a h
  | write a => exact onWriteAnswer_alike a h

theorem busy_alike (h : alike s s' t t') : t'.busy = t.busy := by
  obtain ⟨-, hph, -⟩ := h
  rw [State.busy, State.busy, hph]

end

theorem feed_alike {s s' : State} (as : List Answer) {t t' : State} (h : alike s s' t t') :
    outcomesAgree (alike s s') (feed as t) (feed as t') := by
  induction as generalizing t t' with
  | nil => exact h
  | cons a as ih =>
    have hbusy := busy_alike h
    cases hb : t.busy with
    | false =>
      rw [feed_idle _ t hb, feed_idle _ t' (hbusy.trans hb)]
      exact h
    | true =>
      rw [feed_cons_busy a as t hb, feed_cons_busy a as t' (hbusy.trans hb)]
      exact outcomesAgree_andThen (onAnswer_alike a h) fun u u' hu => ih hu

/-! ### Whole commands -/

/-- A command word names no data item. -/
theorem item?_decodeCmd (w : BitVec 4) : (decodeCmd w).item? = none := by
  unfold decodeCmd
  split <;> rfl

theorem exec_decodeCmd_alike (w : BitVec 4) {s s' : State} (hb : s.busy = false) (hb' : s'.busy = false)
    (h : sameOperands s s') : outcomesAgree (alike s s') (exec (decodeCmd w) s) (exec (decodeCmd w) s') := by
  have stored : ∀ c : BitVec 4, sameOperands { s with cmd := c } { s' with cmd := c } := fun c => h
  have start : ∀ (c : BitVec 4) (body : State → Result),
      outcomesAgree (alike s s') (body { s with cmd := c }) (body { s' with cmd := c }) →
      outcomesAgree (alike s s') (startCommand c body s) (startCommand c body s') := fun c body hbody => by
    rwa [(startCommand_eq c body s).2 hb, (startCommand_eq c body s').2 hb']
  rcases exec_shape (decodeCmd w) with ⟨f, -, e⟩ | ⟨f, -, e⟩ | ⟨f, -, e⟩ | ⟨f, -, e⟩ | ⟨-, c, -, e⟩ | ⟨f, tag, v, hi, -⟩
  · rw [e, e]
    exact start _ _ (encodeBuffer_alike f (stored _) rfl)
  · rw [e, e]
    exact start _ _ (decodeBuffer_alike f (stored _) rfl)
  · rw [e, e]
    exact start _ _ (startWrite_alike f (stored _) rfl)
  · rw [e, e]
    exact start _ _ (startRead_alike (stored _) rfl)
  · rw [e, e]
    exact start _ _ (alike_raiseWith (sharedAlike_start (stored c) rfl) _ _ _)
  · rw [item?_decodeCmd] at hi
    cases hi

theorem transact_decodeCmd_alike (w : BitVec 4) (as : List Answer) {s s' : State} (hb : s.busy = false)
    (hb' : s'.busy = false) (h : sameOperands s s') :
    outcomesAgree (alike s s') (transact (decodeCmd w) as s) (transact (decodeCmd w) as s') :=
  outcomesAgree_andThen (exec_decodeCmd_alike w hb hb' h) fun _ _ ht => feed_alike as ht

/-- At the end of the command the results are the same. -/
theorem sameResults_of_alike {s s' t t' : State} (h : alike s s' t t') (hb : t.busy = false) : sameResults t t' := by
  obtain ⟨-, -, hphase⟩ := h
  rwa [t.not_busy_iff.mp hb] at hphase

/-- Settles O49: the issue step begins two alike runs, and every answer keeps them alike. -/
theorem commandsAreStateless : Obligations.CommandsAreStateless := by
  intro w as s s' hb hb' h
  have hagree := transact_decodeCmd_alike w as hb hb' h
  generalize transact (decodeCmd w) as s = o at hagree ⊢
  generalize transact (decodeCmd w) as s' = o' at hagree ⊢
  cases o <;> cases o'
  case next.next t t' =>
    have hend := sameResults_of_alike hagree
    obtain ⟨⟨-, hmem, hops, hsent, htaken⟩, hph, -⟩ := hagree
    exact ⟨hph, hend, hmem, hops, hsent, htaken⟩
  all_goals exact hagree

end Sys2Proof.Machine

/-! ## Memory and the streams

Buffer memory as Encode and Decode use it, the answers of the two streams, and what a Read takes of them. -/

namespace Sys2Proof.Machine

open Sys2Proof.Claims

/-! ### Buffer memory -/

/-- R31, R32: what was written is read back. -/
theorem Memory.readBytes_writeBytes (m : Memory) (a : Nat) (bs : List Byte) :
    (m.writeBytes a bs).readBytes a bs.length = bs := by
  refine List.ext_getElem (Memory.length_readBytes _ _ _) fun i _ hi => ?_
  have hin : a ≤ a + i ∧ a + i < a + bs.length := by omega
  simp only [Memory.readBytes, List.getElem_map, List.getElem_range]
  rw [Memory.byteAt_writeBytes, if_pos hin, Nat.add_sub_cancel_left, List.getD_eq_getElem _ _ hi]

/-- Settles O12, by what a write of bytes leaves at each address. -/
theorem memWriteChangesItsBytesOnly : Obligations.MemWriteChangesItsBytesOnly := fun m a bs =>
  ⟨m.readBytes_writeBytes a bs, fun c hc => (m.byteAt_writeBytes a bs c).trans (if_neg hc), m.wf_writeBytes a bs⟩

/-- R33: a buffer that runs past the address space. -/
theorem State.badBuffer_of_wraps {s : State} (h : 2 ^ s.cfg.addrW < s.base + s.len) :
    s.badBuffer = some .bufferWraps :=
  if_pos h

/-- R208: a buffer inside the address space with an address that is not ordinary memory. -/
theorem State.badBuffer_of_notOrdinary {s : State} (hfit : s.base + s.len ≤ 2 ^ s.cfg.addrW)
    (hbad : ∃ i < s.len, isOrdinary s.cfg (s.base + i) = false) : s.badBuffer = some .notOrdinaryMemory := by
  obtain ⟨i, hi, hbad⟩ := hbad
  have hrange : ¬ isOrdinaryRange s.cfg s.base s.len = true := fun hall => by
    simp [(isOrdinaryRange_iff _ _ _).mp hall i hi] at hbad
  rw [State.badBuffer, if_neg (Nat.not_lt.mpr hfit), if_neg hrange]

/-- An Encode or a Decode of an idle block is refused for whatever is wrong with its buffer. -/
theorem exec_buffer_refused (f : Family) {s : State} (hb : s.busy = false) {r : Refusal} (h : s.badBuffer = some r) :
    exec (encInstr f) s = .refused r ∧ exec (decInstr f) s = .refused r := by
  rw [exec_encInstr f hb, exec_decInstr f hb]
  exact ⟨(badBuffer_refused f { s with cmd := encodeCode f } h).1,
    (badBuffer_refused f { s with cmd := decodeCode f } h).2⟩

/-- Settles O13: each breach of the host's duty is what `badBuffer` reports. -/
theorem wrappingBufferIsRefused : Obligations.WrappingBufferIsRefused := fun f _ hb =>
  ⟨fun hwraps => exec_buffer_refused f hb (State.badBuffer_of_wraps hwraps),
    fun hfit hbad => exec_buffer_refused f hb (State.badBuffer_of_notOrdinary hfit hbad)⟩

/-! ### The streams' turns -/

/-- With no turn listed, the input stream moves while a Read waits for it. -/
theorem defaultTurn_read {s : State} (h : s.ph = .rdTag ∨ s.ph = .rdCont) : defaultTurn s = .inStream := by
  rcases h with h | h <;> rw [defaultTurn, h]

/-- With no turn listed, the output stream moves while a Write waits for it. -/
theorem defaultTurn_write {s : State} (h : s.ph = .wrData) : defaultTurn s = .outStream := by
  rw [defaultTurn, h]

theorem inStreamTurn_cons {s : State} {a : ReadAnswer} {rest : List ReadAnswer} (h : s.inTape = a :: rest) :
    inStreamTurn s = onReadAnswer a { s with inTape := rest } := by
  rw [inStreamTurn, h]

theorem outStreamTurn_cons {s : State} {a : WriteAnswer} {rest : List WriteAnswer} (h : s.outTape = a :: rest) :
    outStreamTurn s = onWriteAnswer a { s with outTape := rest } := by
  rw [outStreamTurn, h]

/-- Settles O3: listed or by default, the turn is the stream's, and a stream's turn hands over its next answer. -/
theorem stepGivesTheStreamsAnswers : Obligations.StepGivesTheStreamsAnswers := by
  refine ⟨fun s a rest hts hph htape => ?_, fun s a rest hts hph htape => ?_, fun s ts a rest hts htape => ?_,
    fun s ts a rest hts htape => ?_⟩
  · rw [step_default hts, defaultTurn_read hph]
    exact inStreamTurn_cons htape
  · rw [step_default hts, defaultTurn_write hph]
    exact outStreamTurn_cons htape
  · rw [step_turn hts]
    exact inStreamTurn_cons (s := { s with turns := ts }) htape
  · rw [step_turn hts]
    exact outStreamTurn_cons (s := { s with turns := ts }) htape

/-! ### Which answers are taken -/

/-- R41, U7: the port contract of an answer, in its two parts. -/
theorem State.acceptsAnswer_iff (s : State) (a : ReadAnswer) :
    s.acceptsAnswer a = true ↔ a.fits s.nreq.toNat s.cfg.teW = true ∧ (s.inEnded = false ∨ a.bytes = []) := by
  simp [State.acceptsAnswer]

/-- While a Read is in flight CMD names its family. -/
theorem State.family_of_read {s : State} (h : s.Inv) (hph : s.ph = .rdTag ∨ s.ph = .rdCont) :
    ∃ f, familyOf s.cmd = some f := by
  have hphase := h.phase
  rcases hph with hph | hph <;> simp only [State.phaseWf, hph] at hphase
  · obtain ⟨⟨f, hcmd⟩, -⟩ := hphase
    exact ⟨f, hcmd ▸ familyOf_readCode f⟩
  · obtain ⟨f, hcmd, -⟩ := hphase
    exact ⟨f, hcmd ▸ familyOf_readCode f⟩

theorem onReadAnswer_misfit {a : ReadAnswer} {s : State} (h : s.Inv) (hph : s.ph = .rdTag ∨ s.ph = .rdCont)
    (ha : ¬ s.acceptsAnswer a = true) : onReadAnswer a s = .refused .answerMisfit := by
  obtain ⟨f, hf⟩ := State.family_of_read h hph
  rcases hph with hph | hph
  · rw [onReadAnswer_rdTag hph hf, if_neg ha]
  · rw [onReadAnswer_rdCont hph hf, if_neg ha]

/-- The first request asks for one byte, so a full answer in shape is never the empty one that would be refused. -/
theorem firstAnswer_completes (f : Family) {a : ReadAnswer} (s : State) {teW : Nat} (hfit : a.fits 1 teW = true) :
    ∃ t, firstAnswer f a s = .next t := by
  match a with
  | .short _ .eoi => exact ⟨_, rfl⟩
  | .short _ (.err _) => exact ⟨_, rfl⟩
  | .full [] => cases hfit
  | .full (b0 :: _) =>
    simp only [firstAnswer]
    split <;> exact ⟨_, rfl⟩

theorem secondAnswer_completes (f : Family) (a : ReadAnswer) (s : State) : ∃ t, secondAnswer f a s = .next t := by
  match a with
  | .short _ .eoi => exact ⟨_, rfl⟩
  | .short _ (.err _) => exact ⟨_, rfl⟩
  | .full _ => exact ⟨_, rfl⟩

theorem onReadAnswer_taken {a : ReadAnswer} {s : State} (h : s.Inv) (hph : s.ph = .rdTag ∨ s.ph = .rdCont)
    (ha : s.acceptsAnswer a = true) : ∃ t, onReadAnswer a s = .next t := by
  obtain ⟨f, hf⟩ := State.family_of_read h hph
  rcases hph with hph | hph
  · have hphase := h.phase
    simp only [State.phaseWf, hph] at hphase
    obtain ⟨-, hn⟩ := hphase
    obtain ⟨hfit, -⟩ := (s.acceptsAnswer_iff a).mp ha
    rw [hn] at hfit
    rw [onReadAnswer_rdTag hph hf, if_pos ha]
    exact firstAnswer_completes f _ hfit
  · rw [onReadAnswer_rdCont hph hf, if_pos ha]
    exact secondAnswer_completes f a _

theorem onReadAnswer_unrequested (a : ReadAnswer) {s : State} (h : s.ph = .idle ∨ s.ph = .wrData) :
    onReadAnswer a s = .refused .answerUnrequested := by
  rcases h with h | h <;> simp only [onReadAnswer, h]

theorem onWriteAnswer_unrequested (a : WriteAnswer) {s : State} (h : s.ph ≠ .wrData) :
    onWriteAnswer a s = .refused .answerUnrequested := by
  cases hph : s.ph with
  | wrData => exact absurd hph h
  | idle | rdTag | rdCont => simp only [onWriteAnswer, hph]

/-- Settles O14: the input stream's answers by the two parts of the port contract, the output stream's by their shape. -/
theorem answersInShapeAreTakenOthersRefused : Obligations.AnswersInShapeAreTakenOthersRefused := by
  refine ⟨fun s a h hph => ⟨fun hfit hend => ?_, fun hfit => ?_, fun hend hbytes => ?_⟩,
    fun s a hph => ⟨fun hfit => ?_, fun hfit => ?_⟩, fun s a => onReadAnswer_unrequested a,
    fun s a => onWriteAnswer_unrequested a⟩
  · exact onReadAnswer_taken h hph ((s.acceptsAnswer_iff a).mpr ⟨hfit, hend⟩)
  · exact onReadAnswer_misfit h hph (by simp [State.acceptsAnswer_iff, hfit])
  · exact onReadAnswer_misfit h hph (by simp [State.acceptsAnswer_iff, hend, hbytes])
  · rw [onWriteAnswer_wrData hph, if_pos hfit]
    cases a <;> exact ⟨_, rfl⟩
  · rw [onWriteAnswer_wrData hph, if_neg (by simp [hfit])]

/-! ### What a Read takes of its stream (R42, R135) -/

/-- A command in flight that the answers complete has taken the first of them. -/
theorem feed_completes {as : List Answer} {s t : State} (hs : s.busy = true) (ht : t.busy = false)
    (h : feed as s = .next t) : ∃ a rest u, onAnswer a s = .next u ∧ feed rest u = .next t := by
  cases as with
  | nil =>
    cases h
    simp [hs] at ht
  | cons a rest =>
    rw [feed_cons_busy a rest s hs] at h
    obtain ⟨u, hu, hrest⟩ := andThen_next h
    exact ⟨a, rest, u, hu, hrest⟩

/-- A Read in flight takes answers of the input stream only. -/
theorem onAnswer_read_next {a : Answer} {s u : State} (hph : s.ph = .rdTag ∨ s.ph = .rdCont)
    (h : onAnswer a s = .next u) : ∃ b, onReadAnswer b s = .next u := by
  cases a with
  | read b => exact ⟨b, h⟩
  | write b =>
    rw [onAnswer, onWriteAnswer_unrequested b (by rcases hph with hph | hph <;> simp [hph])] at h
    cases h

/-- The block has finished a Read at `t` that it was in at `s`: since then it has taken the bytes `tl`, asked for nothing
more, and RCNT counts `tl` and the `n` bytes taken before. -/
def readDone (n : Nat) (tl : List Byte) (s t : State) : Prop :=
  t.busy = false ∧ t.inTaken = s.inTaken ++ tl ∧ t.rcnt.toNat = n + tl.length ∧ t.portOps = s.portOps

/-- The tag byte `b0` has said that more bytes follow, and the block has asked for exactly those. -/
def readContinues (f : Family) (b0 : Byte) (s t : State) : Prop :=
  remainingOf f b0 ≠ 0 ∧ t.ph = .rdCont ∧ t.nreq = BitVec.ofNat 4 (remainingOf f b0) ∧
  t.inTaken = s.inTaken ++ [b0] ∧ t.portOps = s.portOps ++ [.streamRead (remainingOf f b0)]

/-- The first answer ends the Read after at most one byte, or brings the tag byte and leads to the second request. -/
theorem onReadAnswer_rdTag_takes {f : Family} {a : ReadAnswer} {s t : State} (hph : s.ph = .rdTag)
    (hf : familyOf s.cmd = some f) (hn : s.nreq = 1) (h : onReadAnswer a s = .next t) :
    (∃ tl, tl.length ≤ 1 ∧ readDone 0 tl s t) ∨ ∃ b0, readContinues f b0 s t := by
  obtain ⟨g, hg, hacc, ⟨-, h⟩ | ⟨hph', -⟩⟩ := onReadAnswer_next h
  · obtain rfl : f = g := Option.some.inj (hf.symm.trans hg)
    obtain ⟨hfit, -⟩ := (s.acceptsAnswer_iff a).mp hacc
    rw [hn] at hfit
    obtain ⟨bs, rfl, rfl⟩ | ⟨bs, e, rfl, rfl⟩ | ⟨b0, bs, rfl, ⟨hr, rfl⟩ | ⟨hr, rfl⟩⟩ := firstAnswer_next h <;>
      simp [ReadAnswer.fits] at hfit
    · obtain ⟨rfl, -⟩ := hfit
      exact .inl ⟨[], by decide, rfl, rfl, rfl, rfl⟩
    · obtain ⟨rfl, -⟩ := hfit
      exact .inl ⟨[], by decide, rfl, rfl, rfl, rfl⟩
    · subst hfit
      exact .inl ⟨[b0], Nat.le_refl 1, rfl, rfl, rfl, rfl⟩
    · subst hfit
      exact .inr ⟨b0, hr, rfl, rfl, rfl, rfl⟩
  · simp [hph] at hph'

/-- The second answer ends the Read after at most the bytes asked for. -/
theorem onReadAnswer_rdCont_takes {r : Nat} {a : ReadAnswer} {s t : State} (hph : s.ph = .rdCont)
    (hn : s.nreq = BitVec.ofNat 4 r) (hr : r ≤ 7) (h : onReadAnswer a s = .next t) :
    ∃ tl, tl.length ≤ r ∧ readDone 1 tl s t := by
  obtain ⟨f, -, hacc, ⟨hph', -⟩ | ⟨-, h⟩⟩ := onReadAnswer_next h
  · simp [hph] at hph'
  · obtain ⟨hfit, -⟩ := (s.acceptsAnswer_iff a).mp hacc
    rw [hn, toNat_ofNat4 r (by omega)] at hfit
    obtain ⟨bs, rfl, rfl⟩ | ⟨bs, e, rfl, rfl⟩ | ⟨bs, rfl, rfl⟩ := secondAnswer_next h <;>
      simp only [ReadAnswer.fits, Bool.and_eq_true, decide_eq_true_eq] at hfit
    · exact ⟨bs, by omega, rfl, rfl, toNat_ofNat4 _ (by omega), rfl⟩
    · exact ⟨bs, by omega, rfl, rfl, toNat_ofNat4 _ (by omega), rfl⟩
    · refine ⟨bs, by omega, rfl, rfl, ?_, rfl⟩
      rw [State.complete_rcnt, toNat_ofNat4 _ (by omega), Nat.add_comm]

/-- Settles O47: the answer to the first request ends the Read or leads to the second request, whose answer ends it. -/
theorem readTakesExactlyItsCount : Obligations.ReadTakesExactlyItsCount := by
  intro as f s t hs ht h
  obtain ⟨u, hu, hfed⟩ := andThen_next h
  rw [exec_rdInstr f hs] at hu
  cases hu
  obtain ⟨a, as, v, hv, hfed⟩ := feed_completes rfl ht hfed
  obtain ⟨a, hv⟩ := onAnswer_read_next (.inl rfl) hv
  obtain ⟨tl, hle, hidle, htaken, hcnt, hops⟩ | ⟨b0, hr, hph, hn, htaken, hops⟩ :=
    onReadAnswer_rdTag_takes rfl (familyOf_readCode f) rfl hv
  · rw [feed_idle as v hidle] at hfed
    cases hfed
    exact ⟨tl, htaken, hcnt.trans (Nat.zero_add _), .inl ⟨hops, hle⟩⟩
  · obtain ⟨a, as, w, hw, hfed⟩ := feed_completes (v.busy_iff.mpr (by simp [hph])) ht hfed
    obtain ⟨a, hw⟩ := onAnswer_read_next (.inr hph) hw
    obtain ⟨tl, hle, hidle, htaken', hcnt, hops'⟩ := onReadAnswer_rdCont_takes hph hn (remainingOf_le f b0) hw
    rw [feed_idle as w hidle] at hfed
    cases hfed
    refine ⟨b0 :: tl, ?_, hcnt.trans (Nat.add_comm _ _), .inr ⟨b0, tl, rfl, hr, hle, ?_⟩⟩
    · rw [htaken', htaken, List.append_assoc]
      rfl
    · rw [hops', hops, List.append_assoc]
      rfl

end Sys2Proof.Machine

/-! ## The encoding

The word of a tagged value and its bytes, the decoder and the encoder as inverses of each other, and data items read
whole. -/

namespace Sys2Proof.Machine

open Sys2Proof.Claims

/-! ### The word of a tag and a value (R50, R87) -/

/-- The word has the tag above the `PBITS` bits of the value. -/
theorem packWord_eq (f : Family) (t : Nat) {v : Nat} (hv : v < 2 ^ PBITS f t) :
    (t <<< (8 * LEN f t - K f)) ||| v = t * 2 ^ PBITS f t + v :=
  shiftLeft_or t _ v hv

theorem packWord_div (f : Family) (t : Nat) {v : Nat} (hv : v < 2 ^ PBITS f t) :
    (t * 2 ^ PBITS f t + v) / 2 ^ PBITS f t = t := by
  rw [Nat.mul_comm, Nat.mul_add_div (Nat.two_pow_pos _), Nat.div_eq_of_lt hv, Nat.add_zero]

theorem packWord_mod (f : Family) (t : Nat) {v : Nat} (hv : v < 2 ^ PBITS f t) :
    (t * 2 ^ PBITS f t + v) % 2 ^ PBITS f t = v := by
  rw [Nat.mul_comm, Nat.mul_add_mod, Nat.mod_eq_of_lt hv]

/-- A tag and a value that fit their fields make a word of `LEN` bytes. -/
theorem packWord_lt {f : Family} {t v : Nat} (ht : t < 2 ^ K f) (hv : v < 2 ^ PBITS f t) :
    t * 2 ^ PBITS f t + v < 2 ^ (8 * LEN f t) := by
  have hsplit : 2 ^ (8 * LEN f t) = 2 ^ K f * 2 ^ PBITS f t := by
    rw [← PBITS_add_K f t, Nat.add_comm, Nat.pow_add]
  calc t * 2 ^ PBITS f t + v < (t + 1) * 2 ^ PBITS f t := by rw [Nat.add_mul]; omega
    _ ≤ 2 ^ K f * 2 ^ PBITS f t := Nat.mul_le_mul_right _ ht
    _ = 2 ^ (8 * LEN f t) := hsplit.symm

/-- R6: byte `i` of a word cut into `n` bytes, most significant first. -/
theorem toNat_getElem_bytesBE (n w i : Nat) (h : i < (bytesBE n w).length) :
    ((bytesBE n w)[i]).toNat = w / 2 ^ (8 * (n - 1 - i)) % 256 := by
  induction n generalizing i with
  | zero => simp [bytesBE] at h
  | succ n ih =>
    cases i with
    | zero => simp [bytesBE, Nat.shiftRight_eq_div_pow]
    | succ i =>
      simp only [bytesBE, List.getElem_cons_succ]
      rw [ih, show n + 1 - 1 - (i + 1) = n - 1 - i by omega]

/-- Settles O23: the bytes are those of the word, in which the tag stands above the value. -/
theorem packLaysOutTagAndPayload : Obligations.PackLaysOutTagAndPayload := by
  intro f t v _ hv
  refine ⟨length_pack f t v, fun i h => toNat_getElem_bytesBE _ _ i h, ?_, ?_⟩
  · rw [packWord_eq f t hv]
    exact packWord_div f t hv
  · rw [packWord_eq f t hv]
    exact packWord_mod f t hv

/-! ### A whole encoding: its bytes, its tag and its value -/

/-- The bytes of a packed value join to its word again. -/
theorem joinBE_pack {f : Family} {t v : Nat} (ht : t < 2 ^ K f) (hv : v < 2 ^ PBITS f t) :
    joinBE (pack f t v) = t * 2 ^ PBITS f t + v := by
  rw [pack, joinBE_bytesBE, packWord_eq f t hv, Nat.mod_eq_of_lt (packWord_lt ht hv)]

/-- R84: the tag is the top `k` bits of the whole word, however many bytes follow the first. -/
theorem tagOf_eq_joinBE_div (f : Family) (b0 : Byte) (tl : List Byte) :
    tagOf f b0 = joinBE (b0 :: tl) / 2 ^ (8 * (b0 :: tl).length - K f) := by
  have hK := K_le f
  have hexp : 8 * (b0 :: tl).length - K f = 8 * tl.length + (8 - K f) := by
    rw [List.length_cons]
    omega
  rw [hexp, Nat.pow_add, ← Nat.div_div_eq_div_mul, joinBE_cons, Nat.mul_comm, Nat.mul_add_div (Nat.two_pow_pos _),
    Nat.div_eq_of_lt (joinBE_lt tl), Nat.add_zero, tagOf, Nat.shiftRight_eq_div_pow]

/-- R88: a packed value is recovered. -/
theorem unpack_pack {f : Family} {t v : Nat} (ht : t < 2 ^ K f) (hv : v < 2 ^ PBITS f t) :
    unpack f (pack f t v) = v := by
  rw [unpack, joinBE_pack ht hv, length_pack]
  exact packWord_mod f t hv

/-- The first byte of a packed value has the value's tag. -/
theorem tagOf_pack {f : Family} {t v : Nat} (ht : t < 2 ^ K f) (hv : v < 2 ^ PBITS f t) {b0 : Byte} {tl : List Byte}
    (h : pack f t v = b0 :: tl) : tagOf f b0 = t := by
  rw [tagOf_eq_joinBE_div f b0 tl, ← h, joinBE_pack ht hv, length_pack]
  exact packWord_div f t hv

theorem pack_eq_cons (f : Family) (t v : Nat) : ∃ b0 tl, pack f t v = b0 :: tl := by
  have hlen := length_pack f t v
  have hpos := LEN_pos f t
  cases hp : pack f t v with
  | nil =>
    rw [hp, List.length_nil] at hlen
    omega
  | cons b0 tl => exact ⟨b0, tl, rfl⟩

theorem unpack_lt_PBITS {f : Family} {b0 : Byte} {bs : List Byte} (h : bs.length = lengthOf f b0) :
    unpack f bs < 2 ^ PBITS f (tagOf f b0) := by
  unfold unpack
  rw [h]
  exact Nat.mod_lt _ (Nat.two_pow_pos _)

/-- A whole encoding is the packing of its tag and its value: every bit of it is in one of the two. -/
theorem pack_tagOf_unpack {f : Family} {b0 : Byte} {tl : List Byte} (h : (b0 :: tl).length = lengthOf f b0) :
    pack f (tagOf f b0) (unpack f (b0 :: tl)) = b0 :: tl := by
  have hexp : PBITS f (tagOf f b0) = 8 * (b0 :: tl).length - K f := by rw [h]; rfl
  have hword : tagOf f b0 * 2 ^ PBITS f (tagOf f b0) + unpack f (b0 :: tl) = joinBE (b0 :: tl) := by
    rw [hexp, tagOf_eq_joinBE_div f b0 tl, unpack, Nat.mul_comm]
    exact Nat.div_add_mod _ _
  rw [pack, packWord_eq f _ (unpack_lt_PBITS h), hword]
  change bytesBE (lengthOf f b0) _ = _
  rw [← h, bytesBE_joinBE]

/-! ### Instructions and their bytes -/

/-- Every instruction's bytes have the shape of its kind. -/
theorem encodingShape (i : Instr) : Laws.EncodingShape.Statement i := by
  cases i with
  | encN => exact Laws.EncodingShape.encN
  | encM => exact Laws.EncodingShape.encM
  | encW => exact Laws.EncodingShape.encW
  | wrN => exact Laws.EncodingShape.wrN
  | wrM => exact Laws.EncodingShape.wrM
  | wrW => exact Laws.EncodingShape.wrW
  | decN => exact Laws.EncodingShape.decN
  | decM => exact Laws.EncodingShape.decM
  | decW => exact Laws.EncodingShape.decW
  | rdN => exact Laws.EncodingShape.rdN
  | rdM => exact Laws.EncodingShape.rdM
  | rdW => exact Laws.EncodingShape.rdW
  | reserved3 => exact Laws.EncodingShape.reserved3
  | reserved7 => exact Laws.EncodingShape.reserved7
  | reservedB => exact Laws.EncodingShape.reservedB
  | reservedF => exact Laws.EncodingShape.reservedF
  | nL1 v => exact Laws.EncodingShape.nL1 v
  | nL2 v => exact Laws.EncodingShape.nL2 v
  | mL1 v => exact Laws.EncodingShape.mL1 v
  | mL2 v => exact Laws.EncodingShape.mL2 v
  | mL3 v => exact Laws.EncodingShape.mL3 v
  | mL4 v => exact Laws.EncodingShape.mL4 v
  | wL1 v => exact Laws.EncodingShape.wL1 v
  | wL2 v => exact Laws.EncodingShape.wL2 v
  | wL4 v => exact Laws.EncodingShape.wL4 v
  | wL8 v => exact Laws.EncodingShape.wL8 v

/-- A command's word decodes to it. -/
theorem cmdWord_of_command {i : Instr} (h : i.item? = none) : ∃ w, cmdWord i = some w ∧ decodeCmd w = i := by
  have hshape := encodingShape i
  rw [Laws.EncodingShape.Statement, h] at hshape
  obtain ⟨w, hw, hdec, -⟩ := hshape
  exact ⟨w, hw, hdec⟩

/-- A data item's tag is one of its family and its payload fits the tag's field. -/
theorem item_fits {i : Instr} {f : Family} {t v : Nat} (h : i.item? = some (f, t, v)) :
    t < 2 ^ K f ∧ v < 2 ^ PBITS f t := by
  have hshape := encodingShape i
  rw [Laws.EncodingShape.Statement, h] at hshape
  obtain ⟨ht, hv, -⟩ := hshape
  exact ⟨ht, hv⟩

/-- The bytes of a data item are its packed payload, read in its family's context. -/
theorem encode_item {i : Instr} {f : Family} {t v : Nat} (h : i.item? = some (f, t, v)) :
    encode i = pack f t v ∧ i.context = .data f := by
  simp only [encode, Instr.context, h, and_self]

/-- The byte of a command is its word, read in the command context. -/
theorem encode_command {i : Instr} {w : BitVec 4} (h : i.item? = none) (hw : cmdWord i = some w) :
    encode i = [w.setWidth 8] ∧ i.context = .command := by
  simp only [encode, Instr.context, h, hw, and_self]

/-- A data item is the one of its family, tag and payload. -/
theorem itemOf_of_item? {i : Instr} {f : Family} {t v : Nat} (h : i.item? = some (f, t, v)) : itemOf f t v = i := by
  cases i with
  | nL1 | nL2 | mL1 | mL2 | mL3 | mL4 | wL1 | wL2 | wL4 | wL8 =>
    cases h
    simp only [itemOf, BitVec.ofNat_toNat, BitVec.setWidth_eq]
  | _ => cases h

/-- A payload that fits its field is the item's, bit for bit. -/
theorem item?_itemOf {f : Family} {t v : Nat} (ht : t < 2 ^ K f) (hv : v < 2 ^ PBITS f t) :
    (itemOf f t v).item? = some (f, t, v) := by
  cases f <;> simp only [K] at ht <;> interval_cases t <;>
    exact congrArg (fun n => some (_, _, n)) (Nat.mod_eq_of_lt hv)

/-! ### The decoder on data -/

/-- The decoder takes a whole encoding off the front and leaves the rest. -/
theorem decode_data_append {f : Family} {b0 : Byte} {tl : List Byte} (h : (b0 :: tl).length = lengthOf f b0)
    (rest : List Byte) :
    decode (.data f) (b0 :: tl ++ rest) = .ok (itemOf f (tagOf f b0) (unpack f (b0 :: tl)), rest) := by
  have hlong : ¬ (tl ++ rest).length + 1 < lengthOf f b0 := by
    rw [← h, List.length_append, List.length_cons]
    omega
  rw [List.cons_append, decode, if_neg hlong, ← h, ← List.cons_append, List.take_left', List.drop_left'] <;> rfl

/-- Whatever the data decoder accepts begins with a whole encoding. -/
theorem decode_data_ok {f : Family} {bs rest : List Byte} {i : Instr} (h : decode (.data f) bs = .ok (i, rest)) :
    ∃ b0 tl, (b0 :: tl).length = lengthOf f b0 ∧ bs = b0 :: tl ++ rest ∧
      i = itemOf f (tagOf f b0) (unpack f (b0 :: tl)) := by
  cases bs with
  | nil => cases h
  | cons b0 bs =>
    rw [decode] at h
    split at h
    · cases h
    · rename_i hlong
      cases h
      obtain ⟨n, hn⟩ : ∃ n, lengthOf f b0 = n + 1 := ⟨lengthOf f b0 - 1, by have := lengthOf_pos f b0; omega⟩
      rw [hn]
      exact ⟨b0, bs.take n, by rw [List.length_cons, List.length_take]; omega, by simp, rfl⟩

/-! ### The decoder on command words (R60 to R63) -/

theorem decode_command_append (w : BitVec 4) (rest : List Byte) :
    decode .command ([w.setWidth 8] ++ rest) = .ok (decodeCmd w, rest) := by
  have h := decode_command_word w
  rw [decode] at h
  split at h
  · rename_i hlt
    simp only [Except.ok.injEq, Prod.mk.injEq, and_true] at h
    rw [List.singleton_append, decode, if_pos hlt, h]
  · cases h

/-- R63: what the command decoder accepts begins with a byte that holds a 4-bit word. -/
theorem decode_command_ok {bs rest : List Byte} {i : Instr} (h : decode .command bs = .ok (i, rest)) :
    ∃ w : BitVec 4, bs = [w.setWidth 8] ++ rest ∧ i = decodeCmd w := by
  cases bs with
  | nil => cases h
  | cons b bs =>
    rw [decode] at h
    split at h
    · rename_i hlt
      cases h
      have hback : (b.setWidth 4).setWidth 8 = b := by
        apply BitVec.eq_of_toNat_eq
        simp only [BitVec.toNat_setWidth]
        omega
      exact ⟨b.setWidth 4, by rw [hback, List.singleton_append], rfl⟩
    · cases h

theorem cmdWord_decodeCmd : ∀ w : BitVec 4, cmdWord (decodeCmd w) = some w := by decide

/-! ### Decoding and encoding are inverse -/

/-- Settles O17: a command's byte by the table of command words; a data item's bytes by its tag, which says how many they
are, and its value, which is unpacked again. -/
theorem decodeOfEncodeIsTheInstruction : Obligations.DecodeOfEncodeIsTheInstruction := by
  intro i rest
  cases hitem : i.item? with
  | none =>
    obtain ⟨w, hw, hdec⟩ := cmdWord_of_command hitem
    obtain ⟨henc, hctx⟩ := encode_command hitem hw
    rw [hctx, henc, decode_command_append, hdec]
  | some x =>
    obtain ⟨f, t, v⟩ := x
    obtain ⟨ht, hv⟩ := item_fits hitem
    obtain ⟨henc, hctx⟩ := encode_item hitem
    obtain ⟨b0, tl, hpack⟩ := pack_eq_cons f t v
    have htag := tagOf_pack ht hv hpack
    have hlen : (b0 :: tl).length = lengthOf f b0 := by rw [← hpack, length_pack, lengthOf, htag]
    rw [hctx, henc, hpack, decode_data_append hlen rest, htag, ← hpack, unpack_pack ht hv, itemOf_of_item? hitem]

/-- Settles O18: what the decoder accepts begins with a command word, or with a whole encoding, which is the packing of
its tag and its value. -/
theorem encodeOfDecodeIsTheBytes : Obligations.EncodeOfDecodeIsTheBytes := by
  intro c bs rest i h
  cases c with
  | command =>
    obtain ⟨w, rfl, rfl⟩ := decode_command_ok h
    obtain ⟨henc, hctx⟩ := encode_command (item?_decodeCmd w) (cmdWord_decodeCmd w)
    exact ⟨hctx, by rw [henc]⟩
  | data f =>
    obtain ⟨b0, tl, hlen, rfl, rfl⟩ := decode_data_ok h
    obtain ⟨henc, hctx⟩ := encode_item (item?_itemOf (tagOf_lt f b0) (unpack_lt_PBITS hlen))
    exact ⟨hctx, by rw [henc, pack_tagOf_unpack hlen]⟩

/-! ### The tables -/

/-- Settles O15: one evaluation of the decoder for each word. -/
theorem writtenOutWordsDecode : Obligations.WrittenOutWordsDecode := by
  refine ⟨?_, ?_, ?_, ?_, ?_, ?_, ?_, ?_, ?_, ?_⟩ <;> decide

/-- Settles O16: the sixteen words, family by family. -/
theorem commandWordFieldsNameTheCommand : Obligations.CommandWordFieldsNameTheCommand := by
  refine ⟨cmdWord_decodeCmd, fun w f => ?_, by decide⟩
  revert w
  cases f <;> decide

/-- R54: a 1-bit tag. -/
theorem tagOf_narrow (b0 : Byte) : tagOf .narrow b0 = if b0.toNat ≤ 0x7F then 0 else 1 := by
  have := b0.isLt
  simp only [tagOf, K, Nat.shiftRight_eq_div_pow]
  split <;> omega

/-- R54: a 2-bit tag. -/
theorem tagOf_of_two_bits {f : Family} (hf : f = .medium ∨ f = .wide) (b0 : Byte) :
    tagOf f b0 = if b0.toNat ≤ 0x3F then 0 else if b0.toNat ≤ 0x7F then 1 else if b0.toNat ≤ 0xBF then 2 else 3 := by
  have := b0.isLt
  have htag : tagOf f b0 = b0.toNat / 2 ^ 6 := by
    rcases hf with rfl | rfl <;> exact Nat.shiftRight_eq_div_pow _ 6
  rw [htag]
  split_ifs <;> omega

/-- Settles O20: the tag by the top bits of the byte, the length by the tag. -/
theorem firstByteDeclaresTheLength : Obligations.FirstByteDeclaresTheLength := by
  intro b0
  refine ⟨tagOf_narrow b0, fun f hf => tagOf_of_two_bits hf b0, ?_, ?_, ?_,
    fun f => (lengthOf_eq_remainingOf_add_one f b0).symm⟩
  · rw [lengthOf, tagOf_narrow]
    split <;> rfl
  · rw [lengthOf, tagOf_of_two_bits (.inl rfl)]
    split_ifs <;> rfl
  · rw [lengthOf, tagOf_of_two_bits (.inr rfl)]
    split_ifs <;> rfl

/-- A reserved code given to an idle block: the error completion, with the word stored. -/
theorem exec_reserved {s : State} (hb : s.busy = false) :
    exec .reserved3 s = .next ({ s with cmd := 0x3 }.raise .illegalCommand 0) ∧
    exec .reserved7 s = .next ({ s with cmd := 0x7 }.raise .illegalCommand 0) ∧
    exec .reservedB s = .next ({ s with cmd := 0xB }.raise .illegalCommand 0) ∧
    exec .reservedF s = .next ({ s with cmd := 0xF }.raise .illegalCommand 0) :=
  ⟨(startCommand_eq _ _ s).2 hb, (startCommand_eq _ _ s).2 hb, (startCommand_eq _ _ s).2 hb,
    (startCommand_eq _ _ s).2 hb⟩

/-- Settles O37: each of the four codes is an error completion that stores its word. -/
theorem reservedCodesCompleteWithIllegalCommand : Obligations.ReservedCodesCompleteWithIllegalCommand := by
  intro s hb i w hmem
  obtain ⟨h3, h7, hB, hF⟩ := exec_reserved hb
  simp only [List.mem_cons, Prod.mk.injEq, List.not_mem_nil, or_false] at hmem
  obtain ⟨rfl, rfl⟩ | ⟨rfl, rfl⟩ | ⟨rfl, rfl⟩ | ⟨rfl, rfl⟩ := hmem
  · exact h3
  · exact h7
  · exact hB
  · exact hF

/-! ### Items read whole (R51 to R53, R131 to R133) -/

/-- The word of a tag and a payload whose fields meet inside its first byte: that byte holds the tag above the payload's
top bits, and the bytes after it are the payload's. -/
theorem bytesBE_tagged {k m : Nat} (h : k + m = 8) (n : Nat) (t : BitVec k) (v : BitVec (8 * n + m)) :
    bytesBE (n + 1) ((t.toNat <<< (8 * n + m)) ||| v.toNat) =
      (t ++ v.extractLsb' (8 * n) m).cast h :: bytesBE n v.toNat := by
  have hword : (t.toNat <<< (8 * n + m)) ||| v.toNat = v.toNat + t.toNat * 2 ^ m * 2 ^ (8 * n) := by
    rw [shiftLeft_or _ _ _ v.isLt, Nat.pow_add]
    ring
  have htop : v.toNat / 2 ^ (8 * n) < 2 ^ m := Nat.div_lt_of_lt_mul (by rw [← Nat.pow_add]; exact v.isLt)
  have hbyte : ((t ++ v.extractLsb' (8 * n) m).cast h).toNat = v.toNat / 2 ^ (8 * n) + t.toNat * 2 ^ m := by
    rw [BitVec.toNat_cast, BitVec.toNat_append, shiftLeft_or _ _ _ (BitVec.isLt _), BitVec.extractLsb'_toNat,
      Nat.shiftRight_eq_div_pow, Nat.mod_eq_of_lt htop, Nat.add_comm]
  have hhead : BitVec.ofNat 8 (v.toNat / 2 ^ (8 * n) + t.toNat * 2 ^ m) = (t ++ v.extractLsb' (8 * n) m).cast h := by
    rw [← hbyte, BitVec.ofNat_toNat, BitVec.setWidth_eq]
  rw [hword, bytesBE, bytesBE_add_mul, Nat.shiftRight_eq_div_pow, Nat.add_mul_div_right _ _ (Nat.two_pow_pos _), hhead]

/-- The word of a tag and a payload that fill one byte. -/
theorem bytesBE_one {k m : Nat} (h : k + m = 8) (t : BitVec k) (v : BitVec m) :
    bytesBE 1 ((t.toNat <<< m) ||| v.toNat) = [(t ++ v).cast h] := by
  have hbyte : ((t ++ v).cast h).toNat = (t.toNat <<< m) ||| v.toNat := by rw [BitVec.toNat_cast, BitVec.toNat_append]
  rw [← hbyte, bytesBE, bytesBE, Nat.mul_zero, Nat.shiftRight_zero, BitVec.ofNat_toNat, BitVec.setWidth_eq]

/-- A source that holds enough bytes delivers all that are asked for (R41). -/
theorem serve_of_le {bs : List Byte} {n : Nat} (h : n ≤ bs.length) : serve bs n = .full (bs.take n) := if_pos h

/-- A full answer does not end its stream. -/
theorem State.takeAnswer_full (s : State) (bs : List Byte) :
    s.takeAnswer (.full bs) = { s with inTaken := s.inTaken ++ bs } := by
  simp [State.takeAnswer, ReadAnswer.bytes, ReadAnswer.ends]

/-- A stream that has not ended may deliver the bytes asked for. -/
theorem State.acceptsAnswer_full {s : State} (he : s.inEnded = false) {bs : List Byte} (hn : s.nreq.toNat = bs.length) :
    s.acceptsAnswer (.full bs) = true :=
  (s.acceptsAnswer_iff _).mpr ⟨by simp [ReadAnswer.fits, hn], .inl he⟩

theorem contIssued_busy (s : State) (b0 : Byte) (r : Nat) : (contIssued s b0 r).busy = true := rfl

theorem contIssued_nreq (s : State) (b0 : Byte) (r : Nat) : (contIssued s b0 r).nreq = BitVec.ofNat 4 r := rfl

/-- R132: the tag byte alone ends the Read, or the block asks for the bytes it declares. -/
theorem onReadAnswer_tagByte {s : State} {f : Family} (hph : s.ph = .rdTag) (hf : familyOf s.cmd = some f)
    (hn : s.nreq = 1) (he : s.inEnded = false) (b0 : Byte) :
    onReadAnswer (.full [b0]) s =
      if remainingOf f b0 = 0 then .next ((tagTaken s b0).complete (unpack f [b0]) 1)
      else .next (contIssued s b0 (remainingOf f b0)) := by
  have hacc := State.acceptsAnswer_full he (bs := [b0]) (by rw [hn]; rfl)
  rw [onReadAnswer_rdTag hph hf, if_pos hacc, State.takeAnswer_full]
  rfl

/-- R133: the bytes that follow the tag byte end the Read. -/
theorem onReadAnswer_contBytes {s : State} {f : Family} (hph : s.ph = .rdCont) (hf : familyOf s.cmd = some f)
    {bs : List Byte} (hn : s.nreq = BitVec.ofNat 4 bs.length) (hle : bs.length ≤ 7) (he : s.inEnded = false) :
    onReadAnswer (.full bs) s =
      .next ((contTaken s bs).complete (unpack f (s.sb[0] :: bs)) (bs.length + 1)) := by
  have hacc := State.acceptsAnswer_full he (bs := bs) (by rw [hn, toNat_ofNat4 _ (by omega)])
  rw [onReadAnswer_rdCont hph hf, if_pos hacc, State.takeAnswer_full, ← take_storeSB_one s.sb bs hle]
  rfl

/-- A Read from a source: its first answer is the first byte, its second answer, if it comes to that, the rest. -/
theorem readFrom_cons (f : Family) (b0 : Byte) (tl : List Byte) {s : State} (hb : s.busy = false) :
    readFrom f (b0 :: tl) s =
      andThen (onReadAnswer (.full [b0]) (readIssued (readCode f) { s with inEnded := false })) fun t =>
        if t.busy then onReadAnswer (serve tl t.nreq.toNat) t else .next t := by
  have hfirst : serve (b0 :: tl) 1 = .full [b0] := serve_of_le (by simp)
  rw [← hfirst, readFrom, if_neg (by simp [hb])]
  rfl

/-- The Read of a whole encoding from a source that holds exactly it (log 15). -/
theorem readFrom_whole {f : Family} {b0 : Byte} {tl : List Byte} (h : (b0 :: tl).length = lengthOf f b0) {s : State}
    (hb : s.busy = false) :
    readFrom f (b0 :: tl) s =
      .next (itemRead (readCode f) b0 tl (BitVec.ofNat 64 (unpack f (b0 :: tl))) s) := by
  have hp := s.not_busy_iff.mp hb
  have hrem : remainingOf f b0 = tl.length := by rw [remainingOf, ← h]; rfl
  have hle : tl.length ≤ 7 := hrem ▸ remainingOf_le f b0
  rw [readFrom_cons f b0 tl hb, onReadAnswer_tagByte rfl (familyOf_readCode f) rfl rfl, hrem]
  cases tl with
  | nil => simp [andThen, itemRead, readIssued, tagTaken, State.complete, State.busy, storeSB_nil, hp]
  | cons b1 tl =>
    rw [if_neg (by simp), andThen, if_pos (contIssued_busy _ _ _), contIssued_nreq, toNat_ofNat4 _ (by omega),
      serve_of_le (Nat.le_refl _), List.take_length,
      onReadAnswer_contBytes rfl (familyOf_readCode f) rfl hle rfl]
    simp [itemRead, readIssued, contTaken, contIssued, tagTaken, State.complete, hp, storeSB_zero_head]

/-- An item whose bytes are `b0 :: tl`, read whole: RVAL is the payload, RCNT the length. -/
theorem readFrom_item {f : Family} {t p : Nat} {v : BitVec p} (ht : t < 2 ^ K f) (hv : v.toNat < 2 ^ PBITS f t)
    {b0 : Byte} {tl : List Byte} (h : pack f t v.toNat = b0 :: tl) {s : State} (hb : s.busy = false) :
    readFrom f (pack f t v.toNat) s = .next (itemRead (readCode f) b0 tl (v.setWidth 64) s) := by
  have hlen : (b0 :: tl).length = lengthOf f b0 := by rw [← h, length_pack, lengthOf, tagOf_pack ht hv h]
  rw [h, readFrom_whole hlen hb, ← h, unpack_pack ht hv, BitVec.ofNat_toNat]

/-- Settles O38: the bytes of each format by its tag and payload, read whole. -/
theorem narrowItemsLeaveTheirPayload : Obligations.NarrowItemsLeaveTheirPayload := by
  intro s hb
  refine ⟨fun v => ?_, fun v => ?_⟩
  · exact readFrom_item (f := .narrow) (t := 0) (by decide) v.isLt (bytesBE_one (k := 1) rfl 0#1 v) hb
  · exact readFrom_item (f := .narrow) (t := 1) (by decide) v.isLt (bytesBE_tagged (m := 7) rfl 1 1#1 v) hb

/-- Settles O39: the bytes of each format by its tag and payload, read whole. -/
theorem mediumItemsLeaveTheirPayload : Obligations.MediumItemsLeaveTheirPayload := by
  intro s hb
  refine ⟨fun v => ?_, fun v => ?_, fun v => ?_, fun v => ?_⟩
  · exact readFrom_item (f := .medium) (t := 0) (by decide) v.isLt (bytesBE_one rfl 0#2 v) hb
  · exact readFrom_item (f := .medium) (t := 1) (by decide) v.isLt (bytesBE_tagged (m := 6) rfl 1 1#2 v) hb
  · exact readFrom_item (f := .medium) (t := 2) (by decide) v.isLt (bytesBE_tagged (m := 6) rfl 2 2#2 v) hb
  · exact readFrom_item (f := .medium) (t := 3) (by decide) v.isLt (bytesBE_tagged (m := 6) rfl 3 3#2 v) hb

/-- Settles O40: the bytes of each format by its tag and payload, read whole. -/
theorem wideItemsLeaveTheirPayload : Obligations.WideItemsLeaveTheirPayload := by
  intro s hb
  refine ⟨fun v => ?_, fun v => ?_, fun v => ?_, fun v => ?_⟩
  · exact readFrom_item (f := .wide) (t := 0) (by decide) v.isLt (bytesBE_one rfl 0#2 v) hb
  · exact readFrom_item (f := .wide) (t := 1) (by decide) v.isLt (bytesBE_tagged (m := 6) rfl 1 1#2 v) hb
  · exact readFrom_item (f := .wide) (t := 2) (by decide) v.isLt (bytesBE_tagged (m := 6) rfl 3 2#2 v) hb
  · exact readFrom_item (f := .wide) (t := 3) (by decide) v.isLt (bytesBE_tagged (m := 6) rfl 7 3#2 v) hb

end Sys2Proof.Machine

/-! ## The host's script

R64, R66: a script line is its register writes, one step each, and then its command; a directive is one step of the
host, and ADV two register writes more. -/

namespace Sys2Proof.Machine

/-! ### Steps of the host -/

/-- With no turn listed, an idle block's next step is the host's. -/
theorem step_host {s : State} (hts : s.turns = []) (hph : s.ph = .idle) : step s = (hostTurn s).outcome := by
  rw [step_default hts, defaultTurn_idle hph, agentTurn]

theorem andThen_next_right (o : Result) : andThen o .next = o := by cases o <;> rfl

theorem steps_one (s : State) : steps 1 s = step s := andThen_next_right (step s)

theorem steps_succ {s u : State} (h : step s = .next u) (n : Nat) : steps (n + 1) s = steps n u := by
  rw [steps, h, andThen]

/-- R64: the waiting host stays while the block is busy, and otherwise goes on to the next line. -/
theorem hostTurn_waiting {s : State} (hp : s.pend = []) (hw : s.waiting = true) :
    (hostTurn s).outcome = .next (if s.busy then s else { s.nextLine with waiting := false }) := by
  simp only [hostTurn, hp, hw, if_true]
  split <;> rfl

/-! ### The writes of a line -/

/-- The state with other host actions still to be made. -/
def State.withPend (s : State) (ops : List PendingOp) : State := { s with pend := ops }

theorem State.withPend_self {s : State} {ops : List PendingOp} (h : s.pend = ops) : s.withPend ops = s := by
  subst h
  rfl

/-- What a write stores does not depend on the actions still to be made. -/
theorem State.hostWrite_withPend (s : State) (w : RegWrite) (ops : List PendingOp) :
    (s.withPend ops).hostWrite w = (s.hostWrite w).withPend ops := by
  cases hb : s.busy with
  | true =>
    rw [s.hostWrite_busy w hb]
    exact State.hostWrite_busy (s.withPend ops) w hb
  | false =>
    cases w with
    | val v =>
      rw [State.hostWrite_val hb]
      exact State.hostWrite_val (s := s.withPend ops) hb v
    | base v =>
      rw [State.hostWrite_base hb]
      exact State.hostWrite_base (s := s.withPend ops) hb v
    | len v =>
      rw [State.hostWrite_len hb]
      exact State.hostWrite_len (s := s.withPend ops) hb v
    | readOnly r v => rw [State.hostWrite_readOnly, State.hostWrite_readOnly]

/-- A register write changes neither whose turn it is, nor the phase, nor the actions still to be made. -/
theorem State.hostWrite_host (s : State) (w : RegWrite) :
    (s.hostWrite w).turns = s.turns ∧ (s.hostWrite w).ph = s.ph ∧ (s.hostWrite w).pend = s.pend := by
  unfold State.hostWrite
  split
  · exact ⟨rfl, rfl, rfl⟩
  · cases w <;> exact ⟨rfl, rfl, rfl⟩

/-- On an idle block a register write still to be made is the next step. -/
theorem step_write {s : State} (hts : s.turns = []) (hph : s.ph = .idle) (w : RegWrite) (rest : List PendingOp) :
    step (s.withPend (.write w :: rest)) = .next ((s.hostWrite w).withPend rest) := by
  rw [step_host (s := s.withPend (.write w :: rest)) hts hph, hostTurn_cons rfl, ← State.hostWrite_withPend]
  rfl

/-- R64: one step for each of the writes `ws`, and one that runs the command of the word `w`. -/
theorem steps_writes_command (ws : List RegWrite) (w : BitVec 4) {s : State} (hts : s.turns = []) (hph : s.ph = .idle)
    (hp : s.pend = []) :
    steps (ws.length + 1) (s.withPend (ws.map .write ++ [.command w])) =
      exec (decodeCmd w) (ws.foldl State.hostWrite s) := by
  induction ws generalizing s with
  | nil =>
    have hrun : step (s.withPend [.command w]) = exec (decodeCmd w) (s.withPend []) := by
      rw [step_host (s := s.withPend [.command w]) hts hph, hostTurn_cons rfl]
      rfl
    rw [State.withPend_self hp] at hrun
    exact (steps_one _).trans hrun
  | cons x ws ih =>
    obtain ⟨hts', hph', hp'⟩ := s.hostWrite_host x
    rw [List.length_cons, List.map_cons, List.cons_append, steps_succ (step_write hts hph x _),
      ih (hts'.trans hts) (hph'.trans hph) (hp'.trans hp), List.foldl_cons]

/-! ### The host at a line -/

/-- The host is about to begin line `x`: no turn is listed, the block is idle, and no line is in progress. -/
def State.atLine (s : State) (x : Line) : Prop :=
  s.turns = [] ∧ s.ph = .idle ∧ s.pend = [] ∧ s.waiting = false ∧ s.script[s.si]? = some x

/-- At a line the block is idle. -/
theorem State.idle_of_atLine {s : State} {x : Line} (h : s.atLine x) : s.busy = false := by
  obtain ⟨-, hph, -⟩ := h
  exact s.not_busy_iff.mpr hph

/-- At a line the step begins it. -/
theorem step_atLine {s : State} {x : Line} (h : s.atLine x) : step s = issue x.act s := by
  obtain ⟨hts, hph, hp, hw, hx⟩ := h
  simp only [step_host hts hph, hostTurn, hp, hw, hx, Action.outcome, Bool.false_eq_true, if_false]

/-- R64: a line that stands for the writes `ws` and the command word `w` comes to that command, in the state the writes
leave. -/
theorem steps_line {s : State} {x : Line} (h : s.atLine x) (ws : List RegWrite) (w : BitVec 4)
    (hissue : issue x.act s = .next (s.issueLine (ws.map .write ++ [.command w]))) :
    steps (ws.length + 2) s = exec (decodeCmd w) (ws.foldl State.hostWrite { s with waiting := true }) := by
  rw [steps_succ ((step_atLine h).trans hissue)]
  obtain ⟨hts, hph, hp, -, -⟩ := h
  exact steps_writes_command ws w (s := { s with waiting := true }) hts hph hp

@[simp] theorem decodeCmd_encodeCode (f : Family) : decodeCmd (encodeCode f) = encInstr f := by cases f <;> rfl
@[simp] theorem decodeCmd_decodeCode (f : Family) : decodeCmd (decodeCode f) = decInstr f := by cases f <;> rfl
@[simp] theorem decodeCmd_writeCode (f : Family) : decodeCmd (writeCode f) = wrInstr f := by cases f <;> rfl
@[simp] theorem decodeCmd_readCode (f : Family) : decodeCmd (readCode f) = rdInstr f := by cases f <;> rfl

/-- A number BASE or LEN can hold is what they hold after its write. -/
theorem State.hostWrite_base_of_lt {s : State} (hb : s.busy = false) {n : Nat} (hn : n < 2 ^ s.cfg.addrW) :
    s.hostWrite (.base n) = { s with base := n } := by
  obtain ⟨haddr, hfree⟩ := s.addrOf_of_lt n hn
  rw [State.hostWrite_base hb, haddr, hfree]

@[inherit_doc State.hostWrite_base_of_lt]
theorem State.hostWrite_len_of_lt {s : State} (hb : s.busy = false) {n : Nat} (hn : n < 2 ^ s.cfg.addrW) :
    s.hostWrite (.len n) = { s with len := n } := by
  obtain ⟨haddr, hfree⟩ := s.addrOf_of_lt n hn
  rw [State.hostWrite_len hb, haddr, hfree]

/-! ### Lines that stand for a command -/

section
variable {s : State} {x : Line}

theorem steps_enc (h : s.atLine x) {f : Family} {b l : Nat} {v : Value} (hx : x.act = .enc f b l v)
    (hb : b < 2 ^ s.cfg.addrW) (hl : l < 2 ^ s.cfg.addrW) :
    steps 5 s = exec (encInstr f) { s with base := b, len := l, val := v, waiting := true } := by
  have hrun := steps_line h [.base b, .len l, .val v] (encodeCode f) (by rw [hx]; rfl)
  have hidle := State.idle_of_atLine h
  rw [decodeCmd_encodeCode, List.foldl_cons, State.hostWrite_base_of_lt (s := { s with waiting := true }) hidle hb,
    List.foldl_cons, State.hostWrite_len_of_lt (s := { s with base := b, waiting := true }) hidle hl,
    List.foldl_cons, State.hostWrite_val (s := { s with base := b, len := l, waiting := true }) hidle] at hrun
  exact hrun

theorem steps_dec (h : s.atLine x) {f : Family} {b l : Nat} (hx : x.act = .dec f b l)
    (hb : b < 2 ^ s.cfg.addrW) (hl : l < 2 ^ s.cfg.addrW) :
    steps 4 s = exec (decInstr f) { s with base := b, len := l, waiting := true } := by
  have hrun := steps_line h [.base b, .len l] (decodeCode f) (by rw [hx]; rfl)
  have hidle := State.idle_of_atLine h
  rw [decodeCmd_decodeCode, List.foldl_cons, State.hostWrite_base_of_lt (s := { s with waiting := true }) hidle hb,
    List.foldl_cons, State.hostWrite_len_of_lt (s := { s with base := b, waiting := true }) hidle hl] at hrun
  exact hrun

/-- A line that writes VAL only: WR, and the plus form of ENC. -/
theorem steps_valLine (h : s.atLine x) {v : Value} {w : BitVec 4}
    (hissue : issue x.act s = .next (s.issueLine [.write (.val v), .command w])) :
    steps 3 s = exec (decodeCmd w) { s with val := v, waiting := true } := by
  have hrun := steps_line h [.val v] w hissue
  have hidle := State.idle_of_atLine h
  rw [List.foldl_cons, State.hostWrite_val (s := { s with waiting := true }) hidle] at hrun
  exact hrun

/-- A line that is a command only: RD, and the plus form of DEC. -/
theorem steps_bareLine (h : s.atLine x) {w : BitVec 4} (hissue : issue x.act s = .next (s.issueLine [.command w])) :
    steps 2 s = exec (decodeCmd w) { s with waiting := true } :=
  steps_line h [] w hissue

end

/-- Settles O10: each line by its register writes; the waiting host by its turn. -/
theorem scriptLinesStandForTheirWrites : Obligations.ScriptLinesStandForTheirWrites := by
  refine ⟨fun s x hts hph hp hw hx => ?_, fun u hts hph hp hw => ?_, fun u ts hts hp hw => ?_⟩
  · have h : s.atLine x := ⟨hts, hph, hp, hw, hx⟩
    refine ⟨fun f b l v hact hb hl => steps_enc h hact hb hl, fun f b l hact hb hl => steps_dec h hact hb hl,
      fun f v hact => ?_, fun f hact => ?_⟩
    · rw [steps_valLine h (by rw [hact]; rfl), decodeCmd_writeCode]
    · rw [steps_bareLine h (by rw [hact]; rfl), decodeCmd_readCode]
  · rw [step_host hts hph, hostTurn_waiting hp hw, if_neg (by simp [State.busy, hph])]
    rfl
  · rw [step_turn hts]
    exact hostTurn_waiting (s := { u with turns := ts }) hp hw

/-! ### Directives (R66) -/

/-- R66: ADV writes BASE + RCNT to BASE. -/
def State.advBase (s : State) : RegWrite := .base ((s.base : Int) + s.rcnt.toNat)

/-- R66: ADV writes LEN - RCNT to LEN. -/
def State.advLen (s : State) : RegWrite := .len ((s.len : Int) - s.rcnt.toNat)

/-- ADV: the host goes on to the next line with two register writes to make, each of which takes a step. -/
theorem steps_adv {s : State} {x : Line} (h : s.atLine x) (hx : x.act = .adv) :
    steps 3 s = .next ((s.nextLine.hostWrite s.advBase).hostWrite s.advLen) := by
  have hbegin : step s = .next (s.nextLine.withPend [.write s.advBase, .write s.advLen]) := by
    rw [step_atLine h, hx]
    rfl
  obtain ⟨hts, hph, hp, -, -⟩ := h
  obtain ⟨hts', hph', hp'⟩ := s.nextLine.hostWrite_host s.advBase
  obtain ⟨-, -, hp''⟩ := (s.nextLine.hostWrite s.advBase).hostWrite_host s.advLen
  rw [steps_succ hbegin, steps_succ (step_write (s := s.nextLine) hts hph _ _), steps_one,
    step_write (hts'.trans hts) (hph'.trans hph), State.withPend_self (hp''.trans (hp'.trans hp))]

/-- An ADV whose numbers fit the registers. -/
theorem steps_adv_of_fits {s : State} {x : Line} (h : s.atLine x) (hx : x.act = .adv)
    (hbase : s.base + s.rcnt.toNat < 2 ^ s.cfg.addrW) (hle : s.rcnt.toNat ≤ s.len) (hlen : s.len < 2 ^ s.cfg.addrW) :
    steps 3 s = .next { s with base := s.base + s.rcnt.toNat, len := s.len - s.rcnt.toNat, si := s.si + 1 } := by
  have hidle := State.idle_of_atLine h
  have hcastB : (s.base : Int) + s.rcnt.toNat = (s.base + s.rcnt.toNat : Nat) := by omega
  have hcastL : (s.len : Int) - s.rcnt.toNat = (s.len - s.rcnt.toNat : Nat) := by omega
  rw [steps_adv h hx, State.advBase, State.advLen, hcastB, hcastL,
    State.hostWrite_base_of_lt (s := s.nextLine) hidle hbase,
    State.hostWrite_len_of_lt (s := { s.nextLine with base := s.base + s.rcnt.toNat }) hidle
      (Nat.lt_of_le_of_lt (Nat.sub_le _ _) hlen)]
  rfl

/-- Any ADV leaves in BASE and LEN some numbers of their width (log 13). -/
theorem steps_adv_stays {s : State} {x : Line} (h : s.atLine x) (hx : x.act = .adv) :
    ∃ b n c, b < 2 ^ s.cfg.addrW ∧ n < 2 ^ s.cfg.addrW ∧
      steps 3 s = .next { s with base := b, len := n, freeCtr := c, si := s.si + 1 } := by
  have hidle := State.idle_of_atLine h
  obtain ⟨b, c, hb, hbase⟩ : ∃ b c, b < 2 ^ s.cfg.addrW ∧
      s.nextLine.hostWrite s.advBase = { s.nextLine with base := b, freeCtr := c } :=
    ⟨_, _, s.nextLine.addrOf_lt _, State.hostWrite_base (s := s.nextLine) hidle _⟩
  obtain ⟨n, c', hn, hlen⟩ : ∃ n c', n < 2 ^ s.cfg.addrW ∧
      ({ s.nextLine with base := b, freeCtr := c } : State).hostWrite s.advLen =
        { s.nextLine with base := b, len := n, freeCtr := c' } :=
    ⟨_, _, State.addrOf_lt { s.nextLine with base := b, freeCtr := c } _,
      State.hostWrite_len (s := { s.nextLine with base := b, freeCtr := c }) hidle _⟩
  refine ⟨b, n, c', hb, hn, ?_⟩
  rw [steps_adv h hx, hbase, hlen]
  rfl

/-- JOK and JERR: RERR decides between the label's line and the next one. -/
theorem issue_jump {s : State} {l n : Nat} (hl : lineOf s.script l = some n) :
    issue (.jok l) s = .next { s with si := if s.rerr = 0 then n else s.si + 1 } ∧
    issue (.jerr l) s = .next { s with si := if s.rerr ≠ 0 then n else s.si + 1 } := by
  have hjump : s.jump l = .next { s with si := n } := by rw [State.jump, hl]
  have hread : s.hostRead .rerr = 0 ↔ s.rerr = 0 := BitVec.toNat_inj (y := 0)
  by_cases h : s.rerr = 0
  · have hzero := hread.mpr h
    rw [issue, issue, if_pos hzero, if_neg (not_not.mpr hzero), if_pos h, if_neg (not_not.mpr h)]
    exact ⟨hjump, rfl⟩
  · have hzero : s.hostRead .rerr ≠ 0 := fun h0 => h (hread.mp h0)
    rw [issue, issue, if_neg hzero, if_pos hzero, if_neg h, if_pos h]
    exact ⟨rfl, hjump⟩

/-- Settles O11: each directive by the step that begins its line. -/
theorem scriptDirectivesAct : Obligations.ScriptDirectivesAct := by
  intro s x hts hph hp hw hx
  have h : s.atLine x := ⟨hts, hph, hp, hw, hx⟩
  have hbegin := step_atLine h
  refine ⟨steps_adv_of_fits h, steps_adv_stays h, fun f v hact => ?_, fun f hact => ?_, fun l n hl => ?_,
    fun hact => ?_, fun hact => ?_⟩
  · rw [steps_valLine h (by rw [hact]; rfl), decodeCmd_encodeCode]
  · rw [steps_bareLine h (by rw [hact]; rfl), decodeCmd_decodeCode]
  · obtain ⟨hjok, hjerr⟩ := issue_jump hl
    exact ⟨fun hact => (hact ▸ hbegin).trans hjok, fun hact => (hact ▸ hbegin).trans hjerr⟩
  · rw [hbegin, hact]
    rfl
  · rw [hbegin, hact, issue, if_neg (by simp [State.busy, hph])]

end Sys2Proof.Machine

/-! ## The shared datapath

R85, R86: the class of a value as the first tag whose payload width holds it, and the bound as the largest of those
widths.  R88: the value of a whole encoding as the low bits of its first byte followed by the other bytes. -/

namespace Sys2Proof.Machine

open Sys2Proof.Claims

/-! ### The bound is the largest payload range (R83) -/

theorem LEN_mono (f : Family) {t u : Nat} (h : t ≤ u) : LEN f t ≤ LEN f u := by
  have hpow : 2 ^ t ≤ 2 ^ u := Nat.pow_le_pow_right (by decide) h
  cases f with
  | narrow => exact hpow
  | medium => exact Nat.succ_le_succ h
  | wide => exact hpow

theorem PBITS_mono (f : Family) {t u : Nat} (h : t ≤ u) : PBITS f t ≤ PBITS f u :=
  Nat.sub_le_sub_right (Nat.mul_le_mul_left 8 (LEN_mono f h)) (K f)

theorem two_pow_PBITS_le_BOUND (f : Family) {t : Nat} (h : t < 2 ^ K f) : 2 ^ PBITS f t ≤ BOUND f :=
  Nat.pow_le_pow_right (by decide) (PBITS_mono f (Nat.le_sub_one_of_lt h))

/-! ### Class selection -/

theorem classOf_eq_some_iff (f : Family) (v t : Nat) :
    classOf f v = some t ↔ t < 2 ^ K f ∧ v < 2 ^ PBITS f t ∧ ∀ u, u < t → 2 ^ PBITS f u ≤ v := by
  rw [classOf, List.find?_range_eq_some]
  simp only [decide_eq_true_eq, List.mem_range, Bool.not_eq_true', decide_eq_false_iff_not, Nat.not_lt]
  exact and_left_comm

/-- No tag holds a value from the bound on: the largest tag's range ends there, every other one's not later. -/
theorem classOf_eq_none_iff (f : Family) (v : Nat) : classOf f v = none ↔ BOUND f ≤ v := by
  rw [classOf, List.find?_range_eq_none]
  simp only [Bool.not_eq_true', decide_eq_false_iff_not, Nat.not_lt]
  constructor
  · intro h
    exact h (tmax f) (Nat.sub_one_lt (Nat.two_pow_pos _).ne')
  · intro h t ht
    exact (two_pow_PBITS_le_BOUND f ht).trans h

/-- Settles O22: the search answers the first tag that fits, and none when the largest does not. -/
theorem classSelectionIsTheSmallestThatFits : Obligations.ClassSelectionIsTheSmallestThatFits := fun f v =>
  ⟨classOf_eq_some_iff f v, classOf_eq_none_iff f v⟩

/-- One step of a search is one test of a chain. -/
theorem find?_decide_cons {α : Type} (p : α → Prop) [DecidablePred p] (a : α) (as : List α) :
    (a :: as).find? (fun x => decide (p x)) = if p a then some a else as.find? fun x => decide (p x) := by
  by_cases h : p a <;> simp [h]

/-- R86: the chain of a 1-bit tag. -/
theorem classOf_of_one_bit {f : Family} (hf : K f = 1) (v : Nat) :
    classOf f v = if v < 2 ^ PBITS f 0 then some 0 else if v < 2 ^ PBITS f 1 then some 1 else none := by
  have hrange : List.range (2 ^ 1) = [0, 1] := rfl
  rw [classOf, hf, hrange, find?_decide_cons, find?_decide_cons, List.find?_nil]

/-- R86: the chain of a 2-bit tag. -/
theorem classOf_of_two_bits {f : Family} (hf : K f = 2) (v : Nat) :
    classOf f v =
      if v < 2 ^ PBITS f 0 then some 0 else if v < 2 ^ PBITS f 1 then some 1 else if v < 2 ^ PBITS f 2 then some 2
      else if v < 2 ^ PBITS f 3 then some 3 else none := by
  have hrange : List.range (2 ^ 2) = [0, 1, 2, 3] := rfl
  rw [classOf, hf, hrange, find?_decide_cons, find?_decide_cons, find?_decide_cons, find?_decide_cons, List.find?_nil]

/-- Settles O21: the search through the tags, with the payload widths computed. -/
theorem classSelectionIsTheThresholdChain : Obligations.ClassSelectionIsTheThresholdChain := fun v =>
  ⟨classOf_of_one_bit rfl v, classOf_of_two_bits rfl v, classOf_of_two_bits rfl v⟩

/-! ### Unpacking -/

/-- Bytes after a head stand below it, as the number they join to. -/
theorem concatBytes_eq (head : Nat) (bs : List Byte) :
    concatBytes head bs = head * 2 ^ (8 * bs.length) + joinBE bs := by
  induction bs generalizing head with
  | nil => simp [concatBytes, joinBE]
  | cons b bs ih =>
    rw [concatBytes, ih, joinBE_cons, List.length_cons, Nat.mul_add 8, Nat.pow_add]
    ring

/-- R88: the top `k` bits of the word are those of its first byte, so dropping them leaves the other bytes whole. -/
theorem unpack_cons (f : Family) (b0 : Byte) (bs : List Byte) :
    unpack f (b0 :: bs) = concatBytes (b0.extractLsb' 0 (8 - K f)).toNat bs := by
  have hexp : 8 * (b0 :: bs).length - K f = 8 * bs.length + (8 - K f) := by
    have := K_le f
    rw [List.length_cons]
    omega
  have hlow : joinBE (b0 :: bs) % 2 ^ (8 * bs.length) = joinBE bs := by
    rw [joinBE_cons, Nat.mul_comm, Nat.mul_add_mod, Nat.mod_eq_of_lt (joinBE_lt bs)]
  have hhigh : joinBE (b0 :: bs) / 2 ^ (8 * bs.length) = b0.toNat := by
    rw [joinBE_cons, Nat.mul_comm, Nat.mul_add_div (Nat.two_pow_pos _), Nat.div_eq_of_lt (joinBE_lt bs), Nat.add_zero]
  have hbyte : (b0.extractLsb' 0 (8 - K f)).toNat = b0.toNat % 2 ^ (8 - K f) := by
    rw [BitVec.extractLsb'_toNat, Nat.shiftRight_zero]
  rw [unpack, hexp, Nat.pow_add, Nat.mod_mul, hlow, hhigh, concatBytes_eq, hbyte, Nat.mul_comm, Nat.add_comm]

/-- Settles O24: the top bits dropped, the size by the tag, and the packed value recovered with its tag. -/
theorem unpackDropsTheTagAndInvertsPack : Obligations.UnpackDropsTheTagAndInvertsPack := by
  refine ⟨fun f b0 bs hlen => ?_, fun f t v ht hv => ?_⟩
  · have hlt : unpack f (b0 :: bs) < 2 ^ PBITS f (tagOf f b0) := unpack_lt_PBITS hlen
    exact ⟨unpack_cons f b0 bs, hlt, hlt.trans_le (two_pow_PBITS_le_BOUND f (tagOf_lt f b0))⟩
  · obtain ⟨b0, tl, hpack⟩ := pack_eq_cons f t v
    exact ⟨unpack_pack ht hv, b0, tl, hpack, tagOf_pack ht hv hpack⟩

end Sys2Proof.Machine

/-! ## The commands of each family

R90, R91, R131 to R137: each of the four commands as its rule states it, for any family, and the bytes of a packed value
as the rules write them. -/

namespace Sys2Proof.Machine

open Sys2Proof.Claims

/-! ### Encode and Write -/

/-- R208: the command word leaves the host's duty on the buffer kept. -/
theorem badBuffer_of_goodBuffer {s : State} (hg : goodBuffer s) (w : BitVec 4) :
    ({ s with cmd := w } : State).badBuffer = none :=
  s.badBuffer_eq_none_iff.mpr hg

/-- R90: Encode on a buffer that keeps the host's duty. -/
theorem exec_encInstr_good (f : Family) {s : State} (hb : s.busy = false) (hg : goodBuffer s) :
    exec (encInstr f) s = .next (encodeOutcome (encodeBytes f s.val.toNat) { s with cmd := encodeCode f }) := by
  rw [exec_encInstr f hb, encodeBuffer_good f (badBuffer_of_goodBuffer hg _)]
  cases hbs : encodeBytes f s.val.toNat with
  | none => rfl
  | some bs => exact (apply_ite Host.Outcome.next _ _ _).symm

theorem exec_wrInstr_issues (f : Family) {s : State} (hb : s.busy = false) :
    exec (wrInstr f) s = .next (writeOutcome (encodeBytes f s.val.toNat) { s with cmd := writeCode f }) := by
  rw [exec_wrInstr f hb, startWrite]
  cases hbs : encodeBytes f s.val.toNat <;> rfl

/-- R137: the output stream has accepted all bytes on offer, which SB holds. -/
theorem onWriteAnswer_all {s : State} {bs : List Byte} (hph : s.ph = .wrData) (hn : s.nreq.toNat = bs.length)
    (hsb : s.staged bs.length = bs) :
    onWriteAnswer .all s = .next ({ s with outSent := s.outSent ++ bs }.complete 0 bs.length) := by
  have hfit : WriteAnswer.all.fits bs.length s.cfg.teW = true := rfl
  rw [onWriteAnswer_wrData hph, hn, hsb, if_pos hfit]

/-- R137: the output stream has accepted the first `m` of them and failed. -/
theorem onWriteAnswer_partOnly {s : State} {bs : List Byte} (hph : s.ph = .wrData) (hn : s.nreq.toNat = bs.length)
    (hsb : s.staged bs.length = bs) {m e : Nat} (hm : m < bs.length) (he : e < 2 ^ s.cfg.teW) :
    onWriteAnswer (.partOnly m e) s = .next ({ s with outSent := s.outSent ++ bs.take m }.raiseTransport m e) := by
  have hfit : (WriteAnswer.partOnly m e).fits bs.length s.cfg.teW = true := by simp [WriteAnswer.fits, hm, he]
  rw [onWriteAnswer_wrData hph, hn, hsb, if_pos hfit]

/-- After a Write's issue step NREQ counts the bytes of the encoding, and SB holds them. -/
theorem writeAnswered_writeOutcome (f : Family) (v : Nat) (s : State) :
    writeAnswered (encodeBytes f v) (writeOutcome (encodeBytes f v) s) := by
  intro bs hbs
  obtain ⟨-, hle⟩ := length_encodeBytes hbs
  have hn := toNat_ofNat4 bs.length hle
  have hsb := take_storeSB s.sb bs hle
  rw [hbs]
  exact ⟨onWriteAnswer_all (s := writeOutcome (some bs) s) rfl hn hsb,
    fun _ _ => onWriteAnswer_partOnly (s := writeOutcome (some bs) s) rfl hn hsb⟩

/-- The first byte of a packed value is the tag above the value's top bits, and the bytes after it are the value's. -/
theorem pack_eq_tag_or {f : Family} {t n : Nat} (hlen : LEN f t = n + 1) {v : Value} (hv : v.toNat < 2 ^ PBITS f t) :
    pack f t v.toNat =
      (BitVec.ofNat 8 (t <<< (8 - K f)) ||| (v.extractLsb' (8 * n) (8 - K f)).setWidth 8) :: bytesBE n v.toNat := by
  have hK := K_le f
  have hbits : PBITS f t = 8 * n + (8 - K f) := by
    unfold PBITS
    omega
  have htop : v.toNat >>> (8 * n) < 2 ^ (8 - K f) := by
    rw [Nat.shiftRight_eq_div_pow]
    exact Nat.div_lt_of_lt_mul (by rwa [← Nat.pow_add, ← hbits])
  have hpay : (v.extractLsb' (8 * n) (8 - K f)).setWidth 8 = BitVec.ofNat 8 (v.toNat >>> (8 * n)) := by
    apply BitVec.eq_of_toNat_eq
    rw [BitVec.toNat_setWidth, BitVec.extractLsb'_toNat, Nat.mod_eq_of_lt htop, BitVec.toNat_ofNat]
  have hhead : ((t <<< PBITS f t) ||| v.toNat) >>> (8 * n) = (t <<< (8 - K f)) ||| (v.toNat >>> (8 * n)) := by
    rw [Nat.shiftRight_or_distrib, hbits, Nat.add_comm, Nat.shiftLeft_add, Nat.shiftLeft_shiftRight]
  have hrest : bytesBE n ((t <<< PBITS f t) ||| v.toNat) = bytesBE n v.toNat := by
    have hword : (t <<< PBITS f t) ||| v.toNat = v.toNat + t * 2 ^ (8 - K f) * 2 ^ (8 * n) := by
      rw [shiftLeft_or t _ _ hv, hbits, Nat.pow_add]
      ring
    rw [hword, bytesBE_add_mul]
  change bytesBE (LEN f t) ((t <<< PBITS f t) ||| v.toNat) = _
  rw [hlen, bytesBE, hhead, hrest, hpay, BitVec.ofNat_or]

/-- R90: the bytes of a value of class `t`, whose top bits share the first byte with the tag. -/
theorem encodeBytes_of_classOf {f : Family} {t n : Nat} {v : Value} (hclass : classOf f v.toNat = some t)
    (hlen : LEN f t = n + 1) :
    encodeBytes f v.toNat =
      some ((BitVec.ofNat 8 (t <<< (8 - K f)) ||| (v.extractLsb' (8 * n) (8 - K f)).setWidth 8) ::
        bytesBE n v.toNat) := by
  obtain ⟨-, hv, -⟩ := (classOf_eq_some_iff f v.toNat t).mp hclass
  rw [encodeBytes, hclass, ← pack_eq_tag_or hlen hv]

/-! ### Decode -/

/-- A byte after a head, as bits after bits. -/
theorem concatBytes_toNat_cons {n : Nat} (x : BitVec n) (b : Byte) (bs : List Byte) :
    concatBytes x.toNat (b :: bs) = concatBytes (x ++ b).toNat bs := by
  rw [concatBytes, BitVec.toNat_append, shiftLeft_or _ _ _ b.isLt]
  rfl

theorem Memory.readBytes_succ (m : Memory) (a n : Nat) :
    m.readBytes a (n + 1) = m.byteAt a :: m.readBytes (a + 1) n := by
  simp [Memory.readBytes, List.range_succ_eq_map, Nat.add_assoc, Nat.add_comm 1]

section

variable (f : Family) {s : State} (hb : s.busy = false) (hg : goodBuffer s)
include hb hg

/-- R91: Decode of an empty buffer. -/
theorem exec_decInstr_of_empty (hlen : s.len = 0) :
    exec (decInstr f) s = .next ({ s with cmd := decodeCode f }.raise .bufferEmpty 0) := by
  rw [exec_decInstr f hb, decodeBuffer_good f (badBuffer_of_goodBuffer hg _), if_pos hlen]

/-- R91: Decode of a buffer shorter than its first byte declares. -/
theorem exec_decInstr_of_truncated (hlen : s.len ≠ 0) (hshort : s.len < lengthOf f (s.mem.byteAt s.base)) :
    exec (decInstr f) s =
      .next (({ s with cmd := decodeCode f }.note [.memRead s.base]).raise .invalidEncoding 0) := by
  rw [exec_decInstr f hb, decodeBuffer_good f (badBuffer_of_goodBuffer hg _), if_neg hlen]
  exact if_pos hshort

/-- R91: Decode of a buffer that holds the whole encoding. -/
theorem exec_decInstr_of_whole {r : Nat} (hr : remainingOf f (s.mem.byteAt s.base) = r) (hlen : r + 1 ≤ s.len) :
    exec (decInstr f) s =
      .next (({ s with cmd := decodeCode f }.note (memReadOps s.base (r + 1))).complete
        (concatBytes ((s.mem.byteAt s.base).extractLsb' 0 (8 - K f)).toNat (s.mem.readBytes (s.base + 1) r))
        (r + 1)) := by
  have hne : s.len ≠ 0 := Nat.ne_of_gt (Nat.lt_of_lt_of_le r.succ_pos hlen)
  have hL : lengthOf f (s.mem.byteAt s.base) = r + 1 := by rw [lengthOf_eq_remainingOf_add_one, hr]
  rw [exec_decInstr f hb, decodeBuffer_good f (badBuffer_of_goodBuffer hg _), if_neg hne, hL,
    ← unpack_cons, ← Memory.readBytes_succ]
  exact if_neg (Nat.not_lt.mpr hlen)

end

/-! ### Read -/

/-- A stream may stop short of the bytes asked for, with none of them once it has ended. -/
theorem State.acceptsAnswer_short {s : State} {bs : List Byte} {why : StopReason} (hlt : bs.length < s.nreq.toNat)
    (hwhy : why.fits s.cfg.teW = true) (hend : s.inEnded = false ∨ bs = []) :
    s.acceptsAnswer (.short bs why) = true :=
  (s.acceptsAnswer_iff _).mpr ⟨by simp [ReadAnswer.fits, hlt, hwhy], hend⟩

theorem State.takeAnswer_eoi (s : State) (bs : List Byte) :
    s.takeAnswer (.short bs .eoi) = { s with inTaken := s.inTaken ++ bs, inEnded := true } := by
  simp [State.takeAnswer, ReadAnswer.bytes, ReadAnswer.ends]

theorem State.takeAnswer_err (s : State) (bs : List Byte) (e : Nat) :
    s.takeAnswer (.short bs (.err e)) = { s with inTaken := s.inTaken ++ bs } := by
  simp [State.takeAnswer, ReadAnswer.bytes, ReadAnswer.ends]

/-- R132: the first request is stopped short with no byte. -/
theorem firstFailures_of_rdTag {s : State} {f : Family} (hph : s.ph = .rdTag) (hf : familyOf s.cmd = some f)
    (hn : s.nreq = 1) : firstFailures s := by
  have hlt : ([] : List Byte).length < s.nreq.toNat := by
    rw [hn]
    decide
  refine ⟨?_, fun e he => ?_⟩
  · rw [onReadAnswer_rdTag hph hf, if_pos (State.acceptsAnswer_short hlt rfl (.inr rfl)), State.takeAnswer_eoi,
      List.append_nil]
    rfl
  · have hwhy : (StopReason.err e).fits s.cfg.teW = true := decide_eq_true he
    rw [onReadAnswer_rdTag hph hf, if_pos (State.acceptsAnswer_short hlt hwhy (.inr rfl)), State.takeAnswer_err,
      List.append_nil]
    rfl

/-- R133: the second request is stopped short. -/
theorem contFailures_of_rdCont {s : State} {f : Family} (hph : s.ph = .rdCont) (hf : familyOf s.cmd = some f) {r : Nat}
    (hn : s.nreq.toNat = r) (hend : s.inEnded = false) : contFailures s r := by
  intro bs hbs
  rw [← hn] at hbs
  refine ⟨?_, fun e he => ?_⟩
  · rw [onReadAnswer_rdCont hph hf, if_pos (State.acceptsAnswer_short hbs rfl (.inl hend)), State.takeAnswer_eoi]
    rfl
  · have hwhy : (StopReason.err e).fits s.cfg.teW = true := decide_eq_true he
    rw [onReadAnswer_rdCont hph hf, if_pos (State.acceptsAnswer_short hbs hwhy (.inl hend)), State.takeAnswer_err]
    rfl

section

variable {s : State} {f : Family} (hph : s.ph = .rdTag) (hf : familyOf s.cmd = some f) (hn : s.nreq = 1)
  (hend : s.inEnded = false) {b0 : Byte}
include hph hf hn hend

/-- R132: a tag byte after which no byte follows is the whole encoding. -/
theorem onReadAnswer_tagByte_whole (hr : remainingOf f b0 = 0) :
    onReadAnswer (.full [b0]) s =
      .next ((tagTaken s b0).complete (b0.extractLsb' 0 (8 - K f)).toNat 1) := by
  rw [onReadAnswer_tagByte hph hf hn hend, if_pos hr, unpack_cons, concatBytes]

/-- R132, R133: a tag byte after which `r` bytes follow. -/
theorem continued_of_remainingOf {r : Nat} (hr : remainingOf f b0 = r) (hpos : r ≠ 0) :
    continued s b0 r fun bs => concatBytes (b0.extractLsb' 0 (8 - K f)).toNat bs := by
  have hle : r ≤ 7 := hr ▸ remainingOf_le f b0
  refine ⟨?_, ?_, fun bs hbs => ?_⟩
  · rw [onReadAnswer_tagByte hph hf hn hend, hr, if_neg hpos]
  · exact contFailures_of_rdCont (s := contIssued s b0 r) rfl hf (toNat_ofNat4 r (by omega)) hend
  · subst hbs
    have htag : (contIssued s b0 bs.length).sb[0] = b0 := storeSB_zero_head s.sb b0
    rw [onReadAnswer_contBytes (s := contIssued s b0 bs.length) rfl hf rfl hle hend, htag, unpack_cons]

end

end Sys2Proof.Machine

/-! ## The narrow family

R100 to R103: the four commands with a 1-bit tag. -/

namespace Sys2Proof.Machine

open Sys2Proof.Claims

/-- R100, R102: the encoding of a narrow value, by its class. -/
theorem encodeBytes_narrow (v : Value) : encodeBytes .narrow v.toNat = narrowBytes v := by
  obtain ⟨hclass, -, -⟩ := classSelectionIsTheThresholdChain v.toNat
  by_cases hlarge : 0x8000 ≤ v.toNat
  · rw [if_neg (by omega), if_neg (by omega)] at hclass
    rw [encodeBytes, hclass, narrowBytes, if_pos hlarge]
  · rw [narrowBytes, if_neg hlarge]
    by_cases hone : v.toNat < 0x80
    · rw [if_pos hone] at hclass
      rw [if_pos hone, encodeBytes_of_classOf hclass (n := 0) rfl, Nat.zero_shiftLeft, BitVec.zero_or]
      rfl
    · rw [if_neg hone, if_pos (by omega)] at hclass
      rw [if_neg hone, encodeBytes_of_classOf hclass (n := 1) rfl]
      rfl

/-- R54: the top bit of a first byte says whether a second one follows. -/
theorem remainingOf_narrow (b0 : Byte) : remainingOf .narrow b0 = (b0.getLsbD 7).toNat := by
  have hbit : (b0.getLsbD 7).toNat = b0.toNat / 2 ^ 7 % 2 := Nat.toNat_testBit _ _
  have htag : tagOf .narrow b0 = (b0.getLsbD 7).toNat := by
    have := b0.isLt
    rw [hbit, tagOf, Nat.shiftRight_eq_div_pow, K]
    omega
  rw [remainingOf, lengthOf, htag]
  cases b0.getLsbD 7 <;> rfl

/-- Settles O25: the narrow bytes written out, by what Encode does on a good buffer. -/
theorem encNStoresTheNarrowEncoding : Obligations.EncNStoresTheNarrowEncoding := by
  intro s hb hg
  rw [← encodeBytes_narrow]
  exact exec_encInstr_good .narrow hb hg

/-- Settles O31: the narrow bytes written out, by the issue step and the answers of a Write. -/
theorem wrNSendsTheNarrowEncoding : Obligations.WrNSendsTheNarrowEncoding := by
  intro s hb
  rw [← encodeBytes_narrow]
  exact ⟨exec_wrInstr_issues .narrow hb, writeAnswered_writeOutcome .narrow _ _⟩

/-- Settles O34: by what a Read does after a tag byte that says no byte or one byte follows. -/
theorem rdNTakesOneNarrowEncoding : Obligations.RdNTakesOneNarrowEncoding := by
  intro s hb
  have hf := familyOf_readCode .narrow
  refine ⟨exec_rdInstr .narrow hb, firstFailures_of_rdTag rfl hf rfl,
    fun hend b0 => ⟨fun htag => ?_, fun htag => ?_⟩⟩
  · have hr : remainingOf .narrow b0 = 0 := by rw [remainingOf_narrow, htag, Bool.toNat_false]
    exact onReadAnswer_tagByte_whole (s := readIssued 0b1100 s) rfl hf rfl hend hr
  · have hr : remainingOf .narrow b0 = 1 := by rw [remainingOf_narrow, htag, Bool.toNat_true]
    exact continued_of_remainingOf (s := readIssued 0b1100 s) rfl hf rfl hend hr (by decide)

/-- Settles O28, by the length of the buffer against the length byte 0 declares. -/
theorem decNRecoversTheNarrowValue : Obligations.DecNRecoversTheNarrowValue := by
  intro s hb hg
  dsimp only
  have hrem := remainingOf_narrow (s.mem.byteAt s.base)
  by_cases hempty : s.len = 0
  · rw [if_pos hempty]
    exact exec_decInstr_of_empty .narrow hb hg hempty
  · rw [if_neg hempty]
    cases htag : (s.mem.byteAt s.base).getLsbD 7 with
    | false =>
      rw [htag, Bool.toNat_false] at hrem
      rw [if_pos rfl]
      exact exec_decInstr_of_whole .narrow hb hg hrem (Nat.pos_of_ne_zero hempty)
    | true =>
      rw [htag, Bool.toNat_true] at hrem
      rw [if_neg (by decide)]
      by_cases hshort : s.len < 2
      · rw [if_pos hshort]
        refine exec_decInstr_of_truncated .narrow hb hg hempty ?_
        rwa [lengthOf_eq_remainingOf_add_one, hrem]
      · have hvalue : concatBytes ((s.mem.byteAt s.base).extractLsb' 0 7).toNat [s.mem.byteAt (s.base + 1)] =
            ((s.mem.byteAt s.base).extractLsb' 0 7 ++ s.mem.byteAt (s.base + 1)).toNat :=
          concatBytes_toNat_cons _ _ []
        rw [if_neg hshort, ← hvalue]
        exact exec_decInstr_of_whole .narrow hb hg hrem (Nat.not_lt.mp hshort)

end Sys2Proof.Machine

/-! ## Fields of a first byte, and the bytes read after it

The tag as the first byte's top bits (R84), and the bytes Decode reads below the payload bits beside it (R91), for any
family. -/

namespace Sys2Proof.Machine

open Sys2Proof.Claims

/-- R84: the tag is the first byte's top bits, as a field of it. -/
theorem tagOf_eq_extractLsb' (f : Family) (b0 : Byte) : tagOf f b0 = (b0.extractLsb' (8 - K f) (K f)).toNat := by
  have hbits : 8 - K f + K f = 8 := Nat.sub_add_cancel ((K_le f).trans (by decide))
  have hlt : b0.toNat >>> (8 - K f) < 2 ^ K f := by
    rw [Nat.shiftRight_eq_div_pow]
    refine Nat.div_lt_of_lt_mul ?_
    rw [← Nat.pow_add, hbits]
    exact b0.isLt
  rw [tagOf, BitVec.extractLsb'_toNat, Nat.mod_eq_of_lt hlt]

/-- Bytes read after a head, as bits after bits. -/
theorem concatBytes_readBytes_succ {n : Nat} (x : BitVec n) (m : Memory) (a r : Nat) :
    concatBytes x.toNat (m.readBytes a (r + 1)) = concatBytes (x ++ m.byteAt a).toNat (m.readBytes (a + 1) r) := by
  rw [Memory.readBytes_succ, concatBytes_toNat_cons]

end Sys2Proof.Machine

/-! ## The medium family

R110 to R113: the four commands with a 2-bit tag that counts the bytes after the first. -/

namespace Sys2Proof.Machine

open Sys2Proof.Claims

/-- R110, R112: the encoding of a medium value, by its class. -/
theorem encodeBytes_medium (v : Value) : encodeBytes .medium v.toNat = mediumBytes v := by
  obtain ⟨-, hclass, -⟩ := classSelectionIsTheThresholdChain v.toNat
  rw [mediumBytes]
  split_ifs at hclass ⊢
  · exact encodeBytes_of_classOf hclass (n := 0) rfl
  · exact encodeBytes_of_classOf hclass (n := 1) rfl
  · exact encodeBytes_of_classOf hclass (n := 2) rfl
  · exact encodeBytes_of_classOf hclass (n := 3) rfl
  · rw [encodeBytes, hclass]

/-- R54: the tag of a medium first byte is the number of bytes after it. -/
theorem remainingOf_medium (b0 : Byte) : remainingOf .medium b0 = (b0.extractLsb' 6 2).toNat :=
  tagOf_eq_extractLsb' .medium b0

/-- R111: the value of a first byte's payload and the at most three bytes read after it, length by length. -/
theorem concatBytes_readBytes_medium (x : BitVec 6) (m : Memory) (a : Nat) {r : Nat} (hr : r < 4) :
    concatBytes x.toNat (m.readBytes (a + 1) r) =
      if r + 1 = 1 then x.toNat
      else if r + 1 = 2 then (x ++ m.byteAt (a + 1)).toNat
      else if r + 1 = 3 then (x ++ m.byteAt (a + 1) ++ m.byteAt (a + 2)).toNat
      else (x ++ m.byteAt (a + 1) ++ m.byteAt (a + 2) ++ m.byteAt (a + 3)).toNat := by
  interval_cases r
  · rfl
  · rw [concatBytes_readBytes_succ]
    rfl
  · rw [concatBytes_readBytes_succ, concatBytes_readBytes_succ]
    rfl
  · rw [concatBytes_readBytes_succ, concatBytes_readBytes_succ, concatBytes_readBytes_succ]
    rfl

/-- Settles O26: the medium bytes written out, by what Encode does on a good buffer. -/
theorem encMStoresTheMediumEncoding : Obligations.EncMStoresTheMediumEncoding := by
  intro s hb hg
  rw [← encodeBytes_medium]
  exact exec_encInstr_good .medium hb hg

/-- Settles O32: the medium bytes written out, by the issue step and the answers of a Write. -/
theorem wrMSendsTheMediumEncoding : Obligations.WrMSendsTheMediumEncoding := by
  intro s hb
  rw [← encodeBytes_medium]
  exact ⟨exec_wrInstr_issues .medium hb, writeAnswered_writeOutcome .medium _ _⟩

/-- Settles O35: by what a Read does after a tag byte that counts the bytes to follow. -/
theorem rdMTakesOneMediumEncoding : Obligations.RdMTakesOneMediumEncoding := by
  intro s hb
  have hf := familyOf_readCode .medium
  refine ⟨exec_rdInstr .medium hb, firstFailures_of_rdTag rfl hf rfl,
    fun hend b0 => ⟨fun hr => ?_, fun hr => ?_⟩⟩
  · exact onReadAnswer_tagByte_whole (s := readIssued 0b1101 s) rfl hf rfl hend ((remainingOf_medium b0).trans hr)
  · exact continued_of_remainingOf (s := readIssued 0b1101 s) rfl hf rfl hend (remainingOf_medium b0) hr

/-- Settles O29, by the length of the buffer against the length byte 0 declares. -/
theorem decMRecoversTheMediumValue : Obligations.DecMRecoversTheMediumValue := by
  intro s hb hg
  dsimp only [Nat.add_zero]
  have hrem := remainingOf_medium (s.mem.byteAt s.base)
  by_cases hempty : s.len = 0
  · rw [if_pos hempty]
    exact exec_decInstr_of_empty .medium hb hg hempty
  · rw [if_neg hempty]
    by_cases hshort : s.len < ((s.mem.byteAt s.base).extractLsb' 6 2).toNat + 1
    · rw [if_pos hshort]
      refine exec_decInstr_of_truncated .medium hb hg hempty ?_
      rwa [lengthOf_eq_remainingOf_add_one, hrem]
    · rw [if_neg hshort, ← concatBytes_readBytes_medium _ _ _ (BitVec.isLt _)]
      exact exec_decInstr_of_whole .medium hb hg hrem (Nat.not_lt.mp hshort)

end Sys2Proof.Machine

/-! ## The wide family

R120 to R123: the four commands with a 2-bit tag that doubles the length. -/

namespace Sys2Proof.Machine

open Sys2Proof.Claims

/-- R120, R122: the encoding of a wide value, by its class. -/
theorem encodeBytes_wide (v : Value) : encodeBytes .wide v.toNat = wideBytes v := by
  obtain ⟨-, -, hclass⟩ := classSelectionIsTheThresholdChain v.toNat
  rw [wideBytes]
  split_ifs at hclass ⊢
  · exact encodeBytes_of_classOf hclass (n := 0) rfl
  · exact encodeBytes_of_classOf hclass (n := 1) rfl
  · exact encodeBytes_of_classOf hclass (n := 3) rfl
  · exact encodeBytes_of_classOf hclass (n := 7) rfl
  · rw [encodeBytes, hclass]

/-- R54: the tag of a wide first byte is the logarithm of the length it declares. -/
theorem lengthOf_wide (b0 : Byte) : lengthOf .wide b0 = 2 ^ (b0.extractLsb' 6 2).toNat :=
  congrArg (2 ^ ·) (tagOf_eq_extractLsb' .wide b0)

/-- R54: what follows a wide first byte is the rest of that length. -/
theorem remainingOf_wide (b0 : Byte) : remainingOf .wide b0 = 2 ^ (b0.extractLsb' 6 2).toNat - 1 :=
  congrArg (· - 1) (lengthOf_wide b0)

/-- R121: the value of a first byte's payload and the bytes read after it, for each of the four lengths. -/
theorem concatBytes_readBytes_wide (x : BitVec 6) (m : Memory) (a : Nat) {t : Nat} (ht : t < 4) :
    concatBytes x.toNat (m.readBytes (a + 1) (2 ^ t - 1)) =
      if 2 ^ t = 1 then x.toNat
      else if 2 ^ t = 2 then (x ++ m.byteAt (a + 1)).toNat
      else if 2 ^ t = 4 then (x ++ m.byteAt (a + 1) ++ m.byteAt (a + 2) ++ m.byteAt (a + 3)).toNat
      else (x ++ m.byteAt (a + 1) ++ m.byteAt (a + 2) ++ m.byteAt (a + 3) ++ m.byteAt (a + 4) ++ m.byteAt (a + 5) ++
        m.byteAt (a + 6) ++ m.byteAt (a + 7)).toNat := by
  interval_cases t
  · rfl
  · exact concatBytes_readBytes_succ x m (a + 1) 0
  · change concatBytes x.toNat (m.readBytes (a + 1) 3) = _
    iterate 3 rw [concatBytes_readBytes_succ]
    rfl
  · change concatBytes x.toNat (m.readBytes (a + 1) 7) = _
    iterate 7 rw [concatBytes_readBytes_succ]
    rfl

/-- Settles O27: the wide bytes written out, by what Encode does on a good buffer. -/
theorem encWStoresTheWideEncoding : Obligations.EncWStoresTheWideEncoding := by
  intro s hb hg
  rw [← encodeBytes_wide]
  exact exec_encInstr_good .wide hb hg

/-- Settles O33: the wide bytes written out, by the issue step and the answers of a Write. -/
theorem wrWSendsTheWideEncoding : Obligations.WrWSendsTheWideEncoding := by
  intro s hb
  rw [← encodeBytes_wide]
  exact ⟨exec_wrInstr_issues .wide hb, writeAnswered_writeOutcome .wide _ _⟩

/-- Settles O36: by what a Read does after a tag byte that declares the length. -/
theorem rdWTakesOneWideEncoding : Obligations.RdWTakesOneWideEncoding := by
  intro s hb
  have hf := familyOf_readCode .wide
  refine ⟨exec_rdInstr .wide hb, firstFailures_of_rdTag rfl hf rfl,
    fun hend b0 => ⟨fun hr => ?_, fun hr => ?_⟩⟩
  · exact onReadAnswer_tagByte_whole (s := readIssued 0b1110 s) rfl hf rfl hend ((remainingOf_wide b0).trans hr)
  · exact continued_of_remainingOf (s := readIssued 0b1110 s) rfl hf rfl hend (remainingOf_wide b0) hr

/-- Settles O30, by the length of the buffer against the length byte 0 declares. -/
theorem decWRecoversTheWideValue : Obligations.DecWRecoversTheWideValue := by
  intro s hb hg
  dsimp only [Nat.add_zero]
  have hrem := remainingOf_wide (s.mem.byteAt s.base)
  have hL := Nat.sub_add_cancel (Nat.two_pow_pos ((s.mem.byteAt s.base).extractLsb' 6 2).toNat)
  by_cases hempty : s.len = 0
  · rw [if_pos hempty]
    exact exec_decInstr_of_empty .wide hb hg hempty
  · rw [if_neg hempty]
    by_cases hshort : s.len < 2 ^ ((s.mem.byteAt s.base).extractLsb' 6 2).toNat
    · rw [if_pos hshort]
      exact exec_decInstr_of_truncated .wide hb hg hempty (by rwa [lengthOf_wide])
    · have hwhole := exec_decInstr_of_whole .wide hb hg hrem (hL.le.trans (Nat.not_lt.mp hshort))
      rw [hL] at hwhole
      rw [if_neg hshort, ← concatBytes_readBytes_wide _ _ _ (BitVec.isLt _)]
      exact hwhole

end Sys2Proof.Machine

/-! ## The phase table

R130: what each event does to PH, and that no step moves PH along a pair which is no row. -/

namespace Sys2Proof.Machine

open Sys2Proof.Claims

/-! ### The rows and BUSY -/

/-- R130: a row of the table takes PH from `p` to another phase `q`; the rows into IDLE hold for reset too (R200). -/
def phaseRow (p q : Phase) : Prop :=
  (p = .idle ∧ q = .rdTag) ∨ (p = .idle ∧ q = .wrData) ∨
  (p = .rdTag ∧ q = .rdCont) ∨ (p = .rdTag ∧ q = .idle) ∨
  (p = .rdCont ∧ q = .idle) ∨ (p = .wrData ∧ q = .idle)

/-- From every phase but IDLE a row leads to IDLE. -/
theorem idle_eq_or_phaseRow (p : Phase) : .idle = p ∨ phaseRow p .idle := by
  cases p <;> simp [phaseRow]

theorem State.hostRead_status (s : State) : s.hostRead .status = if s.ph = .idle then 0 else 1 := by
  cases h : s.ph <;> simp [State.hostRead, State.status, State.busy, h]

/-! ### Commands -/

theorem encodeBuffer_ph {f : Family} {s t : State} (h : encodeBuffer f s = .next t) : t.ph = .idle :=
  congrArg State.ph (encodeBuffer_frame h)

theorem decodeBuffer_ph {f : Family} {s t : State} (h : decodeBuffer f s = .next t) : t.ph = .idle :=
  congrArg State.ph (decodeBuffer_frame h)

theorem startWrite_ph {f : Family} {s t : State} (h : startWrite f s = .next t) : t.ph = .idle ∨ t.ph = .wrData := by
  obtain ⟨-, rfl⟩ | ⟨_, -, rfl⟩ := startWrite_next h
  · exact .inl rfl
  · exact .inr rfl

/-- R136: the issue step of a Write waits for the output stream exactly when the value has a class. -/
theorem exec_wrInstr_ph (f : Family) {s : State} (hb : s.busy = false) :
    ∃ t, exec (wrInstr f) s = .next t ∧
      ((classOf f s.val.toNat = none ∧ t.ph = .idle) ∨ (classOf f s.val.toNat ≠ none ∧ t.ph = .wrData)) := by
  refine ⟨_, exec_wrInstr_issues f hb, ?_⟩
  cases hc : classOf f s.val.toNat with
  | none => simp [encodeBytes, hc, writeOutcome]
  | some t => simp [encodeBytes, hc, writeOutcome]

/-! ### Answers of the streams -/

/-- R132: PH after an answer to the first request. -/
def phaseAfterTag (f : Family) : ReadAnswer → Phase
  | .full (b0 :: _) => if remainingOf f b0 = 0 then .idle else .rdCont
  | .full [] | .short _ _ => .idle

theorem phaseAfterTag_eq_or (f : Family) (a : ReadAnswer) : phaseAfterTag f a = .idle ∨ phaseAfterTag f a = .rdCont := by
  unfold phaseAfterTag
  split
  · exact ite_eq_or_eq _ _ _
  · exact .inl rfl
  · exact .inl rfl

theorem firstAnswer_ph {f : Family} {a : ReadAnswer} {s t : State} (h : firstAnswer f a s = .next t) :
    t.ph = phaseAfterTag f a := by
  obtain ⟨_, rfl, rfl⟩ | ⟨_, _, rfl, rfl⟩ | ⟨b0, _, rfl, ⟨hr, rfl⟩ | ⟨hr, rfl⟩⟩ := firstAnswer_next h
  · rfl
  · rfl
  · exact (if_pos hr).symm
  · exact (if_neg hr).symm

theorem secondAnswer_ph {f : Family} {a : ReadAnswer} {s t : State} (h : secondAnswer f a s = .next t) :
    t.ph = .idle := by
  obtain ⟨_, -, rfl⟩ | ⟨_, _, -, rfl⟩ | ⟨_, -, rfl⟩ := secondAnswer_next h <;> rfl

theorem onReadAnswer_ph {a : ReadAnswer} {s t : State} (h : onReadAnswer a s = .next t) :
    ∃ f, familyOf s.cmd = some f ∧
      ((s.ph = .rdTag ∧ t.ph = phaseAfterTag f a) ∨ (s.ph = .rdCont ∧ t.ph = .idle)) := by
  obtain ⟨f, hf, -, hcase⟩ := onReadAnswer_next h
  exact ⟨f, hf, hcase.imp (.imp_right firstAnswer_ph) (.imp_right secondAnswer_ph)⟩

theorem onReadAnswer_rdTag_ph {a : ReadAnswer} {s t : State} {f : Family} (hf : familyOf s.cmd = some f)
    (hph : s.ph = .rdTag) (h : onReadAnswer a s = .next t) : t.ph = phaseAfterTag f a := by
  obtain ⟨g, hg, ⟨-, ht⟩ | ⟨hcont, -⟩⟩ := onReadAnswer_ph h
  · obtain rfl : f = g := Option.some.inj (hf.symm.trans hg)
    exact ht
  · simp [hph] at hcont

theorem onReadAnswer_rdCont_ph {a : ReadAnswer} {s t : State} (hph : s.ph = .rdCont) (h : onReadAnswer a s = .next t) :
    t.ph = .idle := by
  obtain ⟨f, -, ⟨htag, -⟩ | ⟨-, ht⟩⟩ := onReadAnswer_ph h
  · simp [hph] at htag
  · exact ht

theorem onWriteAnswer_ph {a : WriteAnswer} {s t : State} (h : onWriteAnswer a s = .next t) :
    s.ph = .wrData ∧ t.ph = .idle :=
  ⟨(onWriteAnswer_next h).1, congrArg State.ph (onWriteAnswer_frame h)⟩

/-! ### Every step moves along a row -/

/-- An answer of the input stream always moves PH. -/
theorem onReadAnswer_phaseRow {a : ReadAnswer} {s t : State} (h : onReadAnswer a s = .next t) :
    phaseRow s.ph t.ph := by
  obtain ⟨f, -, ⟨hs, ht⟩ | ⟨hs, ht⟩⟩ := onReadAnswer_ph h
  · obtain hnext | hnext := phaseAfterTag_eq_or f a <;> simp [phaseRow, hs, ht, hnext]
  · simp [phaseRow, hs, ht]

theorem onWriteAnswer_phaseRow {a : WriteAnswer} {s t : State} (h : onWriteAnswer a s = .next t) :
    phaseRow s.ph t.ph := by
  obtain ⟨hs, ht⟩ := onWriteAnswer_ph h
  simp [phaseRow, hs, ht]

/-- A Read that a connected source serves whole is over when it returns: its second answer, if any, finds RD_CONT. -/
theorem readFrom_ph {f : Family} {bs : List Byte} {s t : State} (h : readFrom f bs s = .next t) : t.ph = s.ph := by
  obtain ⟨-, rfl⟩ | ⟨hb, u, hu, ⟨hidle, rfl⟩ | ⟨hub, h⟩⟩ := readFrom_next h
  · rfl
  · rw [s.not_busy_iff.mp hb, t.not_busy_iff.mp hidle]
  · have hu := onReadAnswer_rdTag_ph (familyOf_readCode f) rfl hu
    rw [s.not_busy_iff.mp hb]
    obtain hdone | hcont := phaseAfterTag_eq_or f (serve bs 1)
    · exact absurd (hu.trans hdone) (u.busy_iff.mp hub)
    · exact onReadAnswer_rdCont_ph (hu.trans hcont) h

theorem exec_ph {i : Instr} {s t : State} (h : exec i s = .next t) : t.ph = s.ph ∨ phaseRow s.ph t.ph := by
  cases hb : s.busy with
  | true =>
    rw [exec_busy i s hb] at h
    cases h
    exact .inl rfl
  | false =>
    rcases exec_shape i with ⟨f, -, e⟩ | ⟨f, -, e⟩ | ⟨f, -, e⟩ | ⟨f, -, e⟩ | ⟨-, w, -, e⟩ | ⟨f, tag, v, -, e⟩ <;>
      rw [e] at h
    case inr.inr.inr.inr.inr => exact .inl (readFrom_ph h)
    all_goals
      rw [s.not_busy_iff.mp hb]
      replace h := startCommand_idle_next hb h
    · exact .inl (encodeBuffer_ph h)
    · exact .inl (decodeBuffer_ph h)
    · exact (startWrite_ph h).imp_right fun hph => .inr (.inl ⟨rfl, hph⟩)
    · cases h
      exact .inr (.inl ⟨rfl, rfl⟩)
    · cases h
      exact .inl rfl

theorem issue_ph {d : Directive} {s t : State} (h : issue d s = .next t) : t.ph = s.ph := by
  rw [(issue_next h).1]

/-- R130: no step moves PH in a way that is no row of the table. -/
theorem step_ph {s t : State} (h : step s = .next t) : t.ph = s.ph ∨ phaseRow s.ph t.ph := by
  obtain ⟨ts, -, hcase⟩ := step_next h
  rcases hcase with ⟨n, bs, -, rfl⟩ | ⟨a, rest, -, h⟩ | ⟨a, rest, -, h⟩ | ⟨op, rest, i, -, -, h⟩ | ⟨w, rest, -, rfl⟩ |
    ⟨f, bs, rest, -, h⟩ | ⟨-, -, -, rfl⟩ | ⟨-, -, -, rfl⟩ | ⟨-, -, x, -, h⟩
  · exact idle_eq_or_phaseRow s.ph
  · exact .inr (onReadAnswer_phaseRow (s := { s with turns := ts, inTape := rest }) h)
  · exact .inr (onWriteAnswer_phaseRow (s := { s with turns := ts, outTape := rest }) h)
  · exact exec_ph (s := { s with turns := ts, pend := rest }) h
  · exact .inl (State.hostWrite_host _ w).2.1
  · exact .inl (readFrom_ph (s := { s with turns := ts, pend := rest }) h)
  · exact .inl rfl
  · exact .inl rfl
  · exact .inl (issue_ph (s := { s with turns := ts }) h)

/-- Settles O7: the rows by what each command and each answer leaves in PH, and the last clause by the cases of a step. -/
theorem phaseChangesAreThoseOfTheTable : Obligations.PhaseChangesAreThoseOfTheTable := by
  refine ⟨fun f s hs => ⟨?_, ?_, ?_⟩, State.hostRead_status, fun s hs i hi => ?_, fun s t a f hf h => ⟨?_, ?_, ?_⟩,
    fun s t a h => onWriteAnswer_ph h, State.hostWrite_busy, fun s w hb => exec_busy _ s hb,
    fun s t h hne => (step_ph h).resolve_left hne⟩
  · rintro i (rfl | rfl) t h
    · rw [exec_encInstr f (s.not_busy_iff.mpr hs)] at h
      exact encodeBuffer_ph h
    · rw [exec_decInstr f (s.not_busy_iff.mpr hs)] at h
      exact decodeBuffer_ph h
  · exact ⟨_, exec_rdInstr f (s.not_busy_iff.mpr hs), rfl, rfl⟩
  · obtain ⟨t, ht, ⟨hc, hph⟩ | ⟨hc, hph⟩⟩ := exec_wrInstr_ph f (s.not_busy_iff.mpr hs)
    · exact ⟨t, ht, .inl ⟨hc, hph, by rw [State.hostRead_status, if_pos hph]⟩⟩
    · exact ⟨t, ht, .inr ⟨hc, hph, by rw [State.hostRead_status, hph]; rfl⟩⟩
  · obtain ⟨h3, h7, hB, hF⟩ := exec_reserved (s.not_busy_iff.mpr hs)
    obtain rfl | rfl | rfl | rfl := hi
    · exact ⟨_, h3, rfl⟩
    · exact ⟨_, h7, rfl⟩
    · exact ⟨_, hB, rfl⟩
    · exact ⟨_, hF, rfl⟩
  · rintro hph b0 bs rfl
    have ht := onReadAnswer_rdTag_ph hf hph h
    exact ⟨fun hr => ht.trans (if_pos hr), fun hr => ht.trans (if_neg hr)⟩
  · rintro hph bs why rfl
    exact onReadAnswer_rdTag_ph hf hph h
  · exact fun hph => onReadAnswer_rdCont_ph hph h

end Sys2Proof.Machine

/-! ## The laws of the encoding

R150, R151, R158 to R162, as functions: the minimal encoding of a value, and what decoding finds at the front of any
bytes. -/

namespace Sys2Proof.Machine

open Sys2Proof.Claims

/-! ### The encoding of a value is the packing of its class -/

theorem encodeBytes_eq_some_iff (f : Family) (v : Nat) (bs : List Byte) :
    encodeBytes f v = some bs ↔ ∃ t, classOf f v = some t ∧ pack f t v = bs := by
  rw [encodeBytes]
  cases classOf f v <;> simp

theorem minlen_eq_some_iff (f : Family) (v L : Nat) :
    minlen f v = some L ↔ ∃ t, classOf f v = some t ∧ LEN f t = L := by
  rw [minlen]
  cases classOf f v <;> simp

theorem encodeBytes_eq_none {f : Family} {v : Nat} (h : BOUND f ≤ v) : encodeBytes f v = none := by
  rw [encodeBytes, (classOf_eq_none_iff f v).mpr h]

/-- The encoding has the minimal length. -/
theorem minlen_of_encodeBytes {f : Family} {v : Nat} {bs : List Byte} (h : encodeBytes f v = some bs) :
    minlen f v = some bs.length := by
  obtain ⟨t, hc, rfl⟩ := (encodeBytes_eq_some_iff f v bs).mp h
  exact (minlen_eq_some_iff f v _).mpr ⟨t, hc, (length_pack f t v).symm⟩

/-- A value with a minimal length has an encoding, of that length. -/
theorem encodeBytes_of_minlen {f : Family} {v L : Nat} (h : minlen f v = some L) :
    ∃ bs, encodeBytes f v = some bs ∧ bs.length = L := by
  obtain ⟨t, hc, hL⟩ := (minlen_eq_some_iff f v L).mp h
  exact ⟨pack f t v, (encodeBytes_eq_some_iff f v _).mpr ⟨t, hc, rfl⟩, (length_pack f t v).trans hL⟩

theorem classOf_of_lt {f : Family} {v : Nat} (h : v < BOUND f) : ∃ t, classOf f v = some t := by
  cases hc : classOf f v with
  | none => exact absurd ((classOf_eq_none_iff f v).mp hc) (Nat.not_le.mpr h)
  | some t => exact ⟨t, rfl⟩

theorem encodeBytes_of_lt {f : Family} {v : Nat} (h : v < BOUND f) : ∃ bs, encodeBytes f v = some bs := by
  obtain ⟨t, hc⟩ := classOf_of_lt h
  exact ⟨_, (encodeBytes_eq_some_iff f v _).mpr ⟨t, hc, rfl⟩⟩

/-- The class of a value is at most any tag that holds it. -/
theorem class_le {f : Family} {v t u : Nat} (hc : classOf f v = some t) (hu : v < 2 ^ PBITS f u) : t ≤ u := by
  obtain ⟨-, -, hleast⟩ := (classOf_eq_some_iff f v t).mp hc
  exact Nat.not_lt.mp fun hlt => Nat.not_le.mpr hu (hleast u hlt)

/-! ### The thresholds (R83, R86) -/

theorem LEN_strictMono (f : Family) {t u : Nat} (h : t < u) : LEN f t < LEN f u := by
  have hpow : 2 ^ t < 2 ^ u := Nat.pow_lt_pow_right (by decide) h
  cases f with
  | narrow => exact hpow
  | medium => exact Nat.succ_lt_succ h
  | wide => exact hpow

theorem two_pow_PBITS_lt (f : Family) {t u : Nat} (h : t < u) : 2 ^ PBITS f t < 2 ^ PBITS f u := by
  have hlen := LEN_strictMono f h
  have ht := PBITS_add_K f t
  have hu := PBITS_add_K f u
  exact Nat.pow_lt_pow_right (by decide) (by omega)

/-- The largest value of a tag's payload range is in its class. -/
theorem classOf_top (f : Family) {t : Nat} (ht : t < 2 ^ K f) : classOf f (2 ^ PBITS f t - 1) = some t := by
  refine (classOf_eq_some_iff f _ t).mpr ⟨ht, Nat.sub_one_lt (Nat.two_pow_pos _).ne', fun u hu => ?_⟩
  exact Nat.le_sub_one_of_lt (two_pow_PBITS_lt f hu)

/-- The first value past a tag's payload range is in the next class, or in none after the largest tag. -/
theorem classOf_threshold (f : Family) {t : Nat} (ht : t < 2 ^ K f) :
    classOf f (2 ^ PBITS f t) = if t + 1 < 2 ^ K f then some (t + 1) else none := by
  split
  · rename_i hnext
    refine (classOf_eq_some_iff f _ _).mpr ⟨hnext, two_pow_PBITS_lt f (Nat.lt_succ_self t), fun u hu => ?_⟩
    exact Nat.pow_le_pow_right (by decide) (PBITS_mono f (Nat.le_of_lt_succ hu))
  · rename_i hlast
    have htop : t = tmax f := by
      unfold tmax
      omega
    rw [classOf_eq_none_iff, htop, BOUND]

/-! ### What decoding finds at the front of the bytes -/

/-- Bytes begin with a whole encoding when their first byte declares no more than there are. -/
def holdsItem (f : Family) (bs : List Byte) : Prop := ∃ b0 tl, bs = b0 :: tl ∧ lengthOf f b0 ≤ bs.length

theorem decode_data_ok_iff (f : Family) (bs : List Byte) :
    (∃ i rest, decode (.data f) bs = .ok (i, rest)) ↔ holdsItem f bs := by
  cases bs with
  | nil => simp [decode, holdsItem]
  | cons b0 bs => by_cases h : bs.length + 1 < lengthOf f b0 <;> simp [decode, holdsItem, h, Nat.not_lt.mp]

theorem decodeBytes_value_iff_holdsItem (f : Family) (bs : List Byte) :
    (∃ v L, decodeBytes f bs = .value v L) ↔ holdsItem f bs := by
  cases bs with
  | nil => simp [decodeBytes, holdsItem]
  | cons b0 bs => by_cases h : bs.length + 1 < lengthOf f b0 <;> simp [decodeBytes, holdsItem, h, Nat.not_lt.mp]

/-- Settles O19: each decoder takes what begins with a whole encoding. -/
theorem dataIsRefusedOnlyWhenBytesAreMissing : Obligations.DataIsRefusedOnlyWhenBytesAreMissing := fun f bs =>
  ⟨decode_data_ok_iff f bs, decodeBytes_value_iff_holdsItem f bs⟩

/-- A whole encoding decodes to its value, whatever follows it. -/
theorem decodeBytes_append {f : Family} {b0 : Byte} {tl : List Byte} (h : (b0 :: tl).length = lengthOf f b0)
    (rest : List Byte) :
    decodeBytes f (b0 :: tl ++ rest) = .value (unpack f (b0 :: tl)) (b0 :: tl).length := by
  have hlong : ¬ (tl ++ rest).length + 1 < lengthOf f b0 := by
    rw [← h, List.length_append, List.length_cons]
    omega
  rw [List.cons_append, decodeBytes, if_neg hlong, ← h, ← List.cons_append, List.take_left' rfl]

/-- A packed value has as many bytes as its first one declares. -/
theorem length_of_pack_eq_cons {f : Family} {t v : Nat} (ht : t < 2 ^ K f) (hv : v < 2 ^ PBITS f t) {b0 : Byte}
    {tl : List Byte} (h : pack f t v = b0 :: tl) : (b0 :: tl).length = lengthOf f b0 := by
  rw [← h, length_pack, lengthOf, tagOf_pack ht hv h]

/-- R91: what decodes to a value begins with the packing of that value with some tag of the family. -/
theorem decodeBytes_eq_value_iff (f : Family) (bs : List Byte) (v L : Nat) :
    decodeBytes f bs = .value v L ↔
      ∃ t rest, t < 2 ^ K f ∧ v < 2 ^ PBITS f t ∧ LEN f t = L ∧ bs = pack f t v ++ rest := by
  constructor
  · intro h
    obtain ⟨i, rest, hdec⟩ := (decode_data_ok_iff f bs).mpr ((decodeBytes_value_iff_holdsItem f bs).mp ⟨v, L, h⟩)
    obtain ⟨b0, tl, hlen, rfl, -⟩ := decode_data_ok hdec
    rw [decodeBytes_append hlen] at h
    obtain ⟨rfl, rfl⟩ := DecodeResult.value.inj h
    exact ⟨tagOf f b0, rest, tagOf_lt f b0, unpack_lt_PBITS hlen, hlen.symm, by rw [pack_tagOf_unpack hlen]⟩
  · rintro ⟨t, rest, ht, hv, rfl, rfl⟩
    obtain ⟨b0, tl, hpack⟩ := pack_eq_cons f t v
    rw [hpack, decodeBytes_append (length_of_pack_eq_cons ht hv hpack), ← hpack, unpack_pack ht hv, length_pack]

/-- R150: the encoding of a value decodes to it, whatever follows it. -/
theorem decodeBytes_encodeBytes_append {f : Family} {v : Nat} {bs : List Byte} (h : encodeBytes f v = some bs)
    (rest : List Byte) : decodeBytes f (bs ++ rest) = .value v bs.length := by
  obtain ⟨t, hc, rfl⟩ := (encodeBytes_eq_some_iff f v bs).mp h
  obtain ⟨ht, hv, -⟩ := (classOf_eq_some_iff f v t).mp hc
  exact (decodeBytes_eq_value_iff f _ v _).mpr ⟨t, rest, ht, hv, (length_pack f t v).symm, rfl⟩

/-- Settles O56: the decoded bytes are the packing of the value with some tag, the encoding that with its class, and the
two are the same exactly when their lengths are. -/
theorem reencodingIsTheIdentityOnCanonicalInput : Obligations.ReencodingIsTheIdentityOnCanonicalInput := by
  intro f bs v L h
  obtain ⟨t, rest, ht, hv, rfl, rfl⟩ := (decodeBytes_eq_value_iff f bs v L).mp h
  obtain ⟨c, hc⟩ := classOf_of_lt (hv.trans_le (two_pow_PBITS_le_BOUND f ht))
  have henc : encodeBytes f v = some (pack f c v) := (encodeBytes_eq_some_iff f v _).mpr ⟨c, hc, rfl⟩
  have hmin : minlen f v = some (LEN f c) := (minlen_eq_some_iff f v _).mpr ⟨c, hc, rfl⟩
  rw [List.take_left' (length_pack f t v), henc, hmin]
  obtain rfl | hlt := (class_le hc hv).eq_or_lt
  · simp
  · have hshort := LEN_strictMono f hlt
    refine ⟨⟨fun heq => ?_, fun heq => ?_⟩, fun _ => ⟨_, rfl, by rwa [length_pack]⟩⟩
    · have hlen := congrArg List.length (Option.some.inj heq)
      rw [length_pack, length_pack] at hlen
      exact congrArg some hlen
    · exact absurd (Option.some.inj heq) hshort.ne

/-- Two packings at the front of the same bytes are one: their first byte is the same, so their tag, their length and
their value are. -/
theorem pack_append_inj {f : Family} {t t' u v : Nat} {x y : List Byte} (ht : t < 2 ^ K f) (ht' : t' < 2 ^ K f)
    (hu : u < 2 ^ PBITS f t) (hv : v < 2 ^ PBITS f t') (h : pack f t u ++ x = pack f t' v ++ y) :
    pack f t u = pack f t' v ∧ x = y ∧ u = v := by
  obtain ⟨b0, tl, hp⟩ := pack_eq_cons f t u
  obtain ⟨b0', tl', hp'⟩ := pack_eq_cons f t' v
  have hfirst : b0 = b0' := by
    rw [hp, hp'] at h
    exact (List.cons.inj h).1
  obtain rfl : t = t' := by rw [← tagOf_pack ht hu hp, ← tagOf_pack ht' hv hp', hfirst]
  obtain ⟨hpack, hrest⟩ := List.append_inj h (by rw [length_pack, length_pack])
  exact ⟨hpack, hrest, by rw [← unpack_pack ht hu, hpack, unpack_pack ht hv]⟩

/-- A whole encoding is a packing, with nothing after it. -/
theorem eq_pack_of_decodeBytes {f : Family} {bs : List Byte} {v : Nat} (h : decodeBytes f bs = .value v bs.length) :
    ∃ t, t < 2 ^ K f ∧ v < 2 ^ PBITS f t ∧ bs = pack f t v := by
  obtain ⟨t, rest, ht, hv, hlen, hbs⟩ := (decodeBytes_eq_value_iff f bs v _).mp h
  have hrest : rest = [] := by
    have hsum := congrArg List.length hbs
    rw [List.length_append, length_pack, hlen] at hsum
    exact List.eq_nil_of_length_eq_zero (by omega)
  rw [hrest, List.append_nil] at hbs
  exact ⟨t, ht, hv, hbs⟩

/-- Settles O57: two packings at the front of the same bytes are one. -/
theorem encodingsAreSelfDelimiting : Obligations.EncodingsAreSelfDelimiting := by
  intro f a b x y u v ha hb h
  obtain ⟨t, ht, hu, rfl⟩ := eq_pack_of_decodeBytes ha
  obtain ⟨t', ht', hv, rfl⟩ := eq_pack_of_decodeBytes hb
  exact pack_append_inj ht ht' hu hv h

/-! ### Order (R161) -/

/-- Byte strings of one length order lexicographically as the words they join to. -/
theorem lex_of_joinBE_lt {a b : List Byte} (hlen : a.length = b.length) (h : joinBE a < joinBE b) :
    List.Lex (fun x y : Byte => x.toNat < y.toNat) a b := by
  induction a generalizing b with
  | nil =>
    obtain rfl := List.eq_nil_of_length_eq_zero hlen.symm
    exact absurd h (Nat.lt_irrefl _)
  | cons x a ih =>
    cases b with
    | nil => cases hlen
    | cons y b =>
      have hlen' : a.length = b.length := Nat.succ.inj hlen
      rw [joinBE_cons, joinBE_cons, hlen'] at h
      obtain hxy | hxy | hxy := Nat.lt_trichotomy x.toNat y.toNat
      · exact .rel hxy
      · obtain rfl := BitVec.eq_of_toNat_eq hxy
        exact .cons (ih hlen' (Nat.lt_of_add_lt_add_left h))
      · have htail := joinBE_lt a
        have hhead := Nat.mul_le_mul_right (2 ^ (8 * b.length)) (Nat.succ_le_of_lt hxy)
        rw [hlen'] at htail
        rw [Nat.succ_mul] at hhead
        have hb := joinBE_lt b
        omega

/-- A byte with the smaller tag is the smaller byte. -/
theorem toNat_lt_of_tagOf_lt {f : Family} {a b : Byte} (h : tagOf f a < tagOf f b) : a.toNat < b.toNat := by
  refine Nat.not_le.mp fun hle => Nat.not_le.mpr h ?_
  rw [tagOf, tagOf, Nat.shiftRight_eq_div_pow, Nat.shiftRight_eq_div_pow]
  exact Nat.div_le_div_right hle

/-- The packing with the smaller tag, and with one tag that of the smaller value, is the smaller byte string. -/
theorem lex_pack {f : Family} {t t' u v : Nat} (ht : t < 2 ^ K f) (ht' : t' < 2 ^ K f) (hu : u < 2 ^ PBITS f t)
    (hv : v < 2 ^ PBITS f t') (h : t < t' ∨ t = t' ∧ u < v) :
    List.Lex (fun x y : Byte => x.toNat < y.toNat) (pack f t u) (pack f t' v) := by
  obtain hlt | ⟨rfl, huv⟩ := h
  · obtain ⟨b0, tl, hp⟩ := pack_eq_cons f t u
    obtain ⟨b0', tl', hp'⟩ := pack_eq_cons f t' v
    rw [← tagOf_pack ht hu hp, ← tagOf_pack ht' hv hp'] at hlt
    rw [hp, hp']
    exact .rel (toNat_lt_of_tagOf_lt hlt)
  · refine lex_of_joinBE_lt (by rw [length_pack, length_pack]) ?_
    rw [joinBE_pack ht hu, joinBE_pack ht hv]
    exact Nat.add_lt_add_left huv _

/-- Settles O58: the class of the smaller value is at most that of the larger one, and the packings order by class, then
by value. -/
theorem encodingsOrderAsTheirValues : Obligations.EncodingsOrderAsTheirValues := by
  intro f u v huv hv
  obtain ⟨t, hc⟩ := classOf_of_lt (huv.trans hv)
  obtain ⟨t', hc'⟩ := classOf_of_lt hv
  obtain ⟨ht, hut, -⟩ := (classOf_eq_some_iff f u t).mp hc
  obtain ⟨ht', hvt', -⟩ := (classOf_eq_some_iff f v t').mp hc'
  have hle : t ≤ t' := class_le hc (huv.trans hvt')
  refine ⟨pack f t u, pack f t' v, (encodeBytes_eq_some_iff f u _).mpr ⟨t, hc, rfl⟩,
    (encodeBytes_eq_some_iff f v _).mpr ⟨t', hc', rfl⟩, ?_, ?_⟩
  · rw [length_pack, length_pack]
    exact LEN_mono f hle
  · exact lex_pack ht ht' hut hvt' (hle.lt_or_eq.imp_right fun heq => ⟨heq, huv⟩)

/-! ### Where the families agree (R162) -/

/-- A tag of length 1 in the family's first class puts the value itself into one byte. -/
theorem encodeBytes_of_first_class {f : Family} {v : Nat} (h : v < 2 ^ PBITS f 0) :
    encodeBytes f v = some [BitVec.ofNat 8 v] := by
  have hc : classOf f v = some 0 :=
    (classOf_eq_some_iff f v 0).mpr ⟨Nat.two_pow_pos _, h, fun u hu => absurd hu (Nat.not_lt_zero u)⟩
  have hone : LEN f 0 = 1 := by cases f <;> rfl
  refine (encodeBytes_eq_some_iff f v _).mpr ⟨0, hc, ?_⟩
  rw [pack, hone, Nat.zero_shiftLeft, Nat.zero_or]
  rfl

/-- The medium and the wide format of the tags 0 and 1 are the same. -/
theorem LEN_medium_eq_wide {t : Nat} (h : t < 2) : LEN .medium t = LEN .wide t := by
  interval_cases t <;> rfl

theorem encodeBytes_medium_eq_wide {v : Nat} (h : v < 2 ^ 14) : encodeBytes .medium v = encodeBytes .wide v := by
  obtain ⟨-, hmedium, hwide⟩ := classSelectionIsTheThresholdChain v
  have htwo : v < 0x4000 := h
  rw [if_pos htwo] at hmedium hwide
  rw [encodeBytes, encodeBytes, hmedium, hwide]
  split_ifs <;> rfl

theorem decodeBytes_medium_eq_wide {b0 : Byte} (h : b0.toNat < 0x80) (bs : List Byte) :
    decodeBytes .medium (b0 :: bs) = decodeBytes .wide (b0 :: bs) := by
  have htag : tagOf .medium b0 < 2 := by
    rw [tagOf, K, Nat.shiftRight_eq_div_pow]
    omega
  have hlen : lengthOf .medium b0 = lengthOf .wide b0 := LEN_medium_eq_wide htag
  rw [decodeBytes, decodeBytes, hlen]
  rfl

/-- Settles O59: the formats the families share, class by class. -/
theorem familiesAgreeWhereFormatsAgree : Obligations.FamiliesAgreeWhereFormatsAgree := by
  refine ⟨fun v => encodeBytes_medium_eq_wide, fun b0 bs h => decodeBytes_medium_eq_wide h bs, fun v hv => ?_,
    by decide, by decide⟩
  have hn : encodeBytes .narrow v = some [BitVec.ofNat 8 v] :=
    encodeBytes_of_first_class (hv.trans_le (Nat.pow_le_pow_right (by decide) (by decide)))
  have hm : encodeBytes .medium v = some [BitVec.ofNat 8 v] := encodeBytes_of_first_class hv
  have hw : encodeBytes .wide v = some [BitVec.ofNat 8 v] := encodeBytes_of_first_class hv
  exact ⟨hn.trans hm.symm, hm.trans hw.symm, hn⟩

end Sys2Proof.Machine

/-! ## The laws in registers

R150 to R157, R163: what the functional laws say of Encode, Decode, Write and Read. -/

namespace Sys2Proof.Machine

open Sys2Proof.Claims

/-! ### Decode as a function of its buffer's bytes -/

theorem Memory.readBytes_add (m : Memory) (a n k : Nat) :
    m.readBytes a (n + k) = m.readBytes a n ++ m.readBytes (a + n) k := by
  simp [Memory.readBytes, List.range_add, Nat.add_assoc]

theorem Memory.take_readBytes (m : Memory) (a : Nat) {n k : Nat} (h : n ≤ k) :
    (m.readBytes a k).take n = m.readBytes a n := by
  obtain ⟨r, rfl⟩ := Nat.exists_eq_add_of_le h
  rw [Memory.readBytes_add, List.take_left' (Memory.length_readBytes m a n)]

/-- R91: what a buffer of `n` bytes decodes to, by its length against the length its first byte declares. -/
theorem decodeBytes_readBytes (f : Family) (m : Memory) (a n : Nat) :
    decodeBytes f (m.readBytes a n) =
      if n = 0 then .empty
      else if n < lengthOf f (m.byteAt a) then .truncated (lengthOf f (m.byteAt a))
      else .value (unpack f (m.readBytes a (lengthOf f (m.byteAt a)))) (lengthOf f (m.byteAt a)) := by
  cases n with
  | zero => rfl
  | succ n =>
    rw [if_neg (Nat.succ_ne_zero n), Memory.readBytes_succ, decodeBytes, Memory.length_readBytes,
      ← Memory.readBytes_succ]
    split
    · rfl
    · rename_i hlong
      rw [Memory.take_readBytes _ _ (Nat.not_lt.mp hlong)]

/-- R91: what Decode does once it knows what its bytes decode to. -/
def decodeOutcome (r : DecodeResult) (s : State) : State :=
  match r with
  | .empty => s.raise .bufferEmpty 0
  | .truncated _ => (s.note (memReadOps s.base 1)).raise .invalidEncoding 0
  | .value v L => (s.note (memReadOps s.base L)).complete v L

/-- R91: Decode on a buffer that keeps the host's duty. -/
theorem decodeBuffer_eq_decodeOutcome (f : Family) {s : State} (h : s.badBuffer = none) :
    decodeBuffer f s = .next (decodeOutcome (decodeBytes f (s.mem.readBytes s.base s.len)) s) := by
  rw [decodeBuffer_good f h, decodeBytes_readBytes]
  dsimp only
  split_ifs <;> rfl

theorem exec_decInstr_good (f : Family) {s : State} (hb : s.busy = false) (hg : goodBuffer s) :
    exec (decInstr f) s =
      .next (decodeOutcome (decodeBytes f (s.mem.readBytes s.base s.len)) { s with cmd := decodeCode f }) := by
  rw [exec_decInstr f hb, decodeBuffer_eq_decodeOutcome f (badBuffer_of_goodBuffer hg _)]

/-- R91: Decode of a buffer that begins with a whole encoding. -/
theorem exec_decInstr_of_value {f : Family} {s : State} (hb : s.busy = false) (hg : goodBuffer s) {v L : Nat}
    (hdec : decodeBytes f (s.mem.readBytes s.base s.len) = .value v L) :
    exec (decInstr f) s = .next (({ s with cmd := decodeCode f }.note (memReadOps s.base L)).complete v L) := by
  rw [exec_decInstr_good f hb hg, hdec]
  rfl

/-! ### Encode, then Decode (R150) -/

/-- Encode of an encodable value into a buffer that is long enough. -/
theorem exec_encInstr_fits {f : Family} {s : State} {bs : List Byte} (hb : s.busy = false) (hg : goodBuffer s)
    (henc : encodeBytes f s.val.toNat = some bs) (hfit : bs.length ≤ s.len) :
    exec (encInstr f) s = .next (({ s with cmd := encodeCode f }.memWrite s.base bs).complete 0 bs.length) := by
  rw [exec_encInstr_good f hb hg, henc]
  exact congrArg Host.Outcome.next (if_neg (Nat.not_lt.mpr hfit))

/-- The bytes of a buffer that begins with those just written. -/
theorem Memory.readBytes_writeBytes_append (m : Memory) (a : Nat) (bs : List Byte) {n : Nat} (h : bs.length ≤ n) :
    ∃ rest, (m.writeBytes a bs).readBytes a n = bs ++ rest := by
  obtain ⟨k, rfl⟩ := Nat.exists_eq_add_of_le h
  exact ⟨_, by rw [Memory.readBytes_add, Memory.readBytes_writeBytes]⟩

/-- Settles O50: the encoding decodes to its value whatever follows it, and it is what Decode finds at BASE. -/
theorem encodeThenDecodeGivesTheValue : Obligations.EncodeThenDecodeGivesTheValue := by
  refine fun f => ⟨fun v hv => ?_, fun s L hb hg _ hmin hfit => ?_⟩
  · obtain ⟨bs, henc⟩ := encodeBytes_of_lt hv
    have hdec := decodeBytes_encodeBytes_append henc []
    rw [List.append_nil] at hdec
    exact ⟨bs, henc, minlen_of_encodeBytes henc, hdec⟩
  · obtain ⟨bs, henc, rfl⟩ := encodeBytes_of_minlen hmin
    obtain ⟨rest, hread⟩ := s.mem.readBytes_writeBytes_append s.base bs hfit
    have hrun := exec_encInstr_fits hb hg henc hfit
    obtain ⟨-, hle⟩ := length_encodeBytes henc
    have hdec : decodeBytes f ((s.mem.writeBytes s.base bs).readBytes s.base s.len) = .value s.val.toNat bs.length :=
      hread ▸ decodeBytes_encodeBytes_append henc rest
    have hrun' := exec_decInstr_of_value
      (s := ({ s with cmd := encodeCode f }.memWrite s.base bs).complete 0 bs.length) rfl hg hdec
    exact ⟨_, _, hrun, hrun', rfl, BitVec.ofNat_toNat _ s.val, toNat_ofNat4 _ hle⟩

/-! ### What Encode stores and Write offers (R151, R157) -/

/-- R151: an Encode that reaches memory stores the encoding. -/
theorem encodeBuffer_portOps {f : Family} {s t : State} (h : encodeBuffer f s = .next t) (hne : t.portOps ≠ s.portOps) :
    ∃ bs, encodeBytes f s.val.toNat = some bs ∧ t.portOps = s.portOps ++ memWriteOps s.base bs := by
  obtain ⟨-, ⟨-, rfl⟩ | ⟨bs, henc, ⟨-, rfl⟩ | ⟨-, rfl⟩⟩⟩ := encodeBuffer_next h
  · exact absurd rfl hne
  · exact absurd rfl hne
  · exact ⟨bs, henc, rfl⟩

/-- R151: a Write that makes a request offers the encoding. -/
theorem startWrite_portOps {f : Family} {s t : State} (h : startWrite f s = .next t) (hne : t.portOps ≠ s.portOps) :
    ∃ bs, encodeBytes f s.val.toNat = some bs ∧ t.portOps = s.portOps ++ [.streamWrite bs] := by
  obtain ⟨-, rfl⟩ | ⟨bs, henc, rfl⟩ := startWrite_next h
  · exact absurd rfl hne
  · exact ⟨bs, henc, rfl⟩

/-- Settles O51: the class is the least tag that holds the value, and nothing but its packing goes out. -/
theorem encodingsAreMinimal : Obligations.EncodingsAreMinimal := by
  refine fun f => ⟨fun v bs henc => ⟨minlen_of_encodeBytes henc, ?_⟩,
    fun t ht => ⟨classOf_top f ht, classOf_threshold f ht⟩, fun s t hb h hne => ?_, fun s t hb h hne => ?_⟩
  · obtain ⟨c, hc, rfl⟩ := (encodeBytes_eq_some_iff f v bs).mp henc
    obtain ⟨hlt, hv, -⟩ := (classOf_eq_some_iff f v c).mp hc
    rw [length_pack]
    exact ⟨⟨c, hlt, rfl, hv⟩, fun t _ ht => LEN_mono f (class_le hc ht)⟩
  · rw [exec_encInstr f hb] at h
    exact encodeBuffer_portOps (s := { s with cmd := encodeCode f }) h hne
  · rw [exec_wrInstr f hb] at h
    exact startWrite_portOps (s := { s with cmd := writeCode f }) h hne

/-- Settles O55: both go by the encoding of VAL, which Encode can be read to have stored. -/
theorem writeOffersWhatEncodeStores : Obligations.WriteOffersWhatEncodeStores := by
  intro f s t u hb ht hu
  rw [exec_encInstr f hb] at ht
  rw [exec_wrInstr_issues f hb] at hu
  cases hu
  obtain ⟨-, ⟨henc, rfl⟩ | ⟨bs, henc, hcase⟩⟩ := encodeBuffer_next ht <;> rw [henc]
  · exact ⟨⟨fun _ => rfl, fun _ => rfl⟩, fun _ => ⟨rfl, rfl⟩, fun hbusy => nomatch hbusy⟩
  · have hwaits : ¬ (writeOutcome (some bs) { s with cmd := writeCode f }).busy = false := fun h => Bool.noConfusion h
    obtain ⟨-, hle⟩ := length_encodeBytes henc
    have hstored := s.mem.readBytes_writeBytes s.base bs
    obtain ⟨-, rfl⟩ | ⟨-, rfl⟩ := hcase
    · exact ⟨iff_of_false (by simp [ErrorKind.code]) hwaits, fun h => absurd h hwaits,
        fun _ => ⟨bs, rfl, rfl, by simp [ErrorKind.code]⟩⟩
    · exact ⟨iff_of_false (by simp) hwaits, fun h => absurd h hwaits,
        fun _ => ⟨bs, rfl, rfl, fun _ => ⟨hstored, toNat_ofNat4 _ hle⟩⟩⟩

/-! ### The ends of the domain and of the buffer (R152 to R154) -/

/-- A Write whose stream accepts all of the encoding. -/
theorem transact_wrInstr_all {f : Family} {s : State} {bs : List Byte} (hb : s.busy = false)
    (henc : encodeBytes f s.val.toNat = some bs) :
    ∃ t, transact (wrInstr f) [.write .all] s = .next t ∧ t.busy = false ∧ t.rerr = 0 := by
  obtain ⟨hall, -⟩ := writeAnswered_writeOutcome f s.val.toNat { s with cmd := writeCode f } bs henc
  rw [transact, exec_wrInstr_issues f hb, andThen_next_eq, feed_cons_busy _ _ _ (by rw [henc]; rfl), onAnswer, hall]
  exact ⟨_, rfl, rfl, rfl⟩

/-- Settles O52: the bound and what is above it have no encoding; one less has the encoding of the largest tag. -/
theorem domainBoundaryIsExclusive : Obligations.DomainBoundaryIsExclusive := by
  refine fun f s hb => ⟨fun hlarge => ?_, fun htop => ?_⟩
  · have henc := encodeBytes_eq_none hlarge
    refine ⟨fun hg => ⟨_, exec_encInstr_good f hb hg, ?_⟩, _, exec_wrInstr_issues f hb, ?_⟩ <;> rw [henc]
    · rfl
    · exact ⟨rfl, rfl⟩
  · have hclass : classOf f s.val.toNat = some (tmax f) :=
      htop ▸ classOf_top f (Nat.sub_one_lt (Nat.two_pow_pos _).ne')
    have henc := (encodeBytes_eq_some_iff f _ _).mpr ⟨tmax f, hclass, rfl⟩
    exact ⟨fun hg hfit => ⟨_, exec_encInstr_fits hb hg henc (by rwa [length_pack]), rfl⟩, transact_wrInstr_all hb henc⟩

/-- Encode of an encodable value into a buffer that is too short. -/
theorem exec_encInstr_short {f : Family} {s : State} {bs : List Byte} (hb : s.busy = false) (hg : goodBuffer s)
    (henc : encodeBytes f s.val.toNat = some bs) (hshort : s.len < bs.length) :
    exec (encInstr f) s = .next ({ s with cmd := encodeCode f }.raise .bufferTooSmall 0) := by
  rw [exec_encInstr_good f hb hg, henc]
  exact congrArg Host.Outcome.next (if_pos hshort)

/-- Settles O53, by the length of the buffer against that of the encoding, and against the length byte 0 declares. -/
theorem bufferLengthsAreExact : Obligations.BufferLengthsAreExact := by
  refine fun f s hb hg => ⟨fun L hmin => ?_, fun hone hshort => ?_, fun hempty => ?_⟩
  · obtain ⟨bs, henc, rfl⟩ := encodeBytes_of_minlen hmin
    obtain ⟨hpos, hle⟩ := length_encodeBytes henc
    refine ⟨fun hlen => ?_, fun hlen => ?_⟩
    · exact ⟨_, exec_encInstr_short hb hg henc (by omega), rfl, rfl, rfl⟩
    · exact ⟨_, exec_encInstr_fits hb hg henc hlen.ge, rfl, toNat_ofNat4 _ hle⟩
  · exact ⟨_, exec_decInstr_of_truncated f hb hg (Nat.ne_of_gt hone) hshort, rfl, rfl, rfl⟩
  · exact ⟨_, exec_decInstr_of_empty f hb hg hempty, rfl, rfl, rfl⟩

/-! ### Read and Decode (R155) -/

/-- What a Read shows the host of the bytes of its source, by what they decode to: the counts are those of R173. -/
def readShows (n : Nat) (r : DecodeResult) (t : State) : Prop :=
  match r with
  | .empty => t.rerr = 5 ∧ t.rcnt = 0
  | .truncated _ => t.rerr = 4 ∧ t.rcnt.toNat = n
  | .value v L => t.rerr = 0 ∧ t.rval = BitVec.ofNat 64 v ∧ t.rcnt.toNat = L

/-- A Read from a source, once its first answer has been taken. -/
theorem readFrom_of_first {f : Family} {bs : List Byte} {s u : State} (hb : s.busy = false)
    (hu : onReadAnswer (serve bs 1) (readIssued (readCode f) { s with inEnded := false }) = .next u) :
    readFrom f bs s = if u.busy then onReadAnswer (serve (bs.drop 1) u.nreq.toNat) u else .next u := by
  rw [readFrom, if_neg (by simp [hb]), startRead, andThen_next_eq]
  change andThen (onReadAnswer (serve bs 1) (readIssued (readCode f) { s with inEnded := false })) _ = _
  rw [hu, andThen_next_eq]

/-- R91: what bytes with a first one decode to, by the number that must follow it. -/
theorem decodeBytes_cons (f : Family) (b0 : Byte) (tl : List Byte) :
    decodeBytes f (b0 :: tl) =
      if tl.length < remainingOf f b0 then .truncated (remainingOf f b0 + 1)
      else .value (unpack f (b0 :: tl.take (remainingOf f b0))) (remainingOf f b0 + 1) := by
  simp only [decodeBytes, lengthOf_eq_remainingOf_add_one, List.take_succ_cons, Nat.add_lt_add_iff_right]

/-- R133: the second answer of a source that holds `tl` after the tag byte. -/
theorem onReadAnswer_serve_rest {f : Family} {b0 : Byte} {s : State}
    (h : continued s b0 (remainingOf f b0) fun bs => concatBytes (b0.extractLsb' 0 (8 - K f)).toNat bs)
    (tl : List Byte) :
    ∃ t, onReadAnswer (serve tl (remainingOf f b0)) (contIssued s b0 (remainingOf f b0)) = .next t ∧
      readShows (tl.length + 1) (decodeBytes f (b0 :: tl)) t := by
  obtain ⟨-, hfail, hfull⟩ := h
  have hr := remainingOf_le f b0
  rw [decodeBytes_cons]
  by_cases hshort : tl.length < remainingOf f b0
  · obtain ⟨heoi, -⟩ := hfail tl hshort
    rw [serve, if_neg (Nat.not_le.mpr hshort), if_pos hshort, heoi, Nat.add_comm]
    exact ⟨_, rfl, rfl, toNat_ofNat4 _ (by omega)⟩
  · have hall := hfull (tl.take (remainingOf f b0)) (List.length_take_of_le (Nat.not_lt.mp hshort))
    rw [serve_of_le (Nat.not_lt.mp hshort), if_neg hshort, hall, unpack_cons]
    exact ⟨_, rfl, rfl, rfl, toNat_ofNat4 _ (by omega)⟩

/-- R132, R133: a Read from a source completes, with what the bytes decode to. -/
theorem readFrom_shows (f : Family) (bs : List Byte) {s : State} (hb : s.busy = false) :
    ∃ t, readFrom f bs s = .next t ∧ readShows bs.length (decodeBytes f bs) t := by
  have hf := familyOf_readCode f
  cases bs with
  | nil =>
    obtain ⟨heoi, -⟩ := firstFailures_of_rdTag (s := readIssued (readCode f) { s with inEnded := false }) rfl hf rfl
    rw [readFrom_of_first (bs := []) hb heoi]
    exact ⟨_, rfl, rfl, rfl⟩
  | cons b0 tl =>
    have hserve : serve (b0 :: tl) 1 = .full [b0] := serve_of_le (Nat.succ_le_succ (Nat.zero_le _))
    by_cases hr : remainingOf f b0 = 0
    · have hfirst :=
        onReadAnswer_tagByte_whole (s := readIssued (readCode f) { s with inEnded := false }) rfl hf rfl rfl hr
      rw [readFrom_of_first hb (hserve ▸ hfirst), decodeBytes_cons, hr, if_neg (Nat.not_lt_zero _), unpack_cons]
      exact ⟨_, rfl, rfl, rfl, rfl⟩
    · have hcont :=
        continued_of_remainingOf (s := readIssued (readCode f) { s with inEnded := false }) rfl hf rfl rfl rfl hr
      have hn : (BitVec.ofNat 4 (remainingOf f b0)).toNat = remainingOf f b0 :=
        toNat_ofNat4 _ ((remainingOf_le f b0).trans (by decide))
      rw [readFrom_of_first hb (hserve ▸ hcont.1), if_pos (contIssued_busy _ _ _), contIssued_nreq, hn]
      exact onReadAnswer_serve_rest hcont tl

/-- Settles O54: each side by what the bytes decode to. -/
theorem readAndDecodeAgree : Obligations.ReadAndDecodeAgree := by
  intro f bs s u hs hu hlen hg hbytes
  have hdec := exec_decInstr_good f hu hg
  obtain ⟨t, ht, hshows⟩ := readFrom_shows f bs hs
  rw [hbytes] at hdec
  refine ⟨t, _, ht, hdec, ?_⟩
  cases hr : decodeBytes f bs with
  | empty =>
    rw [hr] at hshows
    obtain ⟨herr, hcnt⟩ := hshows
    exact ⟨herr, rfl, hcnt, rfl⟩
  | truncated L =>
    rw [hr] at hshows
    obtain ⟨herr, hcnt⟩ := hshows
    exact ⟨herr, rfl, hcnt, rfl⟩
  | value v L =>
    rw [hr] at hshows
    obtain ⟨herr, hval, hcnt⟩ := hshows
    have hsame : BitVec.ofNat 4 L = t.rcnt := by rw [← hcnt, BitVec.ofNat_toNat, BitVec.setWidth_eq]
    exact ⟨herr, rfl, hval, hval.symm, hcnt, hsame⟩

/-! ### The count (R163) -/

theorem LEN_le_LEN_tmax (f : Family) {t : Nat} (h : t < 2 ^ K f) : LEN f t ≤ LEN f (tmax f) :=
  LEN_mono f (Nat.le_sub_one_of_lt h)

theorem LEN_tmax_le (f : Family) : LEN f (tmax f) ≤ 8 := by cases f <;> decide

/-- The length of an encoding is that of a tag of the family. -/
theorem length_encodeBytes_eq_LEN {f : Family} {v : Nat} {bs : List Byte} (h : encodeBytes f v = some bs) :
    ∃ tag < 2 ^ K f, bs.length = LEN f tag := by
  obtain ⟨t, hc, rfl⟩ := (encodeBytes_eq_some_iff f v bs).mp h
  obtain ⟨ht, -, -⟩ := (classOf_eq_some_iff f v t).mp hc
  exact ⟨t, ht, length_pack f t v⟩

/-- R163: RCNT is at most the family's largest length, and on success one of its lengths. -/
def countFits (f : Family) (t : State) : Prop :=
  t.rcnt.toNat ≤ LEN f (tmax f) ∧ (t.rerr = 0 → ∃ tag < 2 ^ K f, t.rcnt.toNat = LEN f tag)

theorem countFits_complete {f : Family} {tag n : Nat} (ht : tag < 2 ^ K f) (hn : n = LEN f tag) (s : State) (v : Nat) :
    countFits f (s.complete v n) := by
  have hcnt : (s.complete v n).rcnt.toNat = LEN f tag := (toNat_ofNat4 n (hn ▸ LEN_le f tag ht)).trans hn
  exact ⟨hcnt.trans_le (LEN_le_LEN_tmax f ht), fun _ => ⟨tag, ht, hcnt⟩⟩

theorem ErrorKind.code_ne_zero (k : ErrorKind) : k.code ≠ 0 := by cases k <;> decide

theorem countFits_raiseWith {f : Family} {n : Nat} (hn : n ≤ LEN f (tmax f)) (s : State) (k : ErrorKind) (e : Nat) :
    countFits f (s.raiseWith k n e) :=
  ⟨(toNat_ofNat4 n (hn.trans (LEN_tmax_le f))).trans_le hn, fun herr => absurd herr k.code_ne_zero⟩

/-- What NREQ says of the count to come while a command of the family is in flight, and RCNT of it in the end. -/
def countOnCourse (f : Family) (s : State) : Prop :=
  match s.ph with
  | .idle => countFits f s
  | .rdTag => familyOf s.cmd = some f ∧ s.nreq = 1
  | .rdCont => familyOf s.cmd = some f ∧ ∃ b0, s.nreq = BitVec.ofNat 4 (remainingOf f b0)
  | .wrData => ∃ tag < 2 ^ K f, s.nreq.toNat = LEN f tag

theorem firstAnswer_countOnCourse {f : Family} {a : ReadAnswer} {s t : State} (hf : familyOf s.cmd = some f)
    (h : firstAnswer f a s = .next t) : countOnCourse f t := by
  obtain ⟨_, -, rfl⟩ | ⟨_, _, -, rfl⟩ | ⟨b0, _, -, ⟨hr, rfl⟩ | ⟨-, rfl⟩⟩ := firstAnswer_next h
  · exact countFits_raiseWith (Nat.zero_le _) s _ _
  · exact countFits_raiseWith (Nat.zero_le _) s _ _
  · have hone := lengthOf_eq_remainingOf_add_one f b0
    rw [hr] at hone
    exact countFits_complete (tagOf_lt f b0) hone.symm _ _
  · exact ⟨hf, b0, rfl⟩

theorem secondAnswer_countFits {f : Family} {b0 : Byte} {a : ReadAnswer} {s t : State} {teW : Nat}
    (hfit : a.fits (remainingOf f b0) teW = true) (h : secondAnswer f a s = .next t) : countFits f t := by
  have hlen : lengthOf f b0 = remainingOf f b0 + 1 := lengthOf_eq_remainingOf_add_one f b0
  have hmax : lengthOf f b0 ≤ LEN f (tmax f) := LEN_le_LEN_tmax f (tagOf_lt f b0)
  obtain ⟨bs, rfl, rfl⟩ | ⟨bs, e, rfl, rfl⟩ | ⟨bs, rfl, rfl⟩ := secondAnswer_next h <;>
    simp only [ReadAnswer.fits, Bool.and_eq_true, decide_eq_true_eq] at hfit
  · exact countFits_raiseWith (by omega) s _ _
  · exact countFits_raiseWith (by omega) s _ _
  · exact countFits_complete (tagOf_lt f b0) (by rw [hfit, ← hlen]; rfl) _ _

theorem onReadAnswer_countOnCourse {f : Family} {a : ReadAnswer} {s t : State} (hs : countOnCourse f s)
    (h : onReadAnswer a s = .next t) : countOnCourse f t := by
  obtain ⟨g, hg, hacc, ⟨hph, h⟩ | ⟨hph, h⟩⟩ := onReadAnswer_next h <;> simp only [countOnCourse, hph] at hs
  · obtain ⟨hf, -⟩ := hs
    obtain rfl : f = g := Option.some.inj (hf.symm.trans hg)
    exact firstAnswer_countOnCourse (s := s.takeAnswer a) hf h
  · obtain ⟨hf, b0, hn⟩ := hs
    obtain rfl : f = g := Option.some.inj (hf.symm.trans hg)
    obtain ⟨hfit, -⟩ := (s.acceptsAnswer_iff a).mp hacc
    rw [hn, toNat_ofNat4 _ ((remainingOf_le f b0).trans (by decide))] at hfit
    simp only [countOnCourse, secondAnswer_ph h]
    exact secondAnswer_countFits hfit h

theorem onWriteAnswer_countOnCourse {f : Family} {a : WriteAnswer} {s t : State} (hs : countOnCourse f s)
    (h : onWriteAnswer a s = .next t) : countOnCourse f t := by
  obtain ⟨hph, hcase⟩ := onWriteAnswer_next h
  simp only [countOnCourse, hph] at hs
  obtain ⟨tag, ht, hn⟩ := hs
  obtain ⟨-, rfl⟩ | ⟨m, e, -, hm, -, rfl⟩ := hcase
  · exact countFits_complete ht hn _ _
  · exact countFits_raiseWith (hm.le.trans (hn.trans_le (LEN_le_LEN_tmax f ht))) _ _ _

theorem feed_countOnCourse {f : Family} {as : List Answer} {s t : State} (hs : countOnCourse f s)
    (h : feed as s = .next t) : countOnCourse f t := by
  induction as generalizing s with
  | nil =>
    cases h
    exact hs
  | cons a as ih =>
    cases hb : s.busy with
    | false =>
      rw [feed_idle _ s hb] at h
      cases h
      exact hs
    | true =>
      rw [feed_cons_busy a as s hb] at h
      obtain ⟨u, hu, h⟩ := andThen_next h
      refine ih ?_ h
      cases a with
      | read a => exact onReadAnswer_countOnCourse hs hu
      | write a => exact onWriteAnswer_countOnCourse hs hu

theorem encodeBuffer_countOnCourse {f : Family} {s t : State} (h : encodeBuffer f s = .next t) : countOnCourse f t := by
  obtain ⟨-, ⟨-, rfl⟩ | ⟨bs, henc, ⟨-, rfl⟩ | ⟨-, rfl⟩⟩⟩ := encodeBuffer_next h
  · exact countFits_raiseWith (Nat.zero_le _) s _ _
  · exact countFits_raiseWith (Nat.zero_le _) s _ _
  · obtain ⟨tag, ht, hlen⟩ := length_encodeBytes_eq_LEN henc
    exact countFits_complete ht hlen _ _

theorem decodeBuffer_countOnCourse {f : Family} {s t : State} (h : decodeBuffer f s = .next t) : countOnCourse f t := by
  obtain ⟨-, ⟨-, rfl⟩ | ⟨-, -, rfl⟩ | ⟨-, -, rfl⟩⟩ := decodeBuffer_next h
  · exact countFits_raiseWith (Nat.zero_le _) s _ _
  · exact countFits_raiseWith (Nat.zero_le _) _ _ _
  · exact countFits_complete (tagOf_lt f _) rfl _ _

theorem startWrite_countOnCourse {f : Family} {s t : State} (h : startWrite f s = .next t) : countOnCourse f t := by
  obtain ⟨-, rfl⟩ | ⟨bs, henc, rfl⟩ := startWrite_next h
  · exact countFits_raiseWith (Nat.zero_le _) s _ _
  · obtain ⟨-, hle⟩ := length_encodeBytes henc
    obtain ⟨tag, ht, hlen⟩ := length_encodeBytes_eq_LEN henc
    exact ⟨tag, ht, (toNat_ofNat4 _ hle).trans hlen⟩

theorem exec_countOnCourse {f : Family} {i : Instr} {s t : State} (hb : s.busy = false)
    (hi : i = encInstr f ∨ i = decInstr f ∨ i = wrInstr f ∨ i = rdInstr f) (h : exec i s = .next t) :
    countOnCourse f t := by
  obtain rfl | rfl | rfl | rfl := hi
  · rw [exec_encInstr f hb] at h
    exact encodeBuffer_countOnCourse h
  · rw [exec_decInstr f hb] at h
    exact decodeBuffer_countOnCourse h
  · rw [exec_wrInstr f hb] at h
    exact startWrite_countOnCourse h
  · rw [exec_rdInstr f hb] at h
    cases h
    exact ⟨familyOf_readCode f, rfl⟩

/-- Settles O46: a command begins on course for its count, and every answer keeps it there until it completes. -/
theorem countIsBoundedByTheFamily : Obligations.CountIsBoundedByTheFamily := by
  intro as f i s t hb hidle hi h
  obtain ⟨u, hu, hfed⟩ := andThen_next h
  have ht := feed_countOnCourse (exec_countOnCourse hb hi hu) hfed
  simp only [countOnCourse, t.not_busy_iff.mp hidle] at ht
  cases f <;> exact ht

end Sys2Proof.Machine

/-! ## Two blocks over one memory

R156, R190: what an instruction does depends on the shared memory through its own buffer only, and it writes there only,
so two instructions on disjoint buffers commute. -/

namespace Sys2Proof.Machine

open Sys2Proof.Claims

/-! ### Writes to different addresses commute -/

theorem Memory.write_comm {m : Memory} (hm : m.wf = true) {a c : Nat} (h : a ≠ c) (x y : Byte) :
    (m.write a x).write c y = (m.write c y).write a x := by
  refine Memory.eq_of_read? _ _ (Memory.wf_write _ _ _ (Memory.wf_write _ _ _ hm))
    (Memory.wf_write _ _ _ (Memory.wf_write _ _ _ hm)) fun d => ?_
  simp only [Memory.read?_write]
  by_cases hd : d = c
  · subst hd
    simp [h.symm]
  · simp [hd]

theorem Memory.writeBytes_write_comm {m : Memory} (hm : m.wf = true) {a c : Nat} {bs : List Byte}
    (h : c < a ∨ a + bs.length ≤ c) (y : Byte) :
    (m.writeBytes a bs).write c y = (m.write c y).writeBytes a bs := by
  induction bs generalizing m a with
  | nil => rfl
  | cons b bs ih =>
    rw [List.length_cons] at h
    rw [Memory.writeBytes, Memory.writeBytes, ih (Memory.wf_write m a b hm) (by omega),
      Memory.write_comm hm (by omega)]

theorem Memory.writeBytes_comm {m : Memory} (hm : m.wf = true) {a c : Nat} {bs cs : List Byte}
    (h : a + bs.length ≤ c ∨ c + cs.length ≤ a) :
    (m.writeBytes a bs).writeBytes c cs = (m.writeBytes c cs).writeBytes a bs := by
  induction cs generalizing m c with
  | nil => rfl
  | cons y cs ih =>
    rw [List.length_cons] at h
    rw [Memory.writeBytes, Memory.writeBytes, Memory.writeBytes_write_comm hm (by omega),
      ih (Memory.wf_write m c y hm) (by omega)]

/-! ### What an instruction does to the shared memory -/

/-- The block's state with the shared memory put into it. -/
def State.onMem (s : State) (m : Memory) : State := { s with mem := m }

/-- The two memories hold the same bytes in the block's buffer. -/
def sameBuffer (s : State) (m m' : Memory) : Prop := ∀ i < s.len, m'.byteAt (s.base + i) = m.byteAt (s.base + i)

/-- In every memory that holds the bytes of `m` in the buffer the action comes to the same state of the block, and
writes the same bytes at BASE, no more than the buffer holds. -/
def completesInBuffer (act : State → Result) (s : State) (m : Memory) : Prop :=
  ∃ (t : State) (bs : List Byte), bs.length ≤ s.len ∧
    ∀ m', sameBuffer s m m' → act (s.onMem m') = .next (t.onMem (m'.writeBytes s.base bs))

/-- The action is refused in every memory, and the host has broken its duty on the buffer. -/
def refusedOnBadBuffer (act : State → Result) (s : State) : Prop :=
  ¬ goodBuffer s ∧ ∃ r, ∀ m, act (s.onMem m) = .refused r

/-- An action that reads no memory and writes none. -/
theorem completesInBuffer_of_next {act : State → Result} {s : State} {t : State}
    (h : ∀ m, act (s.onMem m) = .next (t.onMem m)) (m : Memory) : completesInBuffer act s m :=
  ⟨t, [], Nat.zero_le _, fun m' _ => h m'⟩

/-- A buffer command is refused on a bad buffer whatever the memory holds. -/
theorem refusedOnBadBuffer_of_badBuffer {body : State → Result} {s : State} {r : Refusal} (h : s.badBuffer = some r) :
    refusedOnBadBuffer (onBuffer body) s :=
  ⟨fun hg => absurd (h.symm.trans (s.badBuffer_eq_none_iff.mpr hg)) (Option.some_ne_none r), r,
    fun m => onBuffer_bad (s := s.onMem m) h⟩

/-- R90: Encode on a buffer that keeps the host's duty, by the encoding. -/
theorem encodeBuffer_eq_encodeOutcome (f : Family) {s : State} (h : s.badBuffer = none) :
    encodeBuffer f s = .next (encodeOutcome (encodeBytes f s.val.toNat) s) := by
  rw [encodeBuffer_good f h]
  cases encodeBytes f s.val.toNat with
  | none => rfl
  | some bs => exact (apply_ite Host.Outcome.next _ _ _).symm

theorem encodeBuffer_onMem (f : Family) {s : State} (hg : s.badBuffer = none) (m : Memory) :
    completesInBuffer (encodeBuffer f) s m := by
  have hrun : ∀ m', encodeBuffer f (s.onMem m') = .next (encodeOutcome (encodeBytes f s.val.toNat) (s.onMem m')) :=
    fun m' => encodeBuffer_eq_encodeOutcome f (s := s.onMem m') hg
  cases henc : encodeBytes f s.val.toNat with
  | none =>
    rw [henc] at hrun
    exact completesInBuffer_of_next (t := s.raise .valueTooLarge 0) hrun m
  | some bs =>
    rw [henc] at hrun
    by_cases hshort : s.len < bs.length
    · exact completesInBuffer_of_next (t := s.raise .bufferTooSmall 0)
        (fun m' => (hrun m').trans (congrArg Host.Outcome.next (if_pos hshort))) m
    · exact ⟨(s.note (memWriteOps s.base bs)).complete 0 bs.length, bs, Nat.not_lt.mp hshort,
        fun m' _ => (hrun m').trans (congrArg Host.Outcome.next (if_neg hshort))⟩

theorem readBytes_of_sameBuffer {s : State} {m m' : Memory} (h : sameBuffer s m m') :
    m'.readBytes s.base s.len = m.readBytes s.base s.len :=
  List.map_congr_left fun i hi => h i (List.mem_range.mp hi)

theorem decodeOutcome_onMem (r : DecodeResult) (s : State) (m : Memory) :
    decodeOutcome r (s.onMem m) = (decodeOutcome r s).onMem m := by
  cases r <;> rfl

theorem decodeBuffer_onMem (f : Family) {s : State} (hg : s.badBuffer = none) (m : Memory) :
    completesInBuffer (decodeBuffer f) s m := by
  refine ⟨decodeOutcome (decodeBytes f (m.readBytes s.base s.len)) s, [], Nat.zero_le _, fun m' hm => ?_⟩
  rw [decodeBuffer_eq_decodeOutcome f (s := s.onMem m') hg, decodeOutcome_onMem, ← readBytes_of_sameBuffer hm]
  rfl

theorem startWrite_onMem (f : Family) (s : State) (m : Memory) : completesInBuffer (startWrite f) s m := by
  refine completesInBuffer_of_next (t := writeOutcome (encodeBytes f s.val.toNat) s) (fun m => ?_) m
  simp only [startWrite, State.onMem]
  cases encodeBytes f s.val.toNat <;> rfl

theorem startRead_onMem (s : State) (m : Memory) : completesInBuffer startRead s m :=
  completesInBuffer_of_next (act := startRead) (t := readIssued s.cmd s) (fun _ => rfl) m

theorem illegalCommand_onMem (s : State) (m : Memory) : completesInBuffer illegalCommand s m :=
  completesInBuffer_of_next (act := illegalCommand) (t := s.raise .illegalCommand 0) (fun _ => rfl) m

/-- An item is read whole, from its own source. -/
theorem readFrom_onMem {f : Family} {t v : Nat} (ht : t < 2 ^ K f) (hv : v < 2 ^ PBITS f t) {s : State}
    (hb : s.busy = false) (m : Memory) : completesInBuffer (readFrom f (pack f t v)) s m := by
  obtain ⟨b0, tl, hpack⟩ := pack_eq_cons f t v
  have hlen := length_of_pack_eq_cons ht hv hpack
  rw [hpack]
  exact completesInBuffer_of_next (t := itemRead (readCode f) b0 tl (BitVec.ofNat 64 (unpack f (b0 :: tl))) s)
    (fun m' => readFrom_whole hlen (s := s.onMem m') hb) m

/-- A host write to CMD on an idle block stays in the buffer when the command's body does. -/
theorem startCommand_onMem {w : BitVec 4} {body : State → Result} {s : State} {m : Memory} (hb : s.busy = false)
    (h : completesInBuffer body { s with cmd := w } m ∨ refusedOnBadBuffer body { s with cmd := w }) :
    completesInBuffer (startCommand w body) s m ∨ refusedOnBadBuffer (startCommand w body) s := by
  have hrun : ∀ m', startCommand w body (s.onMem m') = body (State.onMem { s with cmd := w } m') := fun m' =>
    (startCommand_eq w body (s.onMem m')).2 hb
  obtain ⟨t, bs, hle, h⟩ | ⟨hbad, r, h⟩ := h
  · exact .inl ⟨t, bs, hle, fun m' hm => (hrun m').trans (h m' hm)⟩
  · exact .inr ⟨hbad, r, fun m' => (hrun m').trans (h m')⟩

/-- Every instruction stays inside its block's buffer, or is refused on a bad one. -/
theorem exec_onMem (i : Instr) (s : State) (m : Memory) :
    completesInBuffer (exec i) s m ∨ refusedOnBadBuffer (exec i) s := by
  cases hb : s.busy with
  | true => exact .inl (completesInBuffer_of_next (fun m => exec_busy i (s.onMem m) hb) m)
  | false =>
    obtain ⟨f, -, e⟩ | ⟨f, -, e⟩ | ⟨f, -, e⟩ | ⟨f, -, e⟩ | ⟨-, w, -, e⟩ | ⟨f, tag, v, hi, e⟩ := exec_shape i <;>
      rw [funext e]
    · refine startCommand_onMem hb ?_
      cases hg : ({ s with cmd := encodeCode f } : State).badBuffer with
      | none => exact .inl (encodeBuffer_onMem f hg m)
      | some r => exact .inr (refusedOnBadBuffer_of_badBuffer hg)
    · refine startCommand_onMem hb ?_
      cases hg : ({ s with cmd := decodeCode f } : State).badBuffer with
      | none => exact .inl (decodeBuffer_onMem f hg m)
      | some r => exact .inr (refusedOnBadBuffer_of_badBuffer hg)
    · exact startCommand_onMem hb (.inl (startWrite_onMem f _ m))
    · exact startCommand_onMem hb (.inl (startRead_onMem _ m))
    · exact startCommand_onMem hb (.inl (illegalCommand_onMem _ m))
    · obtain ⟨ht, hv⟩ := item_fits hi
      exact .inl (readFrom_onMem ht hv hb m)

/-! ### Two blocks (R190) -/

/-- Writes outside a block's buffer leave its bytes as they are. -/
theorem sameBuffer_writeBytes {s : State} {a : Nat} {bs : List Byte} (m : Memory)
    (h : s.base + s.len ≤ a ∨ a + bs.length ≤ s.base) : sameBuffer s m (m.writeBytes a bs) := fun i hi => by
  rw [Memory.byteAt_writeBytes, if_neg (by omega)]

section
variable {p : Platform} {k : Nat} {i : Instr} {s : State}

theorem Platform.command_next (hs : p.insts[k]? = some s) {t : State} {m : Memory}
    (h : exec i (s.onMem p.mem) = .next (t.onMem m)) :
    Platform.command k i p = .next { mem := m, insts := p.insts.set k (t.onMem []) } := by
  rw [State.onMem] at h
  rw [Platform.command, Platform.act, hs]
  simp only [h]
  rfl

theorem Platform.command_refused (hs : p.insts[k]? = some s) {r : Refusal}
    (h : exec i (s.onMem p.mem) = .refused r) : Platform.command k i p = .refused r := by
  rw [State.onMem] at h
  rw [Platform.command, Platform.act, hs]
  simp only [h]

end

section
variable {p : Platform} {j k : Nat} {a b : Instr} {s u : State} (hjk : j ≠ k) (hs : p.insts[j]? = some s)
  (hu : p.insts[k]? = some u) {t : State} {m : Memory} (ht : exec a (s.onMem p.mem) = .next (t.onMem m))
include hjk hs hu ht

/-- Block `j` completes its instruction, and then `k` its own on the memory that `j` has left. -/
theorem Platform.commands_next {w : State} {m' : Memory} (hw : exec b (u.onMem m) = .next (w.onMem m')) :
    Platform.andThen (Platform.command j a p) (Platform.command k b) =
      .next { mem := m', insts := (p.insts.set j (t.onMem [])).set k (w.onMem []) } := by
  rw [Platform.command_next hs ht]
  exact Platform.command_next (p := { mem := m, insts := p.insts.set j (t.onMem []) })
    ((List.getElem?_set_ne hjk).trans hu) hw

/-- Block `j` completes its instruction, and then that of `k` is refused. -/
theorem Platform.commands_refused {r : Refusal} (hw : exec b (u.onMem m) = .refused r) :
    Platform.andThen (Platform.command j a p) (Platform.command k b) = .refused r := by
  rw [Platform.command_next hs ht]
  exact Platform.command_refused (p := { mem := m, insts := p.insts.set j (t.onMem []) })
    ((List.getElem?_set_ne hjk).trans hu) hw

end

/-- Settles O60: each of the two instructions completes inside its buffer, where the other does not write, or is refused
whatever the memory holds. -/
theorem instancesOnDisjointBuffersCommute : Obligations.InstancesOnDisjointBuffersCommute := by
  intro p j k a b s u hwf hjk hs hu hdisj
  obtain ⟨t, bs, hbs, ht⟩ | ⟨hbad, r, hr⟩ := exec_onMem a s p.mem <;>
    obtain ⟨w, cs, hcs, hw⟩ | ⟨hbad', r', hr'⟩ := exec_onMem b u p.mem
  · have ht' := ht _ (sameBuffer_writeBytes p.mem (a := u.base) (bs := cs) (by omega))
    have hw' := hw _ (sameBuffer_writeBytes p.mem (a := s.base) (bs := bs) (by omega))
    have hmem := Memory.writeBytes_comm hwf (a := s.base) (c := u.base) (bs := bs) (cs := cs) (by omega)
    refine .inl ?_
    rw [Platform.commands_next hjk hs hu (ht p.mem fun _ _ => rfl) hw',
      Platform.commands_next hjk.symm hu hs (hw p.mem fun _ _ => rfl) ht', hmem, List.set_comm _ _ hjk]
  · refine .inl ?_
    rw [Platform.commands_refused hjk hs hu (ht p.mem fun _ _ => rfl) (hr' _), Platform.command_refused hu (hr' _)]
    rfl
  · refine .inl ?_
    rw [Platform.commands_refused hjk.symm hu hs (hw p.mem fun _ _ => rfl) (hr _), Platform.command_refused hs (hr _)]
    rfl
  · refine .inr ⟨fun hgood => hbad hgood.1, ⟨r, ?_⟩, r', ?_⟩
    · rw [Platform.command_refused hs (hr _)]
      rfl
    · rw [Platform.command_refused hu (hr' _)]
      rfl

end Sys2Proof.Machine

/-! ## Errors and completion

R171 to R176: the one update a completion is, what a completed command has come to, and so which kinds it can report and
what an error leaves behind. -/

namespace Sys2Proof.Machine

open Sys2Proof.Claims

/-- Settles O43: each completion is by definition its record update, and BUSY is read from the PH it leaves. -/
theorem completionIsOneUpdate : Obligations.CompletionIsOneUpdate := by
  intro s v cnt e k
  refine ⟨?_, rfl, rfl, rfl, rfl, rfl⟩
  rw [State.complete, BitVec.ofNat_toNat, BitVec.setWidth_eq]

/-! ### What a completed command has come to -/

section

variable {f : Family} {as : List Answer} {s t : State}

/-- A command that is complete at once takes no answer. -/
theorem exec_of_transact {i : Instr} (hidle : ∀ u, exec i s = .next u → u.ph = .idle)
    (h : transact i as s = .next t) : exec i s = .next t := by
  obtain ⟨u, hu, hfed⟩ := andThen_next h
  rw [feed_idle as u (u.not_busy_iff.mpr (hidle u hu))] at hfed
  exact hu.trans hfed

theorem transact_encInstr_next (hb : s.busy = false) (h : transact (encInstr f) as s = .next t) :
    encodeBuffer f { s with cmd := encodeCode f } = .next t := by
  rw [← exec_encInstr f hb]
  exact exec_of_transact (fun u hu => encodeBuffer_ph (exec_encInstr f hb ▸ hu)) h

theorem transact_decInstr_next (hb : s.busy = false) (h : transact (decInstr f) as s = .next t) :
    decodeBuffer f { s with cmd := decodeCode f } = .next t := by
  rw [← exec_decInstr f hb]
  exact exec_of_transact (fun u hu => decodeBuffer_ph (exec_decInstr f hb ▸ hu)) h

/-- R62: the word written stands in CMD and IllegalCommand in the results. -/
theorem transact_reserved_next {i : Instr} (hi : i = .reserved3 ∨ i = .reserved7 ∨ i = .reservedB ∨ i = .reservedF)
    (hb : s.busy = false) (h : transact i as s = .next t) :
    ∃ w, cmdWord i = some w ∧ t = { s with cmd := w }.raise .illegalCommand 0 := by
  have hrun : ∃ w, cmdWord i = some w ∧ exec i s = .next ({ s with cmd := w }.raise .illegalCommand 0) := by
    obtain ⟨h3, h7, hB, hF⟩ := exec_reserved hb
    obtain rfl | rfl | rfl | rfl := hi
    · exact ⟨_, rfl, h3⟩
    · exact ⟨_, rfl, h7⟩
    · exact ⟨_, rfl, hB⟩
    · exact ⟨_, rfl, hF⟩
  obtain ⟨w, hw, hrun⟩ := hrun
  rw [transact, hrun, andThen_next_eq, feed_idle _ _ rfl] at h
  cases h
  exact ⟨w, hw, rfl⟩

/-- R137: the output stream has accepted all of `bs`, or its first `m` bytes before it failed. -/
def writeDone (bs : List Byte) (s t : State) : Prop :=
  t = { s with outSent := s.outSent ++ bs }.complete 0 bs.length ∨
  ∃ m e, m < bs.length ∧ t = { s with outSent := s.outSent ++ bs.take m }.raiseTransport m e

/-- The one answer that a Write with `bs` on offer takes. -/
theorem onAnswer_writeDone {a : Answer} {bs : List Byte} (hph : s.ph = .wrData) (hn : s.nreq.toNat = bs.length)
    (hsb : s.staged bs.length = bs) (h : onAnswer a s = .next t) : writeDone bs s t := by
  cases a with
  | read a =>
    rw [onAnswer, onReadAnswer_unrequested a (.inr hph)] at h
    cases h
  | write a =>
    obtain ⟨-, hcase⟩ := onWriteAnswer_next h
    rw [hn, hsb] at hcase
    exact hcase.imp And.right fun ⟨m, e, _, hm, _, he⟩ => ⟨m, e, hm, he⟩

theorem writeDone_ph {bs : List Byte} (h : writeDone bs s t) : t.ph = .idle := by
  obtain rfl | ⟨m, e, -, rfl⟩ := h <;> rfl

/-- R136, R137: a Write that is over had no encoding to offer, or has seen its encoding's answer. -/
theorem transact_wrInstr_next (hb : s.busy = false) (ht : t.busy = false)
    (h : transact (wrInstr f) as s = .next t) :
    (encodeBytes f s.val.toNat = none ∧ t = { s with cmd := writeCode f }.raise .valueTooLarge 0) ∨
    ∃ bs, encodeBytes f s.val.toNat = some bs ∧ writeDone bs (writeOutcome (some bs) { s with cmd := writeCode f }) t := by
  rw [transact, exec_wrInstr_issues f hb, andThen_next_eq] at h
  cases henc : encodeBytes f s.val.toNat with
  | none =>
    rw [henc, feed_idle as _ rfl] at h
    cases h
    exact .inl ⟨rfl, rfl⟩
  | some bs =>
    rw [henc] at h
    obtain ⟨-, hle⟩ := length_encodeBytes henc
    obtain ⟨a, as, u, hu, hfed⟩ := feed_completes rfl ht h
    have hdone : writeDone bs (writeOutcome (some bs) { s with cmd := writeCode f }) u :=
      onAnswer_writeDone rfl (toNat_ofNat4 _ hle) (take_storeSB s.sb bs hle) hu
    rw [feed_idle as u (u.not_busy_iff.mpr (writeDone_ph hdone))] at hfed
    cases hfed
    exact .inr ⟨bs, rfl, hdone⟩

/-- R131 to R133: a Read that is over has taken one answer, or a second one in RD_CONT. -/
theorem transact_rdInstr_next (hb : s.busy = false) (ht : t.busy = false)
    (h : transact (rdInstr f) as s = .next t) :
    ∃ a u, onReadAnswer a (readIssued (readCode f) s) = .next u ∧ (t = u ∨ ∃ b, onReadAnswer b u = .next t) := by
  obtain ⟨u, hu, hfed⟩ := andThen_next h
  rw [exec_rdInstr f hb] at hu
  cases hu
  obtain ⟨a, as, u, hu, hfed⟩ := feed_completes rfl ht hfed
  obtain ⟨a, hu⟩ := onAnswer_read_next (.inl rfl) hu
  refine ⟨a, u, hu, ?_⟩
  obtain hidle | hcont := phaseAfterTag_eq_or f a <;>
    have hph := onReadAnswer_rdTag_ph (familyOf_readCode f) rfl hu
  · rw [feed_idle as u (u.not_busy_iff.mpr (hph.trans hidle))] at hfed
    cases hfed
    exact .inl rfl
  · replace hph := hph.trans hcont
    obtain ⟨b, as, v, hv, hfed⟩ := feed_completes (u.busy_iff.mpr (by simp [hph])) ht hfed
    obtain ⟨b, hv⟩ := onAnswer_read_next (.inr hph) hv
    rw [feed_idle as v (v.not_busy_iff.mpr (onReadAnswer_rdCont_ph hph hv))] at hfed
    cases hfed
    exact .inr ⟨b, hv⟩

end

/-! ### Which kinds a command reports (R174) -/

/-- R132, R133: the kinds an answer of the input stream can complete a Read with. -/
theorem onReadAnswer_rerr {a : ReadAnswer} {s t : State} (ht : t.busy = false) (h : onReadAnswer a s = .next t) :
    t.rerr = 0 ∨ t.rerr = 4 ∨ t.rerr = 5 ∨ t.rerr = 6 := by
  obtain ⟨f, -, -, ⟨-, h⟩ | ⟨-, h⟩⟩ := onReadAnswer_next h
  · obtain ⟨_, -, rfl⟩ | ⟨_, _, -, rfl⟩ | ⟨_, _, -, ⟨-, rfl⟩ | ⟨-, rfl⟩⟩ := firstAnswer_next h
    · exact .inr (.inr (.inl rfl))
    · exact .inr (.inr (.inr rfl))
    · exact .inl rfl
    · cases ht
  · obtain ⟨_, -, rfl⟩ | ⟨_, _, -, rfl⟩ | ⟨_, -, rfl⟩ := secondAnswer_next h
    · exact .inr (.inl rfl)
    · exact .inr (.inr (.inr rfl))
    · exact .inl rfl

/-- Settles O44, by what each completed command has come to. -/
theorem eachCommandReportsItsOwnErrors : Obligations.EachCommandReportsItsOwnErrors := by
  refine fun as f s t hb ht => ⟨fun h => ?_, fun h => ?_, fun h => ?_, fun h => ?_, fun i hi h => ?_⟩
  · obtain ⟨-, ⟨-, rfl⟩ | ⟨bs, -, ⟨-, rfl⟩ | ⟨-, rfl⟩⟩⟩ := encodeBuffer_next (transact_encInstr_next hb h)
    · exact .inr (.inl rfl)
    · exact .inr (.inr rfl)
    · exact .inl rfl
  · obtain ⟨-, ⟨-, rfl⟩ | ⟨-, -, rfl⟩ | ⟨-, -, rfl⟩⟩ := decodeBuffer_next (transact_decInstr_next hb h)
    · exact .inr (.inl rfl)
    · exact .inr (.inr rfl)
    · exact .inl rfl
  · obtain ⟨-, rfl⟩ | ⟨bs, -, rfl | ⟨m, e, -, rfl⟩⟩ := transact_wrInstr_next hb ht h
    · exact .inr (.inl rfl)
    · exact .inl rfl
    · exact .inr (.inr rfl)
  · obtain ⟨a, u, hu, rfl | ⟨b, hv⟩⟩ := transact_rdInstr_next hb ht h
    · exact onReadAnswer_rerr ht hu
    · exact onReadAnswer_rerr ht hv
  · obtain ⟨w, -, rfl⟩ := transact_reserved_next hi hb h
    rfl

/-! ### What an error leaves behind (R176) -/

/-- R176: since `s` buffer memory and the host's registers are unchanged but for the word `w` in CMD, and the streams have
moved the bytes `taken` and `sent`. -/
def leftAsWas (w : BitVec 4) (taken sent : List Byte) (s t : State) : Prop :=
  t.mem = s.mem ∧ t.cmd = w ∧ t.val = s.val ∧ t.base = s.base ∧ t.len = s.len ∧
  t.inTaken = s.inTaken ++ taken ∧ t.outSent = s.outSent ++ sent

/-- Of what `leftAsWas` speaks of, an error completion changes nothing. -/
theorem leftAsWas_raiseWith {w : BitVec 4} {taken sent : List Byte} {s t : State} (h : leftAsWas w taken sent s t)
    (k : ErrorKind) (n e : Nat) : leftAsWas w taken sent s (t.raiseWith k n e) := h

theorem leftAsWas_note {w : BitVec 4} {taken sent : List Byte} {s t : State} (h : leftAsWas w taken sent s t)
    (ops : List PortOp) : leftAsWas w taken sent s (t.note ops) := h

/-- Storing the command word. -/
theorem leftAsWas_stored (w : BitVec 4) (s : State) : leftAsWas w [] [] s { s with cmd := w } :=
  ⟨rfl, rfl, rfl, rfl, rfl, (List.append_nil _).symm, (List.append_nil _).symm⟩

/-- R61: a command has one word. -/
theorem eq_of_cmdWord_decodeCmd {w c : BitVec 4} (h : cmdWord (decodeCmd w) = some c) : w = c :=
  Option.some.inj ((cmdWord_decodeCmd w).symm.trans h)

theorem readCode_ne_writeCode (f g : Family) : readCode f ≠ writeCode g := by cases f <;> cases g <;> decide

theorem eq_of_writeCode_eq {f g : Family} (h : writeCode f = writeCode g) : f = g := by
  have hfam := congrArg familyOf h
  rwa [familyOf_writeCode, familyOf_writeCode, Option.some.injEq] at hfam

/-- An Encode that ends in an error has ended before its first write. -/
theorem encodeBuffer_leftAsWas {f : Family} {w : BitVec 4} {s t : State} (h : encodeBuffer f { s with cmd := w } = .next t)
    (herr : t.rerr ≠ 0) : leftAsWas w [] [] s t := by
  obtain ⟨-, ⟨-, rfl⟩ | ⟨bs, -, ⟨-, rfl⟩ | ⟨-, rfl⟩⟩⟩ := encodeBuffer_next h
  · exact leftAsWas_raiseWith (leftAsWas_stored w s) _ _ _
  · exact leftAsWas_raiseWith (leftAsWas_stored w s) _ _ _
  · exact absurd rfl herr

/-- A Decode that ends in an error has read at most its first byte. -/
theorem decodeBuffer_leftAsWas {f : Family} {w : BitVec 4} {s t : State} (h : decodeBuffer f { s with cmd := w } = .next t)
    (herr : t.rerr ≠ 0) : leftAsWas w [] [] s t := by
  obtain ⟨-, ⟨-, rfl⟩ | ⟨-, -, rfl⟩ | ⟨-, -, rfl⟩⟩ := decodeBuffer_next h
  · exact leftAsWas_raiseWith (leftAsWas_stored w s) _ _ _
  · exact leftAsWas_raiseWith (leftAsWas_note (leftAsWas_stored w s) _) _ _ _
  · exact absurd rfl herr

/-- R42: an answer of the input stream takes from it the bytes it delivers. -/
theorem onReadAnswer_inTaken {a : ReadAnswer} {s t : State} (h : onReadAnswer a s = .next t) :
    t.inTaken = s.inTaken ++ a.bytes := by
  obtain ⟨f, -, -, ⟨-, h⟩ | ⟨-, h⟩⟩ := onReadAnswer_next h
  · obtain ⟨_, -, rfl⟩ | ⟨_, _, -, rfl⟩ | ⟨_, _, -, ⟨-, rfl⟩ | ⟨-, rfl⟩⟩ := firstAnswer_next h <;> rfl
  · obtain ⟨_, -, rfl⟩ | ⟨_, _, -, rfl⟩ | ⟨_, -, rfl⟩ := secondAnswer_next h <;> rfl

theorem onReadAnswer_leftAsWas {w : BitVec 4} {taken sent : List Byte} {a : ReadAnswer} {s u t : State}
    (hu : leftAsWas w taken sent s u) (h : onReadAnswer a u = .next t) : leftAsWas w (taken ++ a.bytes) sent s t := by
  obtain ⟨hmem, hcmd, hval, hbase, hlen, htaken, hsent⟩ := hu
  have hbytes : t.inTaken = s.inTaken ++ (taken ++ a.bytes) := by
    rw [onReadAnswer_inTaken h, htaken, List.append_assoc]
  rw [onReadAnswer_frame h]
  exact ⟨hmem, hcmd, hval, hbase, hlen, hbytes, hsent⟩

section

variable {as : List Answer} {s t : State} (hb : s.busy = false)
include hb

/-- An Encode, a Decode or a reserved code has moved no byte of a stream. -/
theorem transact_leftAsWas_of_noStream {w : BitVec 4} (hr : ∀ f, w ≠ readCode f) (hw : ∀ f, w ≠ writeCode f)
    (herr : t.rerr ≠ 0) (h : transact (decodeCmd w) as s = .next t) : leftAsWas w [] [] s t := by
  have hword := @eq_of_cmdWord_decodeCmd w
  obtain ⟨f, e, -⟩ | ⟨f, e, -⟩ | ⟨f, e, -⟩ | ⟨f, e, -⟩ | ⟨hi, -⟩ | ⟨f, tag, v, hi, -⟩ := exec_shape (decodeCmd w)
  · rw [e] at h hword
    obtain rfl := hword (cmdWord_encInstr f)
    exact encodeBuffer_leftAsWas (transact_encInstr_next hb h) herr
  · rw [e] at h hword
    obtain rfl := hword (cmdWord_decInstr f)
    exact decodeBuffer_leftAsWas (transact_decInstr_next hb h) herr
  · rw [e] at hword
    exact absurd (hword (cmdWord_wrInstr f)) (hw f)
  · rw [e] at hword
    exact absurd (hword (cmdWord_rdInstr f)) (hr f)
  · obtain ⟨c, hc, rfl⟩ := transact_reserved_next hi hb h
    obtain rfl := hword hc
    exact leftAsWas_raiseWith (leftAsWas_stored w s) _ _ _
  · rw [item?_decodeCmd] at hi
    cases hi

variable {f : Family} (ht : t.busy = false)
include ht

/-- R138: what the output stream accepted before a failed Write counts in RCNT and begins the encoding. -/
theorem transact_wrInstr_leftAsWas (herr : t.rerr ≠ 0) (h : transact (wrInstr f) as s = .next t) :
    ∃ sent, leftAsWas (writeCode f) [] sent s t ∧ sent.length = t.rcnt.toNat ∧
      (sent = [] ∨ ∃ bs, encodeBytes f s.val.toNat = some bs ∧ sent <+: bs) := by
  obtain ⟨-, rfl⟩ | ⟨bs, henc, rfl | ⟨m, e, hm, rfl⟩⟩ := transact_wrInstr_next hb ht h
  · exact ⟨[], leftAsWas_raiseWith (leftAsWas_stored _ s) _ _ _, rfl, .inl rfl⟩
  · exact absurd rfl herr
  · obtain ⟨-, hle⟩ := length_encodeBytes henc
    refine ⟨bs.take m, ⟨rfl, rfl, rfl, rfl, rfl, (List.append_nil _).symm, rfl⟩, ?_, .inr ⟨bs, henc, bs.take_prefix m⟩⟩
    exact (List.length_take_of_le hm.le).trans (toNat_ofNat4 m (by omega)).symm

/-- R134: a Read has moved the bytes that RCNT counts. -/
theorem transact_rdInstr_leftAsWas (h : transact (rdInstr f) as s = .next t) :
    ∃ taken, leftAsWas (readCode f) taken [] s t ∧ taken.length = t.rcnt.toNat := by
  have hissue : leftAsWas (readCode f) [] [] s (readIssued (readCode f) s) := leftAsWas_stored _ s
  have hleft : ∃ taken, leftAsWas (readCode f) taken [] s t := by
    obtain ⟨a, u, hu, rfl | ⟨b, hv⟩⟩ := transact_rdInstr_next hb ht h
    · exact ⟨_, onReadAnswer_leftAsWas hissue hu⟩
    · exact ⟨_, onReadAnswer_leftAsWas (onReadAnswer_leftAsWas hissue hu) hv⟩
  obtain ⟨taken, hleft⟩ := hleft
  obtain ⟨counted, hcounted, hcnt, -⟩ := readTakesExactlyItsCount as f s t hb ht h
  have ⟨_, _, _, _, _, htaken, _⟩ := hleft
  obtain rfl : taken = counted := List.append_cancel_left (htaken.symm.trans hcounted)
  exact ⟨taken, hleft, hcnt.symm⟩

end

/-- Settles O45: a Read, a Write, and a command that is complete at once each by what it leaves as it was. -/
theorem errorsArePrecise : Obligations.ErrorsArePrecise := by
  intro as w s t hb ht h herr
  by_cases hr : ∃ f, w = readCode f
  · obtain ⟨f, rfl⟩ := hr
    rw [decodeCmd_readCode] at h
    obtain ⟨taken, ⟨hmem, hcmd, hval, hbase, hlen, htaken, hsent⟩, hcnt⟩ := transact_rdInstr_leftAsWas hb ht h
    exact ⟨hmem, hcmd, hval, hbase, hlen, ⟨taken, htaken, fun _ _ => hcnt, fun hno => absurd rfl (hno f)⟩, [], hsent,
      fun g hg => absurd hg (readCode_ne_writeCode f g), fun _ => rfl⟩
  by_cases hw : ∃ f, w = writeCode f
  · obtain ⟨f, rfl⟩ := hw
    rw [decodeCmd_writeCode] at h
    obtain ⟨sent, ⟨hmem, hcmd, hval, hbase, hlen, htaken, hsent⟩, hcnt, hpre⟩ :=
      transact_wrInstr_leftAsWas hb ht herr h
    refine ⟨hmem, hcmd, hval, hbase, hlen, ⟨[], htaken, ?_, fun _ => rfl⟩, sent, hsent, ?_, fun hno => absurd rfl (hno f)⟩
    · exact fun g hg => absurd hg.symm (readCode_ne_writeCode g f)
    · intro g hg
      obtain rfl := eq_of_writeCode_eq hg
      exact ⟨hcnt, hpre⟩
  · obtain ⟨hmem, hcmd, hval, hbase, hlen, htaken, hsent⟩ :=
      transact_leftAsWas_of_noStream hb (not_exists.mp hr) (not_exists.mp hw) herr h
    exact ⟨hmem, hcmd, hval, hbase, hlen, ⟨[], htaken, fun f hf => absurd ⟨f, hf⟩ hr, fun _ => rfl⟩, [], hsent,
      fun f hf => absurd ⟨f, hf⟩ hw, fun _ => rfl⟩

end Sys2Proof.Machine

/-! ## A stream that never answers

R211: a waiting block moves only by an answer of its stream or by a reset; the host cannot move it. -/

namespace Sys2Proof.Machine

/-- R211: the block waits for a stream that has no answer to come. -/
def awaitsInVain (s : State) : Prop :=
  (s.ph = .rdTag ∨ s.ph = .rdCont) ∧ s.inTape = [] ∨ s.ph = .wrData ∧ s.outTape = []

theorem busy_of_awaitsInVain {s : State} (h : awaitsInVain s) : s.busy = true := by
  rw [s.busy_iff]
  obtain ⟨hph | hph, -⟩ | ⟨hph, -⟩ := h <;> simp [hph]

/-- What the host sees of the block, and the answers still to come, are the same in both states. -/
def blockUnmoved (s t : State) : Prop :=
  t.ph = s.ph ∧ (∀ r : Reg, t.hostRead r = s.hostRead r) ∧ t.inTape = s.inTape ∧ t.outTape = s.outTape

theorem hostTurn_blockUnmoved {s t : State} (hb : s.busy = true) (h : (hostTurn s).outcome = .next t) :
    blockUnmoved s t := by
  rw [hostTurn_busy hb h]
  exact ⟨rfl, fun _ => rfl, rfl, rfl⟩

theorem inStreamTurn_nil {s : State} (h : s.inTape = []) : inStreamTurn s = .fault .streamSilent := by
  rw [inStreamTurn, h]

theorem outStreamTurn_nil {s : State} (h : s.outTape = []) : outStreamTurn s = .fault .streamSilent := by
  rw [outStreamTurn, h]

/-- An answer of the input stream is taken only while a Read waits for it. -/
theorem inStreamTurn_next {s t : State} (h : inStreamTurn s = .next t) :
    (s.ph = .rdTag ∨ s.ph = .rdCont) ∧ s.inTape ≠ [] := by
  cases htape : s.inTape with
  | nil => simp [inStreamTurn_nil htape] at h
  | cons a rest =>
    rw [inStreamTurn_cons htape] at h
    obtain ⟨f, -, hph⟩ := onReadAnswer_ph h
    exact ⟨hph.imp And.left And.left, List.cons_ne_nil a rest⟩

/-- An answer of the output stream is taken only while a Write waits for it. -/
theorem outStreamTurn_next {s t : State} (h : outStreamTurn s = .next t) : s.ph = .wrData ∧ s.outTape ≠ [] := by
  cases htape : s.outTape with
  | nil => simp [outStreamTurn_nil htape] at h
  | cons a rest =>
    rw [outStreamTurn_cons htape] at h
    exact ⟨(onWriteAnswer_ph h).1, List.cons_ne_nil a rest⟩

theorem inStreamTurn_ne_next {s : State} (h : awaitsInVain s) (t : State) : inStreamTurn s ≠ .next t := by
  intro ht
  obtain ⟨hph, htape⟩ := inStreamTurn_next ht
  obtain ⟨-, hnil⟩ | ⟨hwr, -⟩ := h
  · exact htape hnil
  · simp [hwr] at hph

theorem outStreamTurn_ne_next {s : State} (h : awaitsInVain s) (t : State) : outStreamTurn s ≠ .next t := by
  intro ht
  obtain ⟨hph, htape⟩ := outStreamTurn_next ht
  obtain ⟨hrd, -⟩ | ⟨-, hnil⟩ := h
  · simp [hph] at hrd
  · exact htape hnil

/-- With no turn listed it is the silent stream's turn, and the machine is stuck. -/
theorem step_awaitsInVain {s : State} (hts : s.turns = []) (h : awaitsInVain s) : step s = .fault .streamSilent := by
  rw [step_default hts]
  obtain ⟨hph, htape⟩ | ⟨hph, htape⟩ := h
  · rw [defaultTurn_read hph]
    exact inStreamTurn_nil htape
  · rw [defaultTurn_write hph]
    exact outStreamTurn_nil htape

/-- Of the agents' turns only a reset moves a block that waits in vain. -/
theorem agentTurn_awaitsInVain {x : Turn} {s t : State} (h : awaitsInVain s) (ht : (agentTurn x s).outcome = .next t) :
    (∃ n bs, x = .reset n bs) ∨ blockUnmoved s t := by
  cases x with
  | host => exact .inr (hostTurn_blockUnmoved (busy_of_awaitsInVain h) ht)
  | inStream => exact absurd ht (inStreamTurn_ne_next h t)
  | outStream => exact absurd ht (outStreamTurn_ne_next h t)
  | reset n bs => exact .inl ⟨n, bs, rfl⟩

/-- Settles O4: by default the silent stream has the turn; a listed turn is one of the four agents'; and the host only
moves in its script. -/
theorem silentStreamHangsTheBlock : Obligations.SilentStreamHangsTheBlock := by
  refine ⟨fun s hts h => step_awaitsInVain hts h, fun s t h ht => ?_, fun s t ts hb hts ht => ?_⟩
  · cases hts : s.turns with
    | nil => simp [step_awaitsInVain hts h] at ht
    | cons x ts =>
      rw [step_turn hts] at ht
      obtain ⟨n, bs, rfl⟩ | hunmoved := agentTurn_awaitsInVain (s := { s with turns := ts }) h ht
      · exact .inl ⟨n, bs, ts, rfl⟩
      · exact .inr hunmoved
  · rw [step_turn hts] at ht
    obtain ⟨hph, hread, -, -⟩ := hostTurn_blockUnmoved (s := { s with turns := ts }) hb ht
    exact ⟨hph, hread⟩

end Sys2Proof.Machine
